-- ==== Sys2Proof/Word.lean ====
section
/-! DEFINITION. The machine's two units of data: the byte (`00_scope.md` R14) and the 16-bit value of the length
field, the shift register and the payload counter (`10_state.md` R25). -/

namespace Sys2Proof

/-- Eight bits, bit 7 the most significant (R14). Every access of every space is one byte (R66). -/
abbrev Byte := BitVec 8

/-- Sixteen bits: `sr`, `len`, `cnt`, `MAX_LEN`, a `MSG_BUF` index (R9, R25). -/
abbrev Half := BitVec 16

end Sys2Proof
end

