-- ==== Sys2Proof/Config.lean ====
section
/-! DEFINITION. The configuration record (`00_scope.md` R8 to R13) and the parameters the spec leaves OPEN. The record
is a parameter of every step (R20); the model carries it in a field of State that no operation writes (assumption 1).
What the spec leaves OPEN is an opaque constant: no proof can see its value. -/

namespace Sys2Proof

/-- `OVERSIZE_POLICY` (R10): what DF emits when a declared length exceeds `MAX_LEN`. -/
inductive OversizePolicy where
  | silent
  | report
  deriving DecidableEq, Repr, Inhabited

/-- One row of `REGISTRY` (R12, R42): `CLASS[t]`, `ID[t]`, `LEN[t]`, and the name of the external codec that supplies
`encode[t]` and `decode[t]` (assumption 2). -/
structure TypeRow where
  cls : Byte
  id : Byte
  len : Half
  codec : Nat
  deriving DecidableEq, Repr, Inhabited

/-- The triple of a row (R12). -/
def rowTriple (r : TypeRow) : Byte × Byte × Half := (r.cls, r.id, r.len)

/-- R13 of the tables: (a) the triples are pairwise distinct; (b) every class is that of exactly one category; (c) the
category classes are pairwise distinct. -/
def tablesWf (categories : List Byte) (registry : List TypeRow) : Bool :=
  decide (registry.map rowTriple).Nodup && registry.all (fun r => categories.count r.cls == 1) &&
    decide categories.Nodup

/-- The configuration of one instance: `MAX_LEN` (R9; sixteen bits, so R13 (d) holds by type), `OVERSIZE_POLICY` (R10),
`CAT_CLASS[c]` (R11) and `REGISTRY` (R12). An instance has a well-formed one by type, because no rule gives any other a
meaning (R13, U18; assumption 15). -/
structure Config where
  maxLen : Half
  policy : OversizePolicy
  categories : List Byte := []
  registry : List TypeRow := []
  wf : tablesWf categories registry = true := by rfl
  deriving DecidableEq, Repr, Inhabited

/-- A typed message value of any `V[t]` (R12), written as bytes in a representation the codec chooses (DESIGN CHOICE,
assumption 2: the spec says nothing of `V[t]`). -/
abbrev Value := List Byte

/-- `SYNC1 = 0xB5` (R8), first on the wire. -/
def sync1 : Byte := 0xB5#8

/-- `SYNC2 = 0x62` (R8). -/
def sync2 : Byte := 0x62#8

/-- `SYNC = 0xB562`, `SYNC1` in bits 15:8 (R8). -/
def syncWord : Half := 0xB562#16

/-- The hardware's `MAX_LEN`, `CATEGORIES` and `REGISTRY`, all OPEN (R9, R11, R12, D8, D19, N8, N12). -/
opaque Config.hwOpen : Config

/-- `encode[t]` of a codec: a value to exactly `len` bytes (R12, R206). Nothing else is assumed of it (N17). -/
opaque Config.encodeValue (codec : Nat) (len : Nat) (v : Value) : Vector Byte len

/-- `decode[t]` of a codec: the message bytes to a value, or FAIL (`none`) (R12, R206). -/
opaque Config.decodeValue (codec : Nat) (msg : List Byte) : Option Value

/-- The configuration of this hardware: the OPEN parameters, and `OVERSIZE_POLICY = REPORT` (R10, D9). -/
def Config.hw : Config := { Config.hwOpen with policy := .report }

end Sys2Proof
end

