-- ==== Sys2Proof/Syntax.lean ====
section
/-! DEFINITION. The operations of the block (`30_encoding.md` R90, `opcode_table.json`): one constructor per row of the
opcode table, the four formats of R106, and the reasons a word is not an operation. -/

namespace Sys2Proof

/-- The four formats of the opcode table (R106). -/
inductive Format where
  /-- `CMD`: `cmd[6:0]` of R91, then the operand bytes. -/
  | cmd
  /-- `DFSTEP`: the step selector `step[10:0] = DF.st, byte` of R92. -/
  | dfStep
  /-- `WIRE`: a frame on the wire (R93). -/
  | wire
  /-- `PSEUDO`: the pseudo-operations of R105. -/
  | pseudo
  deriving DecidableEq, Repr

/-- The operations (R90). The order is that of `opcode_table.json`. -/
inductive Instr where
  /-- `CK.PUSH d` (R121). -/
  | ckPush (d : Byte)
  /-- `CK.TAKE` (R122). -/
  | ckTake
  /-- `DF.RESET` (R140). -/
  | dfReset
  /-- `DF.PUSH byte` (R141). -/
  | dfPush (byte : Byte)
  /-- `ENC.FRAME cls, id, payload` (R181). -/
  | encFrame (cls id : Byte) (payload : List Byte)
  /-- `ENC.MSG t, v, cap` (R183). 32 bits hold every type index of every registry: the triples are distinct (R13 (a)).
  The index itself has `TW` bits (R42). -/
  | encMsg (t : BitVec 32) (v : List Byte) (cap : BitVec 17)
  /-- `DISP.DISPATCH (cls, mid, msg)` (R201). -/
  | dispDispatch (cls mid : Byte) (msg : List Byte)
  /-- `DF.PUSH@SYNC byte` (R142). -/
  | dfPushSync (byte : Byte)
  /-- `DF.PUSH@CLASS byte` (R143). -/
  | dfPushClass (byte : Byte)
  /-- `DF.PUSH@ID byte` (R144). -/
  | dfPushId (byte : Byte)
  /-- `DF.PUSH@LENLSB byte` (R145). -/
  | dfPushLenLsb (byte : Byte)
  /-- `DF.PUSH@LENMSB byte` (R147). -/
  | dfPushLenMsb (byte : Byte)
  /-- `DF.PUSH@MESSAGE byte` (R148). -/
  | dfPushMessage (byte : Byte)
  /-- `DF.PUSH@CKA byte` (R149). -/
  | dfPushCka (byte : Byte)
  /-- `DF.PUSH@CKB byte` (R150). -/
  | dfPushCkb (byte : Byte)
  /-- `FRAME`: one frame on the wire with whatever checksum bytes it carries (R93). -/
  | frame (cls id : Byte) (payload : List Byte) (ckA ckB : Byte)
  /-- `DF.BATCH bytes` (R152). -/
  | dfBatch (bytes : List Byte)
  /-- `.frame cls, id, payload` (R105). -/
  | dotFrame (cls id : Byte) (payload : List Byte)
  deriving DecidableEq, Repr

/-- The format of an operation's row (R106). -/
def Instr.format : Instr → Format
  | .ckPush _ => .cmd
  | .ckTake => .cmd
  | .dfReset => .cmd
  | .dfPush _ => .cmd
  | .encFrame _ _ _ => .cmd
  | .encMsg _ _ _ => .cmd
  | .dispDispatch _ _ _ => .cmd
  | .dfPushSync _ => .dfStep
  | .dfPushClass _ => .dfStep
  | .dfPushId _ => .dfStep
  | .dfPushLenLsb _ => .dfStep
  | .dfPushLenMsb _ => .dfStep
  | .dfPushMessage _ => .dfStep
  | .dfPushCka _ => .dfStep
  | .dfPushCkb _ => .dfStep
  | .frame _ _ _ _ _ => .wire
  | .dfBatch _ => .pseudo
  | .dotFrame _ _ _ => .pseudo

/-- Why bytes are no operation. -/
inductive DecodeError where
  /-- `cmd = 0`, or `enc_mode = 1` with `enc_go = 0`: no row of R91 matches, so it is no operation. A step runs such a
  vector all the same: no unit does anything. -/
  | noOperation
  /-- `cmd[1:0] = 3` or `cmd[3:2] = 3`: not admitted (R45, R91). -/
  | twoStrobes
  /-- Rows of several units match: several operations, not one. A step runs them together (R91). -/
  | severalUnits
  /-- A bit above the field's width is set (`cmd` has 7 bits, `step` 11, `enc_cap` 17). -/
  | reservedBits
  /-- The operand bytes end early. -/
  | truncated
  /-- `WIRE` bytes that do not begin `0xB5 0x62` (R94): no frame. A step pushes them into DF all the same (R103). -/
  | badSync
  /-- A `PSEUDO` word whose selector names no pseudo-operation. -/
  | badPseudo
  deriving DecidableEq, Repr

end Sys2Proof
end

