-- ==== Sys2Proof/WellFormed.lean ====
section
/-! DEFINITION. When an operation can be presented: every length field has 16 bits, so no byte sequence it counts is
longer than 65535 (`42_encoder.md` R182, `10_state.md` R48, R49). -/

namespace Sys2Proof

/-- A 16-bit length field can count this byte sequence (R97, R182). -/
def counted (s : List Byte) : Bool := decide (s.length ≤ 65535)

/-- The operations that can be presented. The operands of `CK` and of `DF.PUSH` are whole bytes, always presentable;
`DF.BATCH` takes a sequence of any length (R152). -/
def Instr.wellFormed : Instr → Bool
  | .encFrame _ _ payload => counted payload
  | .encMsg _ v _ => counted v
  | .dispDispatch _ _ msg => counted msg
  | .frame _ _ payload _ _ => counted payload
  | .dotFrame _ _ payload => counted payload
  | .ckPush _ | .ckTake | .dfReset | .dfPush _ | .dfPushSync _ | .dfPushClass _ | .dfPushId _ | .dfPushLenLsb _
  | .dfPushLenMsb _ | .dfPushMessage _ | .dfPushCka _ | .dfPushCkb _ | .dfBatch _ => true

/-- `Instr.wellFormed` as a proposition. -/
abbrev Instr.WellFormed (i : Instr) : Prop := i.wellFormed = true

end Sys2Proof
end

