-- ==== Sys2Proof/Decode.lean ====
section
/-! DEFINITION. The decoder and the encoder of operations (`30_encoding.md` R91 to R97, R105, R106). The selection words
(`cmd`, `step`, the wire pattern) are the spec's; that the operand ports follow the selection word as bytes, in the order
of the port tables and little-endian, is the model's serialisation (assumption 12). -/

namespace Sys2Proof

/-! Byte order of the 16-bit fields (R64, R97). -/

/-- `len = {hi, lo}` (R97, R128 (a)). -/
def lenOf (lo hi : Byte) : Half := hi ++ lo

/-- `len[7:0]` (R97). -/
def lenLo (n : Half) : Byte := n.extractLsb' 0 8

/-- `len[15:8]` (R97). -/
def lenHi (n : Half) : Byte := n.extractLsb' 8 8

/-- The 16-bit length of a byte sequence a length field can count (R97). -/
def lenField (s : List Byte) : Half := BitVec.ofNat 16 s.length

/-- A byte sequence preceded by its length, low byte first. -/
def counted16 (s : List Byte) : List Byte := lenLo (lenField s) :: lenHi (lenField s) :: s

/-! The `CMD` rows (R91). -/

/-- The seven operations a `cmd` vector selects. -/
inductive CmdOp where
  | ckPush
  | ckTake
  | dfReset
  | dfPush
  | encFrame
  | encMsg
  | dispDispatch
  deriving DecidableEq, Repr

/-- One row of the table of R91. -/
structure CmdRow where
  pattern : Byte
  mask : Byte
  op : CmdOp
  deriving DecidableEq, Repr

/-- The table of R91. -/
def cmdTable : List CmdRow :=
  [ ⟨0x01#8, 0x03#8, .ckPush⟩,
    ⟨0x02#8, 0x03#8, .ckTake⟩,
    ⟨0x04#8, 0x0C#8, .dfReset⟩,
    ⟨0x08#8, 0x0C#8, .dfPush⟩,
    ⟨0x10#8, 0x30#8, .encFrame⟩,
    ⟨0x30#8, 0x30#8, .encMsg⟩,
    ⟨0x40#8, 0x40#8, .dispDispatch⟩ ]

/-- The operations performed in a cycle with this vector: `(cmd & mask) = match` (R91). -/
def cmdSelects (c : Byte) : List CmdOp :=
  (cmdTable.filter fun r => c &&& r.mask == r.pattern).map CmdRow.op

/-- Two strobes of one unit: `cmd[1:0] = 3` or `cmd[3:2] = 3` (R45, R91). -/
def cmdTwoStrobes (c : Byte) : Bool := c &&& 0x03#8 == 0x03#8 || c &&& 0x0C#8 == 0x0C#8

/-- The operation and the bytes after it, or the reason there is none. -/
abbrev Decoded := Except DecodeError (Instr × List Byte)

/-- The first `n` bytes and the rest. -/
def takeBytes (n : Nat) (bs : List Byte) : Except DecodeError (List Byte × List Byte) :=
  if n ≤ bs.length then .ok (bs.take n, bs.drop n) else .error .truncated

/-- A byte sequence counted by the two length bytes before it. -/
def takeCounted (bs : List Byte) : Except DecodeError (List Byte × List Byte) :=
  match bs with
  | lo :: hi :: rest => takeBytes (lenOf lo hi).toNat rest
  | _ => .error .truncated

/-- The operand bytes of each `CMD` row, in the order of the port tables R46 to R49 (assumption 12). -/
def decodeOperands (op : CmdOp) (bs : List Byte) : Decoded :=
  match op with
  | .ckPush =>
    match bs with
    | d :: rest => .ok (.ckPush d, rest)
    | _ => .error .truncated
  | .ckTake => .ok (.ckTake, bs)
  | .dfReset => .ok (.dfReset, bs)
  | .dfPush =>
    match bs with
    | d :: rest => .ok (.dfPush d, rest)
    | _ => .error .truncated
  | .encFrame =>
    match bs with
    | cls :: id :: rest => (takeCounted rest).map fun (p, rest) => (.encFrame cls id p, rest)
    | _ => .error .truncated
  | .encMsg =>
    match bs with
    | t0 :: t1 :: t2 :: t3 :: c0 :: c1 :: c2 :: rest =>
      if c2 &&& 0xFE#8 = 0#8 then
        (takeCounted rest).map fun (v, rest) =>
          (.encMsg (t3 ++ (t2 ++ (t1 ++ t0))) v (c2.extractLsb' 0 1 ++ (c1 ++ c0)), rest)
      else .error .reservedBits
    | _ => .error .truncated
  | .dispDispatch =>
    match bs with
    | cls :: mid :: rest => (takeCounted rest).map fun (m, rest) => (.dispDispatch cls mid m, rest)
    | _ => .error .truncated

/-- A `CMD` word that selects one operation of one unit (R91). -/
def decodeCmd (bs : List Byte) : Decoded :=
  match bs with
  | [] => .error .truncated
  | c :: rest =>
    if c &&& 0x80#8 ≠ 0#8 then .error .reservedBits
    else if cmdTwoStrobes c then .error .twoStrobes
    else
      match cmdSelects c with
      | [] => .error .noOperation
      | [op] => decodeOperands op rest
      | _ => .error .severalUnits

/-- The operands of several operations, one after another in the order of the table. -/
def decodeOps (ops : List CmdOp) (bs : List Byte) : Except DecodeError (List Instr × List Byte) :=
  match ops with
  | [] => .ok ([], bs)
  | op :: ops =>
    match decodeOperands op bs with
    | .error e => .error e
    | .ok (i, rest) =>
      match decodeOps ops rest with
      | .error e => .error e
      | .ok (is, rest) => .ok (i :: is, rest)

/-- Every operation a `CMD` vector selects: rows of different units may hold together, and a vector may select nothing
(R91). -/
def decodeVector (bs : List Byte) : Except DecodeError (List Instr × List Byte) :=
  match bs with
  | [] => .error .truncated
  | c :: rest =>
    if c &&& 0x80#8 ≠ 0#8 then .error .reservedBits
    else if cmdTwoStrobes c then .error .twoStrobes
    else decodeOps (cmdSelects c) rest

/-- The step rule of the state with this code (R28, R92). -/
def stepOfCode (code : BitVec 3) (byte : Byte) : Instr :=
  match code.toNat with
  | 0 => .dfPushSync byte
  | 1 => .dfPushClass byte
  | 2 => .dfPushId byte
  | 3 => .dfPushLenLsb byte
  | 4 => .dfPushLenMsb byte
  | 5 => .dfPushMessage byte
  | 6 => .dfPushCka byte
  | _ => .dfPushCkb byte

/-- A `DFSTEP` word: `step[7:0]` is the byte, `step[10:8]` the state code (R92), the low byte first. -/
def decodeStep (bs : List Byte) : Decoded :=
  match bs with
  | byte :: st :: rest =>
    if st &&& 0xF8#8 ≠ 0#8 then .error .reservedBits else .ok (stepOfCode (st.extractLsb' 0 3) byte, rest)
  | _ => .error .truncated

/-- A frame on the wire (R93): sync word, class, id, length, payload, two checksum bytes. -/
def decodeWire (bs : List Byte) : Decoded :=
  match bs with
  | s1 :: s2 :: cls :: id :: rest =>
    if s1 = sync1 ∧ s2 = sync2 then
      match takeCounted rest with
      | .ok (p, a :: b :: rest) => .ok (.frame cls id p a b, rest)
      | .ok _ => .error .truncated
      | .error e => .error e
    else .error .badSync
  | _ => .error .truncated

/-- A pseudo-operation (R105): a selector byte of the model's own (0 for `DF.BATCH`, 1 for `.frame`), then the operands;
a batch is all the bytes that follow (assumption 12). -/
def decodePseudo (bs : List Byte) : Decoded :=
  match bs with
  | [] => .error .truncated
  | sel :: rest =>
    if sel = 0x00#8 then .ok (.dfBatch rest, [])
    else if sel = 0x01#8 then
      match rest with
      | cls :: id :: rest => (takeCounted rest).map fun (p, rest) => (.dotFrame cls id p, rest)
      | _ => .error .truncated
    else .error .badPseudo

/-- The decoder: total on any bytes of any format. -/
def decode (fmt : Format) (bs : List Byte) : Decoded :=
  match fmt with
  | .cmd => decodeCmd bs
  | .dfStep => decodeStep bs
  | .wire => decodeWire bs
  | .pseudo => decodePseudo bs

/-! The encoder, from the same tables. -/

/-- The bytes of a 32-bit type index, low byte first. -/
def bytes32 (t : BitVec 32) : List Byte :=
  [t.extractLsb' 0 8, t.extractLsb' 8 8, t.extractLsb' 16 8, t.extractLsb' 24 8]

/-- The bytes of a 17-bit capacity, low byte first. -/
def bytes17 (c : BitVec 17) : List Byte :=
  [c.extractLsb' 0 8, c.extractLsb' 8 8, (c.extractLsb' 16 1).setWidth 8]

/-- The bytes of an operation, in its own format. -/
def encode : Instr → List Byte
  | .ckPush d => [0x01#8, d]
  | .ckTake => [0x02#8]
  | .dfReset => [0x04#8]
  | .dfPush byte => [0x08#8, byte]
  | .encFrame cls id payload => 0x10#8 :: cls :: id :: counted16 payload
  | .encMsg t v cap => 0x30#8 :: (bytes32 t ++ (bytes17 cap ++ counted16 v))
  | .dispDispatch cls mid msg => 0x40#8 :: cls :: mid :: counted16 msg
  | .dfPushSync byte => [byte, 0x00#8]
  | .dfPushClass byte => [byte, 0x01#8]
  | .dfPushId byte => [byte, 0x02#8]
  | .dfPushLenLsb byte => [byte, 0x03#8]
  | .dfPushLenMsb byte => [byte, 0x04#8]
  | .dfPushMessage byte => [byte, 0x05#8]
  | .dfPushCka byte => [byte, 0x06#8]
  | .dfPushCkb byte => [byte, 0x07#8]
  | .frame cls id payload ckA ckB => sync1 :: sync2 :: cls :: id :: (counted16 payload ++ [ckA, ckB])
  | .dfBatch bytes => 0x00#8 :: bytes
  | .dotFrame cls id payload => 0x01#8 :: cls :: id :: counted16 payload

/-! The opcode table's words. -/

/-- The format of a table word of this width: the `CMD` rows have 7 bits, the `DFSTEP` rows 11, a `WIRE` row more
(R106). -/
def tableFormat (nbits : Nat) : Format :=
  if nbits ≤ 8 then .cmd else if nbits ≤ 16 then .dfStep else .wire

/-- The low `n` bytes of a number, the least significant first. -/
def bytesOfNat : Nat → Nat → List Byte
  | 0, _ => []
  | n + 1, w => BitVec.ofNat 8 w :: bytesOfNat n (w / 256)

/-- How many bytes a table word of this format takes with every operand byte zero, at most. -/
def tableBytes : Format → Nat
  | .cmd => 10
  | .dfStep => 2
  | .wire => 8
  | .pseudo => 6

/-- The bytes of a table word, the operand bytes above it zero. -/
def tableWordBytes (nbits w : Nat) : List Byte :=
  bytesOfNat (max (tableBytes (tableFormat nbits)) ((nbits + 7) / 8)) (w % 2 ^ nbits)

/-- The operation the decoder reads from a table word, `none` where it refuses. -/
def decodeTableWord (nbits w : Nat) : Option Instr :=
  match decode (tableFormat nbits) (tableWordBytes nbits w) with
  | .ok (i, _) => some i
  | .error _ => none

end Sys2Proof
end

