-- ==== Sys2Proof/Machine/State.lean ====
section
/-! DEFINITION. The state of the block (`10_state.md`), its outcomes, its output ports, the reasons a step stops, and the
state after reset. Everything is plain data. -/

namespace Sys2Proof.Machine

/-- A checksum accumulator (R21): two 8-bit registers. -/
structure Ck where
  a : Byte
  b : Byte
  deriving DecidableEq, Repr

/-- The cleared accumulator, which is also the reset value (R21, R50). -/
def Ck.zero : Ck := { a := 0#8, b := 0#8 }

/-- `MSG_BUF` (R61): pairs of index and byte, indices strictly rising. An index that is not listed has no specified value
(R51, R63): a read of it faults, so no entry equals what an unlisted index reads as. -/
abbrev Memory := List Host.Cell

/-- The DF state (R24, normative): eight variants, each with the registers that R26 marks valid in it. `msg` itself is in
`MSG_BUF`, with `cnt` or `len` saying how much of it (R25); `ck` is the accumulator `CK_DF` (R23). -/
inductive DfState where
  /-- Code 0: searching for the sync word, with the last two bytes seen (R30). -/
  | sync (sr : Half)
  /-- Code 1. -/
  | cls
  /-- Code 2. -/
  | id (cls : Byte)
  /-- Code 3. -/
  | lenLsb (cls mid : Byte)
  /-- Code 4. -/
  | lenMsb (cls mid lenLsb : Byte)
  /-- Code 5: `cnt` payload bytes of `len` are stored (R29). -/
  | message (cls mid : Byte) (len cnt : Half)
  /-- Code 6: the payload is complete; the two finalized checksum bytes (R31). -/
  | cka (cls mid : Byte) (len : Half) (expA expB : Byte)
  /-- Code 7. -/
  | ckb (cls mid : Byte) (len : Half) (expA expB : Byte)
  deriving DecidableEq, Repr

/-- The Envelope's registers after an `ENVELOPE` outcome (R26's exception, R37): each readable until DF next writes it. -/
structure Shown where
  cls : Option Byte
  mid : Option Byte
  len : Option Half
  deriving DecidableEq, Repr

/-- No Envelope is presented. -/
def Shown.closed : Shown := { cls := none, mid := none, len := none }

/-- A validated message (R36). -/
structure Envelope where
  cls : Byte
  mid : Byte
  msg : List Byte
  deriving DecidableEq, Repr

/-- What one `DF.PUSH` produces (R33). -/
inductive DfOutcome where
  /-- `NONE`, code 0 ("no output"). -/
  | noOutput
  /-- `ENVELOPE`, code 1. -/
  | envelope (env : Envelope)
  /-- `ERR_CHECKSUM`, code 2, carrying nothing (R223). -/
  | errChecksum
  /-- `ERR_OVERSIZE`, code 3 (R222). -/
  | errOversize (declared capacity : Half)
  deriving DecidableEq, Repr

/-- What an observer samples of one push (R243): `df_state` before the step, `df_byte`, and the outcome. -/
structure DfEvent where
  st : BitVec 3
  byte : Byte
  outcome : DfOutcome
  deriving DecidableEq, Repr

/-- Where ENC takes its payload (R43, R49, R60): the byte the host or a codec presents on `enc_pdata` for the index on
`enc_paddr` (R48), or `MSG_BUF` through its read port when an Envelope is re-encoded. -/
inductive PayloadSrc where
  | port
  | msgBuf
  deriving DecidableEq, Repr

/-- A value on wires whose number the configuration fixes (`TW` and `CW` of R42). -/
structure Bits where
  width : Nat
  bits : BitVec width
  deriving DecidableEq, Repr

/-- `ENC.phase` (R185), with `ENC.idx` where it is used and the latched `b` where it is held. -/
inductive EncPhase where
  | sync1
  | sync2
  | cls
  | id
  | lenLo
  | lenHi
  | payload (idx : Half)
  | ckA
  | ckB (b : Byte)
  deriving DecidableEq, Repr

/-- A frame being emitted: the operands latched at `enc_go` and the phase (R38, R185). -/
structure EncJob where
  cls : Byte
  id : Byte
  len : Half
  src : PayloadSrc
  phase : EncPhase
  deriving DecidableEq, Repr

/-- The ENC sequencer (R38): `ENC.busy` is 1 exactly when a job is held (R186). -/
inductive EncState where
  | idle
  | busy (job : EncJob)
  deriving DecidableEq, Repr

/-- What the stand-alone CK reports (R46, R121, R122). -/
inductive CkOut where
  | idle
  | pushed (d : Byte)
  | taken (a b : Byte)
  deriving DecidableEq, Repr

/-- What ENC reports (R35, R48): nothing, a whole operation's bytes and their number, `ERR_CAPACITY`, or one emitted byte
(with `enc_n` when it is the last). -/
inductive EncOut where
  | idle
  | written (n : BitVec 17) (bytes : List Byte)
  | errCapacity
  | emitted (byte : Byte) (last : Option (BitVec 17))
  deriving DecidableEq, Repr

/-- The value of a `DECODED` outcome: the codec's value, or, at the ports, nothing (R49 has no value output: the value
stays with the external decoder). -/
inductive DecodedValue where
  | value (v : Value)
  | external
  deriving DecidableEq, Repr

/-- What DISP reports (R35). -/
inductive DispOut where
  /-- No dispatch was performed. -/
  | idle
  /-- `UNRECOGNIZED`, code 0 (R205). -/
  | unrecognized
  /-- `DECODED(c, t, v)`, code 1. -/
  | decoded (c t : Nat) (v : DecodedValue)
  /-- `DECODE_FAILED(c, t)`, code 2 (R204). -/
  | decodeFailed (c t : Nat)
  deriving DecidableEq, Repr

/-- The outcomes reported in the last step (R34: reported there and nowhere else). A batch reports one DF event per byte
(R152). -/
structure Out where
  ck : CkOut
  df : List DfEvent
  enc : EncOut
  dp : DispOut
  deriving DecidableEq, Repr

/-- Nothing reported. -/
def Out.idle : Out := { ck := .idle, df := [], enc := .idle, dp := .idle }

/-- The output ports of R46 to R49 in one clock cycle. `none` where the spec gives the wire no value. -/
structure PortsOut where
  ckDout : Byte
  ckA : Byte
  ckB : Byte
  dfKind : BitVec 2
  dfCls : Option Byte
  dfId : Option Byte
  dfLen : Option Half
  dfCap : Half
  dfRdata : Option Byte
  dfState : BitVec 3
  encPaddr : Option Half
  encValid : Bool
  encByte : Option Byte
  encLast : Bool
  encN : Option (BitVec 17)
  encErr : Bool
  encBusy : Bool
  dpHit : Bool
  dpSel : Option Bits
  dpCat : Option Bits
  dpKind : BitVec 2
  deriving DecidableEq, Repr

/-- The output ports with no strobe, in the reset state (R51). -/
def PortsOut.idle (cap : Half) : PortsOut :=
  { ckDout := 0#8, ckA := 0#8, ckB := 0#8, dfKind := 0#2, dfCls := none, dfId := none, dfLen := none, dfCap := cap,
    dfRdata := none, dfState := 0#3, encPaddr := none, encValid := false, encByte := none, encLast := false,
    encN := none, encErr := false, encBusy := false, dpHit := false, dpSel := none, dpCat := none, dpKind := 0#2 }

/-- The input ports of R45 to R49 in one clock cycle. `cmd` gathers the strobes (R91). `raddr` is the index on `df_raddr`
when the host uses `df_rdata` in this cycle; `encPdata` is the byte on `enc_pdata` when the host presents one; `encSrc`
says, at `enc_go`, where the payload comes from (assumption 7). -/
structure PortsIn where
  rst : Bool
  cmd : BitVec 7
  ckDin : Byte
  dfByte : Byte
  raddr : Option Half
  encCls : Byte
  encId : Byte
  encLen : Half
  encType : Bits
  encCap : BitVec 17
  encSrc : PayloadSrc
  encPdata : Option Byte
  dpCls : Byte
  dpId : Byte
  dpLen : Half
  dpFail : Bool
  deriving DecidableEq, Repr

/-- A clock cycle in which the host does nothing: no strobe is 1 (R91, R244). -/
def PortsIn.idle : PortsIn :=
  { rst := false, cmd := 0#7, ckDin := 0#8, dfByte := 0#8, raddr := none, encCls := 0#8, encId := 0#8, encLen := 0#16,
    encType := ⟨1, 0#1⟩, encCap := 0#17, encSrc := .port, encPdata := none, dpCls := 0#8, dpId := 0#8, dpLen := 0#16, dpFail := false }

/-- One request of the host: a whole operation, as bytes of one of the four formats (R18, R68, R106), or one clock cycle
of the port wrapping (R45). -/
inductive HostInput where
  | op (fmt : Format) (bytes : List Byte)
  | cycle (ports : PortsIn)
  deriving DecidableEq, Repr

/-- The state of one block. -/
structure State where
  /-- The configuration (R8 to R13): written by no operation (R40). -/
  cfg : Config
  /-- The stand-alone accumulator CK (R23). -/
  ck : Ck
  /-- The DF state (R24). -/
  df : DfState
  /-- The accumulator CK_DF (R23). -/
  ckDf : Ck
  /-- `MSG_BUF` (R61). -/
  buf : Memory
  /-- The presented Envelope's registers (R37). -/
  shown : Shown
  /-- The ENC sequencer (R38). -/
  enc : EncState
  /-- The accumulator CK_ENC (R23). -/
  encCk : Ck
  /-- The outcomes of the last step (R34). -/
  out : Out
  /-- The output ports in the last clock cycle (R46 to R49). -/
  ports : PortsOut
  /-- The host's requests not yet taken, the next one first (the model's own field, assumption 9). -/
  inputs : List HostInput
  deriving DecidableEq, Repr

/-- Why a step stops the model with a fault. The block itself has no fault state (R227). -/
inductive Fault where
  /-- Raised by a store to a `MSG_BUF` index that does not exist (`>= MAX_LEN`). R62 shows no run reaches it. Safe: the
  model stops. -/
  | bufAddress
  /-- Raised by a read of a `MSG_BUF` index that has no specified value (R63, U13, U22): by the host's read port, by ENC
  re-encoding from `MSG_BUF`, or, in states no run reaches, by the `CKB` step. Safe: the model stops, as U13 asks. -/
  | bufUnspecified
  deriving DecidableEq, Repr

/-- Why the model gives a request no meaning. -/
inductive Refusal where
  /-- Raised by `exec` for an operation that has no meaning yet, by its mnemonic. Safe: the model stops. -/
  | notModelled (mnemonic : String)
  /-- Raised by `step` for bytes that name no operation of R90: an operand byte missing, a bit set that the 7-bit vector,
  the 11-bit step word or the 17-bit capacity does not have (R91, R92, R48), or an unknown selector of the model's own
  (assumption 12). Safe: the block has no such input. -/
  | undecodable (e : DecodeError)
  /-- Raised by a clock cycle or a `CMD` vector with two strobes of one unit (R45, U14). Safe: the spec admits no such
  cycle. -/
  | twoStrobes
  /-- Raised by `ENC.FRAME` and `ENC.MSG` while a frame is being emitted (R186, U17). Safe: not admitted. -/
  | encBusy
  /-- Raised by `ENC.FRAME`, `FRAME` and `.frame` for more than 65535 payload bytes (R182, U15). Safe: it cannot be
  presented. -/
  | payloadTooLong
  /-- Raised by the byte-serial ENC when it wants a payload byte from `enc_pdata` and the host presents none (R48, R185).
  Safe: the host breaks its duty (R271), or the codec its contract (U19). -/
  | payloadSource
  /-- Raised by a step that changes a byte of `MSG_BUF` which a re-encoding in progress has still to emit (R185, R271,
  U17). Safe: not admitted. -/
  | payloadChanged
  /-- Raised by a clock cycle in which ENC reads `MSG_BUF` at one index and the host drives another on `df_raddr`: there
  is one read port (R47, R60; assumption 20). Safe: the model stops. -/
  | readPortTaken
  /-- Raised by `ENC.MSG` for `t >= NTYPE` (R183, U16), and for an `enc_type` that has not the `TW` wires of R42. Safe: not
  admitted. -/
  | badTypeIndex
  /-- Raised by the construction of an instance whose configuration breaks R13 (U18). Safe: no rule gives it a meaning. -/
  | illFormedConfig
  /-- Raised by a `DFSTEP` word whose state code is not that of `DF.st`: `DF.st` alone selects the step rule (R92, R106),
  so the word cannot arise. Safe: the model stops. -/
  | stepNotSelected
  deriving DecidableEq, Repr

/-- The block right after reset (R50, R51). The OPEN parameters are opaque (assumption 1). -/
def State.reset : State :=
  { cfg := Config.hw
    ck := Ck.zero
    df := .sync 0x0000#16
    ckDf := Ck.zero
    buf := []
    shown := Shown.closed
    enc := .idle
    encCk := Ck.zero
    out := Out.idle
    ports := PortsOut.idle Config.hw.maxLen
    inputs := [] }

/-! Named updates, one per field. -/

def State.setCk (s : State) (v : Ck) : State := { s with ck := v }
def State.setDf (s : State) (v : DfState) : State := { s with df := v }
def State.setCkDf (s : State) (v : Ck) : State := { s with ckDf := v }
def State.setBuf (s : State) (v : Memory) : State := { s with buf := v }
def State.setShown (s : State) (v : Shown) : State := { s with shown := v }
def State.setEnc (s : State) (v : EncState) : State := { s with enc := v }
def State.setEncCk (s : State) (v : Ck) : State := { s with encCk := v }
def State.setOut (s : State) (v : Out) : State := { s with out := v }
def State.setPorts (s : State) (v : PortsOut) : State := { s with ports := v }
def State.setInputs (s : State) (v : List HostInput) : State := { s with inputs := v }

/-- Each unit reports on its own ports. -/
def State.setOutCk (s : State) (v : CkOut) : State := { s with out := { s.out with ck := v } }
def State.setOutDf (s : State) (v : List DfEvent) : State := { s with out := { s.out with df := v } }
def State.setOutEnc (s : State) (v : EncOut) : State := { s with out := { s.out with enc := v } }
def State.setOutDp (s : State) (v : DispOut) : State := { s with out := { s.out with dp := v } }

end Sys2Proof.Machine
end

