-- ==== Sys2Proof/Machine/Ops.lean ====
section
/-! DEFINITION. The operations every meaning is built from: the checksum accumulator (`40_checksum.md`), `MSG_BUF`
(`20_memory.md`), the return to SYNC that reports a DF error (`60_exceptions.md` R232: this machine's taking of an
exception; there is no return operation, R234), the presented Envelope, and the dispatcher's tables. -/

namespace Sys2Proof.Machine

/-- What an operation answers. -/
abbrev Result (α : Type) := Host.Outcome α Fault Refusal

/-- Go on with the value of a sub-operation; a fault or a refusal ends the step. -/
def andThen {α β : Type} (o : Result α) (f : α → Result β) : Result β :=
  match o with
  | .next a => f a
  | .fault e => .fault e
  | .refused e => .refused e

/-! The checksum accumulator. -/

/-- `CK.push(d)` (R121): 8-bit sums with wrap-around (R127); `b` adds the updated `a`. The byte itself is returned
unchanged. -/
def Ck.push (c : Ck) (d : Byte) : Ck := { a := c.a + d, b := c.b + (c.a + d) }

/-- `CK.push` of each byte in order. -/
def Ck.pushAll (c : Ck) (s : List Byte) : Ck := s.foldl Ck.push c

/-- `cksum(s)` (R123): the pair taken after pushing `s` into a cleared accumulator. -/
def cksum (s : List Byte) : Ck := Ck.zero.pushAll s

/-! Construction of an instance. -/

/-- Construction of an instance with a configuration (R50, R261): one that breaks R13 (a) to (d) is refused, whatever
operation would follow (U18). -/
def construct (maxLen : Nat) (policy : OversizePolicy) (categories : List Byte) (registry : List TypeRow) :
    Result State :=
  if maxLen ≤ 65535 then
    if h : tablesWf categories registry = true then
      .next { State.reset with
        cfg := ⟨BitVec.ofNat 16 maxLen, policy, categories, registry, h⟩
        ports := PortsOut.idle (BitVec.ofNat 16 maxLen) }
    else .refused .illFormedConfig
  else .refused .illFormedConfig

/-! `MSG_BUF`. -/

/-- The canonical form: indices strictly rising. -/
abbrev Memory.wf (m : Memory) : Prop := List.Pairwise (fun x y => x.1 < y.1) m

/-- The byte at an index, `none` where it has no specified value. -/
def Memory.read (m : Memory) (addr : Nat) : Option Byte :=
  match m with
  | [] => none
  | (a, v) :: rest => if a = addr then some v else Memory.read rest addr

/-- Write one byte, in canonical form. -/
def Memory.write (m : Memory) (addr : Nat) (v : Byte) : Memory :=
  match m with
  | [] => [(addr, v)]
  | (a, w) :: rest =>
    if addr < a then (addr, v) :: (a, w) :: rest
    else if addr = a then (addr, v) :: rest
    else (a, w) :: Memory.write rest addr v

/-- Only the bytes below an index keep a specified value. -/
def Memory.below (m : Memory) (n : Nat) : Memory := m.filter fun c => decide (c.1 < n)

/-- `n` bytes from an index on, `none` if one of them has no specified value. -/
def Memory.readFrom (m : Memory) (start : Nat) : Nat → Option (List Byte)
  | 0 => some []
  | n + 1 =>
    match Memory.read m start, Memory.readFrom m (start + 1) n with
    | some v, some vs => some (v :: vs)
    | _, _ => none

/-- `MemWrite(addr, 1, v)` (R62). An index `>= MAX_LEN` does not exist. -/
def memWrite (addr : Half) (v : Byte) (s : State) : Result State :=
  if addr.toNat < s.cfg.maxLen.toNat then .next (s.setBuf (Memory.write s.buf addr.toNat v)) else .fault .bufAddress

/-- `MemRead(addr, 1)` (R63): a value only where one is specified. -/
def memRead (addr : Half) (s : State) : Result Byte :=
  match Memory.read s.buf addr.toNat with
  | some v => .next v
  | none => .fault .bufUnspecified

/-- `msg = MSG_BUF[0 .. len-1]` (R150). -/
def readMsg (len : Half) (s : State) : Result (List Byte) :=
  match Memory.readFrom s.buf 0 len.toNat with
  | some msg => .next msg
  | none => .fault .bufUnspecified

/-! The sequencing state and the registers of R25. -/

/-- `DF.st` (R28). -/
def DfState.code : DfState → BitVec 3
  | .sync _ => 0#3
  | .cls => 1#3
  | .id _ => 2#3
  | .lenLsb _ _ => 3#3
  | .lenMsb _ _ _ => 4#3
  | .message _ _ _ _ => 5#3
  | .cka _ _ _ _ _ => 6#3
  | .ckb _ _ _ _ _ => 7#3

/-- `DF.cls` where R26 gives it a value: in ID to CKB, and, while an Envelope is presented, until the next CLASS step
(R37). -/
def regCls (s : State) : Option Byte :=
  match s.df with
  | .sync _ => s.shown.cls
  | .cls => s.shown.cls
  | .id c => some c
  | .lenLsb c _ => some c
  | .lenMsb c _ _ => some c
  | .message c _ _ _ => some c
  | .cka c _ _ _ _ => some c
  | .ckb c _ _ _ _ => some c

/-- `DF.mid` where R26 and R37 give it a value. -/
def regMid (s : State) : Option Byte :=
  match s.df with
  | .sync _ => s.shown.mid
  | .cls => s.shown.mid
  | .id _ => s.shown.mid
  | .lenLsb _ m => some m
  | .lenMsb _ m _ => some m
  | .message _ m _ _ => some m
  | .cka _ m _ _ _ => some m
  | .ckb _ m _ _ _ => some m

/-- `DF.len`, all 16 bits, where R26 and R37 give them a value (in LENMSB only the low byte has one). -/
def regLen (s : State) : Option Half :=
  match s.df with
  | .sync _ => s.shown.len
  | .cls => s.shown.len
  | .id _ => s.shown.len
  | .lenLsb _ _ => s.shown.len
  | .lenMsb _ _ _ => none
  | .message _ _ n _ => some n
  | .cka _ _ n _ _ => some n
  | .ckb _ _ n _ _ => some n

/-! Terminal outcomes. -/

/-- Back to the initial SYNC state with an empty shift register (R153, R154). -/
def toSync (s : State) : State := s.setDf (.sync 0x0000#16)

/-- The return to SYNC with no Envelope: no register and no byte of `MSG_BUF` keeps a specified value (R26, R231). -/
def abandon (s : State) : State := ((toSync s).setShown Shown.closed).setBuf []

/-- Report a DF error or abort (R232): the whole of its effect is the return to SYNC in the same step; nothing is saved
(R231). -/
def raiseDf (o : DfOutcome) (s : State) : Result (State × DfOutcome) := .next (abandon s, o)

/-- Present an Envelope (R37): its registers and its `len` bytes of `MSG_BUF` stay readable; DF is back in SYNC (R150). -/
def present (cls mid : Byte) (len : Half) (s : State) : State :=
  ((toSync s).setShown { cls := some cls, mid := some mid, len := some len }).setBuf (Memory.below s.buf len.toNat)

/-! The dispatcher's tables. -/

/-- The category of a class: the `c` with `CAT_CLASS[c]` equal to it (R201 level 1). -/
def catOf (cfg : Config) (cls : Byte) : Option Nat := cfg.categories.findIdx? fun k => k == cls

/-- The type of category `c` with exactly this triple (R201 level 2, R202). -/
def findType (cfg : Config) (c : Nat) (cls mid : Byte) (n : Nat) : Option Nat :=
  cfg.registry.findIdx? fun r =>
    catOf cfg r.cls == some c && (r.cls == cls && (r.id == mid && r.len.toNat == n))

/-- Levels 1 and 2 of the dispatch (R201): category and type of a triple. -/
def selectType (cfg : Config) (cls mid : Byte) (n : Nat) : Option (Nat × Nat) :=
  match catOf cfg cls with
  | none => none
  | some c =>
    match findType cfg c cls mid n with
    | none => none
    | some t => some (c, t)

end Sys2Proof.Machine
end

