-- ==== Sys2Proof/Machine/Operands.lean ====
section
/-! DEFINITION. The operands the block assembles: the sync comparison value (R98) and the wire image of a frame
(R70, R93, R181). -/

namespace Sys2Proof.Machine

/-- `sr' = {sr[7:0], byte}` (R98). -/
def shiftIn (sr : Half) (byte : Byte) : Half := sr.extractLsb' 0 8 ++ byte

/-- The checksummed bytes of a frame, wire offsets `2 .. 5 + len` (R70, R123, R184): class, id, length low byte, length
high byte, payload. -/
def frameBody (cls id : Byte) (payload : List Byte) : List Byte := cls :: id :: counted16 payload

/-- The wire image with given checksum bytes (R93). -/
def wireBytes (cls id : Byte) (payload : List Byte) (ckA ckB : Byte) : List Byte :=
  sync1 :: sync2 :: (frameBody cls id payload ++ [ckA, ckB])

/-- `frame(cls, id, payload)` (R181): the wire image with the checksum of its body. -/
def frameBytes (cls id : Byte) (payload : List Byte) : List Byte :=
  wireBytes cls id payload (cksum (frameBody cls id payload)).a (cksum (frameBody cls id payload)).b

/-- The payload byte ENC wants at `enc_paddr` (R48, R185), as it stands on its payload input in this cycle. -/
def payloadByte (pdata : Option Byte) : Result Byte :=
  match pdata with
  | some v => .next v
  | none => .refused .payloadSource

/-- `TW` and `CW` (R42): `max(1, ceil(log2(n)))`, the width of an index into a table of `n` rows. -/
def indexWidth (n : Nat) : Nat := max 1 (if n ≤ 1 then 0 else Nat.log2 (n - 1) + 1)

/-- `TW` (R42). -/
def typeWidth (cfg : Config) : Nat := indexWidth cfg.registry.length

/-- `CW` (R42). -/
def catWidth (cfg : Config) : Nat := indexWidth cfg.categories.length

/-- A number as a type index of `TW` bits (R42), `none` where it has no such form: it is then no index of the registry. -/
def typeIndex (cfg : Config) (t : Nat) : Option (BitVec (typeWidth cfg)) :=
  if t < 2 ^ typeWidth cfg then some (BitVec.ofNat (typeWidth cfg) t) else none

/-- A number on wires of a configured width. -/
def onWires (w n : Nat) : Bits := ⟨w, BitVec.ofNat w n⟩

/-- `ENC.phase` (R185). -/
def EncPhase.code : EncPhase → BitVec 4
  | .sync1 => 0#4
  | .sync2 => 1#4
  | .cls => 2#4
  | .id => 3#4
  | .lenLo => 4#4
  | .lenHi => 5#4
  | .payload _ => 6#4
  | .ckA => 7#4
  | .ckB _ => 8#4

/-- `ENC.phase` of the sequencer; 0 when idle (R51). -/
def EncState.phaseCode : EncState → BitVec 4
  | .idle => 0#4
  | .busy job => job.phase.code

/-- `ENC.busy` (R38, R186). -/
def EncState.isBusy : EncState → Bool
  | .idle => false
  | .busy _ => true

/-- The index ENC reads from `MSG_BUF` in its output step, when it re-encodes from there (R49, R60, R185). -/
def EncState.fetches : EncState → Option Half
  | .busy { src := .msgBuf, phase := .payload idx, .. } => some idx
  | _ => none

/-- ENC's payload input in a cycle: `enc_pdata` (R48), or, when it re-encodes, what the read port of `MSG_BUF` gives (R49,
R60). -/
def EncState.pdata (e : EncState) (encPdata rdata : Option Byte) : Option Byte :=
  match e with
  | .busy { src := .msgBuf, .. } => rdata
  | _ => encPdata

/-- The first payload index a job has still to emit (R185). -/
def EncJob.unsent (job : EncJob) : Nat :=
  match job.phase with
  | .payload idx => idx.toNat
  | .ckA => job.len.toNat
  | .ckB _ => job.len.toNat
  | _ => 0

/-- A step from `before` to `after` changed a byte that a re-encoding in progress has still to emit (R185, R271). -/
def sourceChanged (before after : State) : Bool :=
  match after.enc with
  | .busy job =>
    job.src == .msgBuf && after.buf.any fun c =>
      decide (job.unsent ≤ c.1 ∧ c.1 < job.len.toNat) && Memory.read after.buf c.1 != Memory.read before.buf c.1
  | .idle => false

/-- A step that changes the source of a re-encoding in progress is not admitted (R185, U17). -/
def guardSource (before : State) (r : Result State) : Result State :=
  andThen r fun t => if sourceChanged before t then .refused .payloadChanged else .next t

/-- `enc_paddr` (R48, R185): the index wanted, in the payload phase. -/
def EncState.paddr : EncState → Option Half
  | .busy { phase := .payload idx, .. } => some idx
  | _ => none

end Sys2Proof.Machine
end

