-- ==== Sys2Proof/Machine/Flags.lean ====
section
/-! DEFINITION. The outcome computations, which play the part of flags (`10_state.md` R33 to R35): the conditions that
decide an outcome and the numeric codes on the ports. -/

namespace Sys2Proof.Machine

/-- `oversize(len) = (len > MAX_LEN)`, unsigned and strict (R146). -/
def oversize (cfg : Config) (len : Half) : Bool := decide (len.toNat > cfg.maxLen.toNat)

/-- What an oversize length reports (R10, R147, R222). -/
def oversizeOutcome (cfg : Config) (len : Half) : DfOutcome :=
  match cfg.policy with
  | .report => .errOversize len cfg.maxLen
  | .silent => .noOutput

/-- `LEN[t] + 8`, or `|payload| + 8`, exactly, in 17 bits (R128 (e)). -/
def wireLen (len : Half) : BitVec 17 := len.setWidth 17 + 8#17

/-- `cap < need`, unsigned on 17 bits (R128 (e), R183). -/
def lacksCapacity (cap need : BitVec 17) : Bool := decide (cap.toNat < need.toNat)

/-- `df_kind` (R33, R220). -/
def DfOutcome.kind : DfOutcome → BitVec 2
  | .noOutput => 0#2
  | .envelope _ => 1#2
  | .errChecksum => 2#2
  | .errOversize _ _ => 3#2

/-- `df_kind` of a step's events: 0 when no push was performed (R34). -/
def dfKindOf : List DfEvent → BitVec 2
  | [] => 0#2
  | [e] => e.outcome.kind
  | _ :: e :: rest => dfKindOf (e :: rest)

/-- The outcome of the last push of a step, NONE if there was none. -/
def lastOutcome : List DfEvent → DfOutcome
  | [] => .noOutput
  | [e] => e.outcome
  | _ :: e :: rest => lastOutcome (e :: rest)

/-- `df_len` (R47): the Envelope's length, or the declared length of an oversize error. -/
def DfOutcome.lenShown : DfOutcome → Option Half
  | .noOutput => none
  | .envelope env => some (lenField env.msg)
  | .errChecksum => none
  | .errOversize declared _ => some declared

/-- `df_cls` and `df_id` of an Envelope (R47). -/
def DfOutcome.env : DfOutcome → Option Envelope
  | .envelope env => some env
  | _ => none

/-- `dp_kind` (R35, R220): also 0 when no dispatch was performed (R51). -/
def DispOut.kind : DispOut → BitVec 2
  | .idle => 0#2
  | .unrecognized => 0#2
  | .decoded _ _ _ => 1#2
  | .decodeFailed _ _ => 2#2

/-- `dp_hit`, `dp_cat`, `dp_sel` (R49, R201). -/
def DispOut.hit : DispOut → Option (Nat × Nat)
  | .idle => none
  | .unrecognized => none
  | .decoded c t _ => some (c, t)
  | .decodeFailed c t => some (c, t)

/-- `enc_err` (R35, R48). -/
def EncOut.err : EncOut → Bool
  | .errCapacity => true
  | _ => false

/-- `enc_byte` with `enc_valid` (R48, R185). -/
def EncOut.byte : EncOut → Option Byte
  | .emitted byte _ => some byte
  | _ => none

/-- `enc_n` with `enc_last` (R48, R185). -/
def EncOut.count : EncOut → Option (BitVec 17)
  | .emitted _ last => last
  | _ => none

/-- The outcomes of a step's pushes, in order (R152). -/
def outcomes (evs : List DfEvent) : List DfOutcome := evs.map DfEvent.outcome

end Sys2Proof.Machine
end

