-- ==== Sys2Proof/Machine/Checksum.lean ====
section
/-! DEFINITION. The operations of checksum_accumulator (`40_checksum.md` R120 to R122) on the stand-alone instance CK. -/

namespace Sys2Proof.Machine

/-- `CK.PUSH d` (R121): the pair advances, the byte comes back unchanged on `ck_dout`. -/
def execCkPush (d : Byte) (s : State) : Result State := .next ((s.setCk (s.ck.push d)).setOutCk (.pushed d))

/-- `CK.TAKE` (R122): answers the pair before the operation and clears it. -/
def execCkTake (s : State) : Result State := .next ((s.setCk Ck.zero).setOutCk (.taken s.ck.a s.ck.b))

end Sys2Proof.Machine
end

