-- ==== Sys2Proof/Machine/Deframer.lean ====
section
/-! DEFINITION. The operations of binary_deframer_fsm (`41_deframer.md` R140 to R150): `DF.RESET`, the eight step rules,
`DF.PUSH`, and the `DFSTEP` rows. -/

namespace Sys2Proof.Machine

/-- The answer of one push: the state after it and its one outcome (R33, R141). -/
abbrev Pushed := Result (State × DfOutcome)

/-- The checksum push every byte from class to payload goes through (R143 to R148). -/
def pushCkDf (byte : Byte) (s : State) : State := s.setCkDf (s.ckDf.push byte)

/-- `(exp_a, exp_b) <- CK_DF.take()` and entry of CKA (R147, R148). -/
def finishPayload (cls mid : Byte) (len : Half) (s : State) : State :=
  (s.setCkDf Ck.zero).setDf (.cka cls mid len s.ckDf.a s.ckDf.b)

/-- `DF.PUSH@SYNC` (R142). -/
def stepSync (byte : Byte) (sr : Half) (s : State) : Pushed :=
  if shiftIn sr byte = syncWord then .next (s.setDf .cls, .noOutput) else .next (s.setDf (.sync (shiftIn sr byte)), .noOutput)

/-- `DF.PUSH@CLASS` (R143): a cleared accumulator takes the class byte; `df_cls` is overwritten (R37). -/
def stepClass (byte : Byte) (s : State) : Pushed :=
  .next (((s.setCkDf (Ck.zero.push byte)).setDf (.id byte)).setShown { s.shown with cls := none }, .noOutput)

/-- `DF.PUSH@ID` (R144); `df_id` is overwritten (R37). -/
def stepId (byte : Byte) (cls : Byte) (s : State) : Pushed :=
  .next (((pushCkDf byte s).setDf (.lenLsb cls byte)).setShown { s.shown with mid := none }, .noOutput)

/-- `DF.PUSH@LENLSB` (R145); `df_len` is overwritten (R37). -/
def stepLenLsb (byte : Byte) (cls mid : Byte) (s : State) : Pushed :=
  .next (((pushCkDf byte s).setDf (.lenMsb cls mid byte)).setShown { s.shown with len := none }, .noOutput)

/-- `DF.PUSH@LENMSB` (R147): the length is complete, checked before any payload byte (C4); an empty payload goes straight
to CKA (D7). -/
def stepLenMsb (byte : Byte) (cls mid lo : Byte) (s : State) : Pushed :=
  if oversize s.cfg (lenOf lo byte) then raiseDf (oversizeOutcome s.cfg (lenOf lo byte)) (pushCkDf byte s)
  else if lenOf lo byte = 0#16 then .next (finishPayload cls mid 0#16 (pushCkDf byte s), .noOutput)
  else .next ((pushCkDf byte s).setDf (.message cls mid (lenOf lo byte) 0#16), .noOutput)

/-- `DF.PUSH@MESSAGE` (R148). -/
def stepMessage (byte : Byte) (cls mid : Byte) (len cnt : Half) (s : State) : Pushed :=
  andThen (memWrite cnt byte s) fun s =>
    if cnt + 1#16 = len then .next (finishPayload cls mid len (pushCkDf byte s), .noOutput)
    else .next ((pushCkDf byte s).setDf (.message cls mid len (cnt + 1#16)), .noOutput)

/-- `DF.PUSH@CKA` (R149): the byte is not pushed through the checksum. -/
def stepCka (byte : Byte) (cls mid : Byte) (len : Half) (expA expB : Byte) (s : State) : Pushed :=
  if byte = expA then .next (s.setDf (.ckb cls mid len expA expB), .noOutput) else raiseDf .errChecksum s

/-- `DF.PUSH@CKB` (R150): an Envelope or a checksum error, and in both cases SYNC. -/
def stepCkb (byte : Byte) (cls mid : Byte) (len : Half) (expB : Byte) (s : State) : Pushed :=
  if byte = expB then
    andThen (readMsg len s) fun msg =>
      .next (present cls mid len s, .envelope { cls := cls, mid := mid, msg := msg })
  else raiseDf .errChecksum s

/-- One push (R141): the step rule of the state before it (R92). -/
def pushByte (byte : Byte) (s : State) : Pushed :=
  match s.df with
  | .sync sr => stepSync byte sr s
  | .cls => stepClass byte s
  | .id cls => stepId byte cls s
  | .lenLsb cls mid => stepLenLsb byte cls mid s
  | .lenMsb cls mid lo => stepLenMsb byte cls mid lo s
  | .message cls mid len cnt => stepMessage byte cls mid len cnt s
  | .cka cls mid len expA expB => stepCka byte cls mid len expA expB s
  | .ckb cls mid len _ expB => stepCkb byte cls mid len expB s

/-- A push reports its outcome, with what an observer samples (R33, R243). -/
def reportPush (byte : Byte) (s : State) (p : Pushed) : Result State :=
  andThen p fun r => .next (r.1.setOutDf [{ st := s.df.code, byte := byte, outcome := r.2 }])

/-- `DF.RESET` (R140, R52): SYNC, empty shift register, cleared CK_DF; a frame in progress is dropped with no outcome;
every other DF register and `MSG_BUF` lose their values (R51). -/
def execDfReset (s : State) : Result State := .next (((abandon s).setCkDf Ck.zero).setOutDf [])

/-- `DF.PUSH byte` (R141). -/
def execDfPush (byte : Byte) (s : State) : Result State := reportPush byte s (pushByte byte s)

/-- `DF.PUSH@SYNC byte` (R142). The word of a `DFSTEP` row carries `DF.st` itself (R92): with another `DF.st` it cannot
arise. -/
def execDfPushSync (byte : Byte) (s : State) : Result State :=
  match s.df with
  | .sync sr => reportPush byte s (stepSync byte sr s)
  | _ => .refused .stepNotSelected

/-- `DF.PUSH@CLASS byte` (R143). -/
def execDfPushClass (byte : Byte) (s : State) : Result State :=
  match s.df with
  | .cls => reportPush byte s (stepClass byte s)
  | _ => .refused .stepNotSelected

/-- `DF.PUSH@ID byte` (R144). -/
def execDfPushId (byte : Byte) (s : State) : Result State :=
  match s.df with
  | .id cls => reportPush byte s (stepId byte cls s)
  | _ => .refused .stepNotSelected

/-- `DF.PUSH@LENLSB byte` (R145). -/
def execDfPushLenLsb (byte : Byte) (s : State) : Result State :=
  match s.df with
  | .lenLsb cls mid => reportPush byte s (stepLenLsb byte cls mid s)
  | _ => .refused .stepNotSelected

/-- `DF.PUSH@LENMSB byte` (R147). -/
def execDfPushLenMsb (byte : Byte) (s : State) : Result State :=
  match s.df with
  | .lenMsb cls mid lo => reportPush byte s (stepLenMsb byte cls mid lo s)
  | _ => .refused .stepNotSelected

/-- `DF.PUSH@MESSAGE byte` (R148). -/
def execDfPushMessage (byte : Byte) (s : State) : Result State :=
  match s.df with
  | .message cls mid len cnt => reportPush byte s (stepMessage byte cls mid len cnt s)
  | _ => .refused .stepNotSelected

/-- `DF.PUSH@CKA byte` (R149). -/
def execDfPushCka (byte : Byte) (s : State) : Result State :=
  match s.df with
  | .cka cls mid len expA expB => reportPush byte s (stepCka byte cls mid len expA expB s)
  | _ => .refused .stepNotSelected

/-- `DF.PUSH@CKB byte` (R150). -/
def execDfPushCkb (byte : Byte) (s : State) : Result State :=
  match s.df with
  | .ckb cls mid len _ expB => reportPush byte s (stepCkb byte cls mid len expB s)
  | _ => .refused .stepNotSelected

end Sys2Proof.Machine
end

