-- ==== Sys2Proof/Machine/Dispatcher.lean ====
section
/-! DEFINITION. The operation of message_dispatcher_mux (`43_dispatcher.md` R200 to R205). It changes no state but what it
reports (R200, R233). -/

namespace Sys2Proof.Machine

/-- The outcome of the three levels (R201). `decodeAs t` is the answer of type `t`'s decoder: `none` when it fails. -/
def dispatchOutcome (cfg : Config) (cls mid : Byte) (n : Nat) (decodeAs : Nat → Option DecodedValue) : DispOut :=
  match selectType cfg cls mid n with
  | none => .unrecognized
  | some (c, t) =>
    match decodeAs t with
    | none => .decodeFailed c t
    | some v => .decoded c t v

/-- `decode[t]` of the registry (R12, R206). -/
def registryDecode (cfg : Config) (msg : List Byte) (t : Nat) : Option DecodedValue :=
  match cfg.registry[t]? with
  | some r => (Config.decodeValue r.codec msg).map DecodedValue.value
  | none => none

/-- `DISP.DISPATCH (cls, mid, msg)` (R201). Its premise R13 holds of every configuration an instance can have. -/
def execDispDispatch (cls mid : Byte) (msg : List Byte) (s : State) : Result State :=
  .next (s.setOutDp (dispatchOutcome s.cfg cls mid msg.length (registryDecode s.cfg msg)))

/-- `dp_go` at the ports (R49): the length is given, and the external decoder reports failure on `dp_fail`. -/
def dispGo (p : PortsIn) (s : State) : Result State :=
  .next (s.setOutDp (dispatchOutcome s.cfg p.dpCls p.dpId p.dpLen.toNat fun _ =>
    if p.dpFail then none else some .external))

end Sys2Proof.Machine
end

