-- ==== Sys2Proof/Machine/Encoder.lean ====
section
/-! DEFINITION. The operations of message_encoder (`42_encoder.md`): `ENC.FRAME` and `ENC.MSG` as atomic operations (R68,
R181, R183), and the byte-serial emission of the port wrapping (R185, R186). -/

namespace Sys2Proof.Machine

/-- The frame is built and reported: CK_ENC, cleared at the start and taken at the end, is left cleared (R181). -/
def writeFrame (cls id : Byte) (payload : List Byte) (s : State) : State :=
  (s.setEncCk Ck.zero).setOutEnc (.written (wireLen (lenField payload)) (frameBytes cls id payload))

/-- `ENC.FRAME cls, id, payload` (R181). A payload over 65535 bytes cannot be presented (R182); ENC takes no operation
while it emits (R186). -/
def execEncFrame (cls id : Byte) (payload : List Byte) (s : State) : Result State :=
  if s.enc.isBusy then .refused .encBusy
  else if counted payload then .next (writeFrame cls id payload s)
  else .refused .payloadTooLong

/-- The row of a type index of `TW` bits (R42), with the premise `t < NTYPE` of R183. -/
def encRow (t : Nat) (s : State) : Result TypeRow :=
  match typeIndex s.cfg t with
  | none => .refused .badTypeIndex
  | some i =>
    match s.cfg.registry[i.toNat]? with
    | some r => .next r
    | none => .refused .badTypeIndex

/-- `ENC.MSG t, v, cap` (R183): the capacity is checked before any byte is produced; on `ERR_CAPACITY` nothing is written
and CK_ENC keeps its value (R233). -/
def execEncMsg (t : BitVec 32) (v : Value) (cap : BitVec 17) (s : State) : Result State :=
  if s.enc.isBusy then .refused .encBusy
  else
    andThen (encRow t.toNat s) fun r =>
      if lacksCapacity cap (wireLen r.len) then .next (s.setOutEnc .errCapacity)
      else .next (writeFrame r.cls r.id (Config.encodeValue r.codec r.len.toNat v).toList s)

/-! Byte-serial emission. -/

/-- The sequencer starts a frame: operands latched, CK_ENC cleared (R185). The first byte leaves in the next cycle
(assumption 13). -/
def startJob (cls id : Byte) (len : Half) (src : PayloadSrc) (s : State) : State :=
  (s.setEnc (.busy { cls := cls, id := id, len := len, src := src, phase := .sync1 })).setEncCk Ck.zero

/-- `enc_go` with `enc_mode = 0` (R48, R181, R185). -/
def encGoFrame (p : PortsIn) (s : State) : Result State :=
  if s.enc.isBusy then .refused .encBusy else .next (startJob p.encCls p.encId p.encLen p.encSrc s)

/-- The row that `enc_type`, on its `TW` wires, selects (R42, R48, R183). -/
def portRow (t : Bits) (s : State) : Result TypeRow :=
  if t.width = typeWidth s.cfg then encRow t.bits.toNat s else .refused .badTypeIndex

/-- `enc_go` with `enc_mode = 1` (R48, R183, R185): class, id and length from the type's row; the external codec presents
the bytes of `encode[t](v)` on `enc_pdata`. That `enc_src` may name `MSG_BUF` here too is a DESIGN CHOICE (assumption
21). -/
def encGoMsg (p : PortsIn) (s : State) : Result State :=
  if s.enc.isBusy then .refused .encBusy
  else
    andThen (portRow p.encType s) fun r =>
      if lacksCapacity p.encCap (wireLen r.len) then .next (s.setOutEnc .errCapacity)
      else .next (startJob r.cls r.id r.len p.encSrc s)

/-- Emit a byte and go to a phase. -/
def emit (byte : Byte) (job : EncJob) (next : EncPhase) (s : State) : State :=
  (s.setEnc (.busy { job with phase := next })).setOutEnc (.emitted byte none)

/-- Emit a checksummed byte (R185, phases 2 to 6). -/
def emitPush (byte : Byte) (job : EncJob) (next : EncPhase) (s : State) : State :=
  emit byte job next (s.setEncCk (s.encCk.push byte))

/-- The phase after the length high byte: the payload, or checksum byte A for an empty one (R185, phase 5). -/
def afterLen (len : Half) : EncPhase := if len = 0#16 then .ckA else .payload 0#16

/-- The phase after payload byte `idx`: the next one, or checksum byte A (R185, phase 6). -/
def afterPayload (idx len : Half) : EncPhase := if idx.toNat + 1 < len.toNat then .payload (idx + 1#16) else .ckA

/-- One output step of a job, by its phase (R185). -/
def tickJob (pdata : Option Byte) (job : EncJob) (s : State) : Result State :=
  match job.phase with
  | .sync1 => .next (emit sync1 job .sync2 s)
  | .sync2 => .next (emit sync2 job .cls s)
  | .cls => .next (emitPush job.cls job .id s)
  | .id => .next (emitPush job.id job .lenLo s)
  | .lenLo => .next (emitPush (lenLo job.len) job .lenHi s)
  | .lenHi => .next (emitPush (lenHi job.len) job (afterLen job.len) s)
  | .payload idx =>
    andThen (payloadByte pdata) fun byte => .next (emitPush byte job (afterPayload idx job.len) s)
  | .ckA => .next (emit s.encCk.a job (.ckB s.encCk.b) (s.setEncCk Ck.zero))
  | .ckB b => .next (((s.setEncCk Ck.zero).setEnc .idle).setOutEnc (.emitted b (some (wireLen job.len))))

/-- One output step of ENC: nothing when idle. -/
def encTick (pdata : Option Byte) (s : State) : Result State :=
  match s.enc with
  | .idle => .next s
  | .busy job => tickJob pdata job s

end Sys2Proof.Machine
end

