-- ==== Sys2Proof/Machine/Cycle.lean ====
section
/-! DEFINITION. One clock cycle of the port wrapping (`10_state.md` R45 to R49, `30_encoding.md` R91): `rst`, the strobes of
several units at once, the `MSG_BUF` read port, ENC's output step, and the output ports. -/

namespace Sys2Proof.Machine

/-- `rst`: all units in the reset state after the edge, nothing reported (R50, R51, R52, R229); configuration and waiting
requests are the host's. ENC performs no output step in such a cycle, not even during an emission (DESIGN CHOICE,
assumption 19). -/
def resetAll (s : State) : State :=
  { State.reset with cfg := s.cfg, inputs := s.inputs, ports := PortsOut.idle s.cfg.maxLen }

/-- The strobes of a cycle (R91). -/
def strobes (p : PortsIn) : Byte := p.cmd.setWidth 8

/-- Whether the cycle performs this operation: `(cmd & mask) = match` (R91). -/
def selects (p : PortsIn) (op : CmdOp) : Bool := (cmdSelects (strobes p)).contains op

/-- ENC in one cycle: a new frame starts, or the frame in progress emits one byte, or nothing (R185, R186). `rdata` is what
the read port of `MSG_BUF` gives in this cycle. -/
def encUnit (p : PortsIn) (rdata : Option Byte) (s : State) : Result State :=
  if selects p .encFrame then encGoFrame p s
  else if selects p .encMsg then encGoMsg p s
  else encTick (s.enc.pdata p.encPdata rdata) s

/-- DISP in one cycle. -/
def dispUnit (p : PortsIn) (s : State) : Result State :=
  if selects p .dispDispatch then dispGo p s else .next s

/-- CK in one cycle. -/
def ckUnit (p : PortsIn) (s : State) : Result State :=
  if selects p .ckPush then execCkPush p.ckDin s
  else if selects p .ckTake then execCkTake s
  else .next s

/-- DF in one cycle. -/
def dfUnit (p : PortsIn) (s : State) : Result State :=
  if selects p .dfReset then execDfReset s
  else if selects p .dfPush then execDfPush p.dfByte s
  else .next s

/-- `df_rdata` for an index on `df_raddr` (R63, R80): the contents before the edge; a read of an index with no specified
value faults. -/
def readAt (raddr : Option Half) (s : State) : Result (Option Byte) :=
  match raddr with
  | none => .next none
  | some i => andThen (memRead i s) fun v => .next (some v)

/-- The index on `df_raddr` (R47): the host's, or ENC's when it re-encodes from `MSG_BUF` (R60). There is one read port:
two different indices in one cycle are refused (DESIGN CHOICE, assumption 20: the spec does not say who gets it). -/
def portIndex (p : PortsIn) (s : State) : Result (Option Half) :=
  match s.enc.fetches, p.raddr with
  | none, r => .next r
  | some i, none => .next (some i)
  | some i, some r => if i = r then .next (some i) else .refused .readPortTaken

/-- The read port of a cycle without `rst`. -/
def readPort (p : PortsIn) (s : State) : Result (Option Byte) :=
  andThen (portIndex p s) fun i => readAt i s

/-- The units in one cycle. They share no state (R45) but `MSG_BUF`, which ENC reads as it was before the edge (R80),
through the read port. -/
def runUnits (p : PortsIn) (rdata : Option Byte) (s : State) : Result State :=
  andThen (encUnit p rdata s) fun s => andThen (dispUnit p s) fun s => andThen (ckUnit p s) fun s => dfUnit p s

/-- `df_cls` or `df_id` (R47, R37): the Envelope's in its own cycle, else that of the presented Envelope while it is
readable, else no value. -/
def envOr (o : DfOutcome) (field : Envelope → Byte) (presented : Option Byte) : Option Byte :=
  match o with
  | .envelope env => some (field env)
  | _ => presented

/-- `df_len` (R47, R37): the Envelope's or the declared length in its own cycle, else that of the presented Envelope while
it is readable, else no value. -/
def lenOr (o : DfOutcome) (presented : Option Half) : Option Half :=
  match o.lenShown with
  | some n => some n
  | none => presented

/-- The output ports of a cycle (R45): functions of the state before the edge, the inputs, and the outcomes reported. -/
def portsOf (p : PortsIn) (rdata : Option Byte) (before : State) (out : Out) : PortsOut :=
  { ckDout := p.ckDin
    ckA := before.ck.a
    ckB := before.ck.b
    dfKind := dfKindOf out.df
    dfCls := envOr (lastOutcome out.df) Envelope.cls before.shown.cls
    dfId := envOr (lastOutcome out.df) Envelope.mid before.shown.mid
    dfLen := lenOr (lastOutcome out.df) before.shown.len
    dfCap := before.cfg.maxLen
    dfRdata := rdata
    dfState := before.df.code
    encPaddr := before.enc.paddr
    encValid := out.enc.byte.isSome
    encByte := out.enc.byte
    encLast := out.enc.count.isSome
    encN := out.enc.count
    encErr := out.enc.err
    encBusy := before.enc.isBusy
    dpHit := out.dp.hit.isSome
    dpSel := out.dp.hit.map fun h => onWires (typeWidth before.cfg) h.2
    dpCat := out.dp.hit.map fun h => onWires (catWidth before.cfg) h.1
    dpKind := out.dp.kind }

/-- One clock cycle. `rst` overrides every strobe (R229), and no outcome is reported with it; the ports that show the state
before the edge (R46, R47, R48) show it also then, and a read on `df_raddr`, which is no strobe, is served (assumption 19).
Two strobes of one unit are not admitted (R45, R272). -/
def cycle (p : PortsIn) (s : State) : Result State :=
  if p.rst then
    andThen (readAt p.raddr s) fun rdata => .next ((resetAll s).setPorts (portsOf p rdata s Out.idle))
  else if cmdTwoStrobes (strobes p) then .refused .twoStrobes
  else
    andThen (readPort p s) fun rdata =>
      andThen (runUnits p rdata s) fun t => .next (t.setPorts (portsOf p rdata s t.out))

end Sys2Proof.Machine
end

