-- ==== Sys2Proof/Machine/Stream.lean ====
section
/-! DEFINITION. The operations over byte sequences: `DF.BATCH` (R152), the wire frame as DF consumes it (R93, R101), and
`.frame` (R105). -/

namespace Sys2Proof.Machine

/-- `DF.PUSH` of each byte in order, with every push's event (R152). -/
def pushAll (bytes : List Byte) (s : State) : Result (State × List DfEvent) :=
  match bytes with
  | [] => .next (s, [])
  | byte :: rest =>
    andThen (pushByte byte s) fun r =>
      andThen (pushAll rest r.1) fun q =>
        .next (q.1, { st := s.df.code, byte := byte, outcome := r.2 } :: q.2)

/-- A byte sequence goes into DF and the events are reported. -/
def consume (bytes : List Byte) (s : State) : Result State :=
  andThen (pushAll bytes s) fun r => .next (r.1.setOutDf r.2)

/-- `DF.BATCH bytes` (R152). -/
def execDfBatch (bytes : List Byte) (s : State) : Result State := consume bytes s

/-- `FRAME` (R93): the frame's bytes, in wire order, as DF consumes them (assumption 10). -/
def execFrame (cls id : Byte) (payload : List Byte) (ckA ckB : Byte) (s : State) : Result State :=
  if counted payload then consume (wireBytes cls id payload ckA ckB) s else .refused .payloadTooLong

/-- `.frame cls, id, payload` (R105): the bytes `ENC.FRAME` produces, as a byte sequence pushed into DF (assumption 11). -/
def execDotFrame (cls id : Byte) (payload : List Byte) (s : State) : Result State :=
  if counted payload then consume (frameBytes cls id payload) s else .refused .payloadTooLong

end Sys2Proof.Machine
end

