-- ==== Sys2Proof/Machine/Dispatch.lean ====
section
/-! DEFINITION. The meaning of every operation: one arm per constructor of Instr. -/

namespace Sys2Proof.Machine

def exec (i : Instr) (s : State) : Host.Outcome State Fault Refusal :=
  match i with
  | .ckPush d => Sys2Proof.Machine.execCkPush d s
  | .ckTake => Sys2Proof.Machine.execCkTake s
  | .dfReset => Sys2Proof.Machine.execDfReset s
  | .dfPush byte => Sys2Proof.Machine.execDfPush byte s
  | .encFrame cls id payload => Sys2Proof.Machine.execEncFrame cls id payload s
  | .encMsg t v cap => Sys2Proof.Machine.execEncMsg t v cap s
  | .dispDispatch cls mid msg => Sys2Proof.Machine.execDispDispatch cls mid msg s
  | .dfPushSync byte => Sys2Proof.Machine.execDfPushSync byte s
  | .dfPushClass byte => Sys2Proof.Machine.execDfPushClass byte s
  | .dfPushId byte => Sys2Proof.Machine.execDfPushId byte s
  | .dfPushLenLsb byte => Sys2Proof.Machine.execDfPushLenLsb byte s
  | .dfPushLenMsb byte => Sys2Proof.Machine.execDfPushLenMsb byte s
  | .dfPushMessage byte => Sys2Proof.Machine.execDfPushMessage byte s
  | .dfPushCka byte => Sys2Proof.Machine.execDfPushCka byte s
  | .dfPushCkb byte => Sys2Proof.Machine.execDfPushCkb byte s
  | .frame cls id payload ckA ckB => Sys2Proof.Machine.execFrame cls id payload ckA ckB s
  | .dfBatch bytes => Sys2Proof.Machine.execDfBatch bytes s
  | .dotFrame cls id payload => Sys2Proof.Machine.execDotFrame cls id payload s

end Sys2Proof.Machine
end

