-- ==== Sys2Proof/Machine/Fetch.lean ====
section
/-! DEFINITION. How the block takes the host's next request (assumption 9): an operation given as bytes, or one clock
cycle of port inputs. Outcomes of the step before are gone (R34). -/

namespace Sys2Proof.Machine

/-- The state in which a request runs: the request is taken, nothing is reported yet (R34). -/
def taken (rest : List HostInput) (s : State) : State :=
  ((s.setInputs rest).setOut Out.idle).setPorts (PortsOut.idle s.cfg.maxLen)

/-- The bytes after an operation wait, as the next request of the same format. -/
def leave (fmt : Format) (more : List Byte) (rest : List HostInput) : List HostInput :=
  if more = [] then rest else .op fmt more :: rest

/-- The operations of one `CMD` vector. They are of different units and share no state (R45, R91), so their order does not
matter. -/
def execAll (is : List Instr) (s : State) : Result State :=
  match is with
  | [] => .next s
  | i :: is => andThen (exec i s) fun t => execAll is t

/-- Why bytes that name no operation of R90 are refused. -/
def refuseBytes (e : DecodeError) : Refusal :=
  match e with
  | .twoStrobes => .twoStrobes
  | e => .undecodable e

/-- The request at the head of the queue, at the operation level (R18, R68): decode, then the meaning; the bytes after the
operation wait. A `CMD` vector runs every operation it selects, none if it selects none (R91). `WIRE` bytes that are no
whole frame are bytes of the stream like any others, and DF takes each (DESIGN CHOICE, assumptions 10 and 12; R103 makes
them a legal input of DF). -/
def runOp (fmt : Format) (bytes : List Byte) (rest : List HostInput) (s : State) : Result State :=
  match fmt with
  | .cmd =>
    match decodeVector bytes with
    | .ok (is, more) => execAll is (taken (leave .cmd more rest) s)
    | .error e => .refused (refuseBytes e)
  | .wire =>
    match decodeWire bytes with
    | .ok (i, more) => exec i (taken (leave .wire more rest) s)
    | .error _ => exec (.dfBatch bytes) (taken rest s)
  | fmt =>
    match decode fmt bytes with
    | .ok (i, more) => exec i (taken (leave fmt more rest) s)
    | .error e => .refused (refuseBytes e)

/-- One step: the host's next request; with none waiting, a clock cycle with no strobe, in which everything is kept but a
frame being emitted goes on (R185, R244). A request that changes the source of a re-encoding is not admitted (R185). -/
def takeInput (s : State) : Result State :=
  match s.inputs with
  | [] => cycle PortsIn.idle (taken [] s)
  | .op fmt bytes :: rest => guardSource s (runOp fmt bytes rest s)
  | .cycle p :: rest => guardSource s (cycle p (taken rest s))

/-- A DF state with this code, for placing a `DFSTEP` word, which carries `DF.st` itself (R92): every other field zero,
but a declared length of one in MESSAGE (R24: `1 <= len`). -/
def dfOfCode (code : BitVec 3) : DfState :=
  match code.toNat with
  | 0 => .sync 0#16
  | 1 => .cls
  | 2 => .id 0#8
  | 3 => .lenLsb 0#8 0#8
  | 4 => .lenMsb 0#8 0#8 0#8
  | 5 => .message 0#8 0#8 1#16 0#16
  | 6 => .cka 0#8 0#8 0#16 0#8 0#8
  | _ => .ckb 0#8 0#8 0#16 0#8 0#8

/-- DF in a state with this code: as it is if it has it already. -/
def placeDf (code : BitVec 3) (s : State) : State := if s.df.code = code then s else s.setDf (dfOfCode code)

/-- A table word as the next request; a `DFSTEP` word brings its state code (assumption 9). -/
def placeWord (nbits w : Nat) (s : State) : State :=
  match tableFormat nbits with
  | .dfStep =>
    placeDf (BitVec.ofNat 3 (w / 256)) (s.setInputs (.op .dfStep (tableWordBytes nbits w) :: s.inputs))
  | fmt => s.setInputs (.op fmt (tableWordBytes nbits w) :: s.inputs)

end Sys2Proof.Machine
end

