-- ==== Sys2Proof/Machine/Step.lean ====
section
/-! DEFINITION. One step of the block, and the placing of a table word as its next request. -/

namespace Sys2Proof.Machine

/-- One step: the host's next request runs. -/
def step (s : State) : Host.Outcome State Fault Refusal := takeInput s

/-- `s` with the operation of a table word as the next request. -/
def State.withFetchWord (s : State) (nbits w : Nat) : State := placeWord nbits w s

end Sys2Proof.Machine
end

