-- ==== Sys2Proof/Safety.lean ====
section
/-! DEFINITION. The terms the claims are stated in: the invariant of the block, the normative value view of DF
(`10_state.md` R24), and runs of the byte-serial encoder. -/

namespace Sys2Proof.Machine

/-! The invariant. -/

/-- Every index below `n` has a specified value. -/
def bufHolds (m : Memory) (n : Nat) : Prop := ∀ i, i < n → (Memory.read m i).isSome = true

/-- No index at or above `n` has a value: `MSG_BUF` has `n` bytes (R61, R163). -/
def bufWithin (m : Memory) (n : Nat) : Prop := ∀ i, n ≤ i → Memory.read m i = none

/-- What holds of DF's registers in each state (R24, R26, R29, R148): in MESSAGE `cnt < len <= MAX_LEN` and `cnt` bytes
are stored; in CKA and CKB `len <= MAX_LEN` and all `len` bytes are stored. -/
def dfInv (cfg : Config) (m : Memory) : DfState → Prop
  | .sync _ => True
  | .cls => True
  | .id _ => True
  | .lenLsb _ _ => True
  | .lenMsb _ _ _ => True
  | .message _ _ len cnt => cnt.toNat < len.toNat ∧ len.toNat ≤ cfg.maxLen.toNat ∧ bufHolds m cnt.toNat
  | .cka _ _ len _ _ => len.toNat ≤ cfg.maxLen.toNat ∧ bufHolds m len.toNat
  | .ckb _ _ len _ _ => len.toNat ≤ cfg.maxLen.toNat ∧ bufHolds m len.toNat

/-- While a presented Envelope's length is readable, so are its payload bytes (R37). -/
def shownInv (cfg : Config) (m : Memory) (sh : Shown) : Prop :=
  ∀ n, sh.len = some n → n.toNat ≤ cfg.maxLen.toNat ∧ bufHolds m n.toNat

/-- The payload phase of an emission is inside the payload (R185). -/
def phaseInv (len : Half) : EncPhase → Prop
  | .payload idx => idx.toNat < len.toNat
  | .sync1 => True
  | .sync2 => True
  | .cls => True
  | .id => True
  | .lenLo => True
  | .lenHi => True
  | .ckA => True
  | .ckB _ => True

/-- An emission's phase is inside its payload (R185). -/
def encInv : EncState → Prop
  | .idle => True
  | .busy job => phaseInv job.len job.phase

/-- The invariant every step keeps. -/
structure Inv (s : State) : Prop where
  /-- `MSG_BUF` is in canonical form. -/
  wf : Memory.wf s.buf
  /-- `MSG_BUF` has `MAX_LEN` bytes (R61). -/
  within : bufWithin s.buf s.cfg.maxLen.toNat
  df : dfInv s.cfg s.buf s.df
  shown : shownInv s.cfg s.buf s.shown
  enc : encInv s.enc

/-! The normative value view (R24): a tagged sum that carries the message and the checksum themselves. -/

/-- The eight variants of R24's table. -/
inductive DfView where
  | sync (sr : Half)
  | cls
  | id (cls : Byte) (ck : Ck)
  | lenLsb (cls mid : Byte) (ck : Ck)
  | lenMsb (cls mid lenLsb : Byte) (ck : Ck)
  | message (cls mid : Byte) (len : Half) (msg : List Byte) (ck : Ck)
  | cka (cls mid : Byte) (msg : List Byte) (expA expB : Byte)
  | ckb (cls mid : Byte) (msg : List Byte) (expA expB : Byte)
  deriving DecidableEq, Repr

/-- The value a state stands for: `msg[i] = MSG_BUF[i]` for `i < |msg|` (R25); `none` where such a byte has no value. -/
def viewOf (s : State) : Option DfView :=
  match s.df with
  | .sync sr => some (.sync sr)
  | .cls => some .cls
  | .id c => some (.id c s.ckDf)
  | .lenLsb c m => some (.lenLsb c m s.ckDf)
  | .lenMsb c m lo => some (.lenMsb c m lo s.ckDf)
  | .message c m len cnt => (Memory.readFrom s.buf 0 cnt.toNat).map fun msg => .message c m len msg s.ckDf
  | .cka c m len ea eb => (Memory.readFrom s.buf 0 len.toNat).map fun msg => .cka c m msg ea eb
  | .ckb c m len ea eb => (Memory.readFrom s.buf 0 len.toNat).map fun msg => .ckb c m msg ea eb

/-- The end of the payload: the checksum is finalized (R147, R148). -/
def viewFinish (c m : Byte) (msg : List Byte) (ck : Ck) : DfView := .cka c m msg ck.a ck.b

/-- The transition table R151 on values. -/
def viewPush (cfg : Config) (byte : Byte) : DfView → DfView × DfOutcome
  | .sync sr => if shiftIn sr byte = syncWord then (.cls, .noOutput) else (.sync (shiftIn sr byte), .noOutput)
  | .cls => (.id byte (Ck.zero.push byte), .noOutput)
  | .id c ck => (.lenLsb c byte (ck.push byte), .noOutput)
  | .lenLsb c m ck => (.lenMsb c m byte (ck.push byte), .noOutput)
  | .lenMsb c m lo ck =>
    if (lenOf lo byte).toNat > cfg.maxLen.toNat then (.sync 0#16, oversizeOutcome cfg (lenOf lo byte))
    else if (lenOf lo byte).toNat = 0 then (viewFinish c m [] (ck.push byte), .noOutput)
    else (.message c m (lenOf lo byte) [] (ck.push byte), .noOutput)
  | .message c m len msg ck =>
    if msg.length + 1 = len.toNat then (viewFinish c m (msg ++ [byte]) (ck.push byte), .noOutput)
    else (.message c m len (msg ++ [byte]) (ck.push byte), .noOutput)
  | .cka c m msg ea eb => if byte = ea then (.ckb c m msg ea eb, .noOutput) else (.sync 0#16, .errChecksum)
  | .ckb c m msg _ eb =>
    if byte = eb then (.sync 0#16, .envelope { cls := c, mid := m, msg := msg }) else (.sync 0#16, .errChecksum)

/-! Words for DF's behaviour. -/

/-- DF is in its initial state (R50, R153). -/
abbrev inInitialSync (s : State) : Prop := s.df = .sync 0x0000#16

/-- DF is searching for the sync word. -/
def searching (s : State) : Prop := ∃ sr, s.df = .sync sr

/-- No `0xB5` is immediately followed by `0x62` (R160). -/
def noSyncWord : List Byte → Prop
  | [] => True
  | [_] => True
  | x :: y :: rest => ¬(x = sync1 ∧ y = sync2) ∧ noSyncWord (y :: rest)

/-- What a successful walk over a frame reports: NONE for all bytes but the last, then the Envelope (R158, R159). -/
def frameOutcomes (cls id : Byte) (payload : List Byte) : List DfOutcome :=
  List.replicate (payload.length + 7) .noOutput ++ [.envelope { cls := cls, mid := id, msg := payload }]

/-- The push of `b` in state `s` ended a frame walk: an Envelope, a checksum error, or a declared length over the ceiling
whether or not it is reported (R153). -/
def endsWalk (s : State) (b : Byte) (o : DfOutcome) : Prop :=
  o ≠ .noOutput ∨ ∃ c m lo, s.df = .lenMsb c m lo ∧ lo.toNat + 256 * b.toNat > s.cfg.maxLen.toNat

/-! The units (R1). -/

/-- The four units. -/
inductive UnitName where
  | ck
  | df
  | enc
  | disp
  deriving DecidableEq, Repr

/-- The unit an operation acts on (R90); the byte-sequence operations act on DF. -/
def unitOf : Instr → UnitName
  | .ckPush _ => .ck
  | .ckTake => .ck
  | .dfReset => .df
  | .dfPush _ => .df
  | .encFrame _ _ _ => .enc
  | .encMsg _ _ _ => .enc
  | .dispDispatch _ _ _ => .disp
  | .dfPushSync _ => .df
  | .dfPushClass _ => .df
  | .dfPushId _ => .df
  | .dfPushLenLsb _ => .df
  | .dfPushLenMsb _ => .df
  | .dfPushMessage _ => .df
  | .dfPushCka _ => .df
  | .dfPushCkb _ => .df
  | .frame _ _ _ _ _ => .df
  | .dfBatch _ => .df
  | .dotFrame _ _ _ => .df

/-- CK's state and report are unchanged. -/
def keepsCk (s t : State) : Prop := t.ck = s.ck ∧ t.out.ck = s.out.ck

/-- DF's state and report are unchanged. -/
def keepsDf (s t : State) : Prop :=
  t.df = s.df ∧ t.ckDf = s.ckDf ∧ t.buf = s.buf ∧ t.shown = s.shown ∧ t.out.df = s.out.df

/-- ENC's state and report are unchanged. -/
def keepsEnc (s t : State) : Prop := t.enc = s.enc ∧ t.encCk = s.encCk ∧ t.out.enc = s.out.enc

/-- DISP's report is unchanged (it has no state, R41). -/
def keepsDisp (s t : State) : Prop := t.out.dp = s.out.dp

/-! Runs of the byte-serial encoder. -/

/-- `k` steps, with what ENC reported in each. -/
def encRun : Nat → State → Result (State × List EncOut)
  | 0, s => .next (s, [])
  | k + 1, s =>
    andThen (step s) fun t => andThen (encRun k t) fun r => .next (r.1, t.out.enc :: r.2)

/-- What the emission of a frame reports (R185): each wire byte in turn, `enc_last` and `enc_n` on the last. -/
def emission (bytes : List Byte) : List EncOut :=
  (bytes.dropLast.map fun b => EncOut.emitted b none) ++
    (bytes.getLast?.map fun b => EncOut.emitted b (some (BitVec.ofNat 17 bytes.length))).toList

end Sys2Proof.Machine
end

