-- ==== Sys2Proof/Certificates/Slice0/Obligations.lean ====
section
/-! DEFINITION. The statements for the provers, from the numbered rules of spec/. -/

open Sys2Proof Sys2Proof.Machine

/-! ### Encodings -/

/-- Words written out from R91, R92, R93 and R105 decode to the operations they stand for; a vector of several units to
theirs, and a vector that selects nothing to none. -/
def Obligations.WordsOfTheSpecDecode : Prop :=
  decode .cmd [0x01, 0x05] = .ok (.ckPush 0x05, []) ∧
  decode .cmd [0x02] = .ok (.ckTake, []) ∧
  decode .cmd [0x04] = .ok (.dfReset, []) ∧
  decode .cmd [0x08, 0xB5] = .ok (.dfPush 0xB5, []) ∧
  decode .cmd [0x10, 0x05, 0x01, 0x01, 0x00, 0x06] = .ok (.encFrame 0x05 0x01 [0x06], []) ∧
  decode .cmd [0x40, 0x05, 0x01, 0x02, 0x00, 0x06, 0x01] = .ok (.dispDispatch 0x05 0x01 [0x06, 0x01], []) ∧
  decodeVector [0x49, 0x07, 0xB5, 0x05, 0x01, 0x00, 0x00] =
    .ok ([.ckPush 0x07, .dfPush 0xB5, .dispDispatch 0x05 0x01 []], []) ∧
  decodeVector [0x00] = .ok ([], []) ∧ decodeVector [0x20] = .ok ([], []) ∧
  decode .dfStep [0xB5, 0x00] = .ok (.dfPushSync 0xB5, []) ∧
  decode .dfStep [0x26, 0x07] = .ok (.dfPushCkb 0x26, []) ∧
  decode .wire [0xB5, 0x62, 0x05, 0x01, 0x01, 0x00, 0x06, 0x0D, 0x26] = .ok (.frame 0x05 0x01 [0x06] 0x0D 0x26, [])

/-- Every operation that can be presented is read back from its own bytes. -/
def Obligations.DecodeOfEncodeIsTheOperation : Prop :=
  ∀ i : Instr, i.WellFormed → decode i.format (encode i) = .ok (i, [])

/-- Whatever bytes are decoded, the operation read can be presented and belongs to the format it was read in. -/
def Obligations.DecodedOperationsAreWellFormed : Prop :=
  ∀ (fmt : Format) (bs : List Byte) (i : Instr) (rest : List Byte),
    decode fmt bs = .ok (i, rest) → i.WellFormed ∧ i.format = fmt

/-- R91, R45, R272: each unit decodes only its own bits of the command vector; two strobes of one unit are given no meaning,
neither as an operation nor in a clock cycle. -/
def Obligations.CommandVectorSelectsByUnit : Prop :=
  (∀ p : PortsIn,
    (selects p .ckPush = true ↔ p.cmd &&& 0x03 = 0x01) ∧
    (selects p .ckTake = true ↔ p.cmd &&& 0x03 = 0x02) ∧
    (selects p .dfReset = true ↔ p.cmd &&& 0x0C = 0x04) ∧
    (selects p .dfPush = true ↔ p.cmd &&& 0x0C = 0x08) ∧
    (selects p .encFrame = true ↔ p.cmd &&& 0x30 = 0x10) ∧
    (selects p .encMsg = true ↔ p.cmd &&& 0x30 = 0x30) ∧
    (selects p .dispDispatch = true ↔ p.cmd &&& 0x40 = 0x40)) ∧
  (∀ (c : Byte) (rest : List Byte), c &&& 0x80 = 0 → (c &&& 0x03 = 0x03 ∨ c &&& 0x0C = 0x0C) →
    decode .cmd (c :: rest) = .error .twoStrobes) ∧
  (∀ (p : PortsIn) (s : State), p.rst = false → (p.cmd &&& 0x03 = 0x03 ∨ p.cmd &&& 0x0C = 0x0C) →
    cycle p s = .refused .twoStrobes)

/-! ### The step -/

/-- A step runs the operation its next request decodes to, in the state with that request taken, the bytes after the
operation waiting and nothing reported yet (the request queue is the model's own field, assumption 9; the idle output ports
are assumption 8). Around it stands only the guard of a re-encoding from `MSG_BUF` (R185, assumption 7). R91: a vector runs
every operation it selects; the order of their operand bytes is assumption 12. That wire bytes which are no whole frame are
pushed into DF is the model's choice (assumptions 10, 12), since R103 makes every byte sequence a legal input of DF. -/
def Obligations.StepRunsTheDecodedOperation : Prop :=
  ∀ (s : State) (fmt : Format) (bytes : List Byte) (rest : List HostInput), s.inputs = .op fmt bytes :: rest →
    (∀ (i : Instr) (more : List Byte), decode fmt bytes = .ok (i, more) →
      step s = guardSource s (exec i { s with
        inputs := if more = [] then rest else .op fmt more :: rest
        out := Out.idle, ports := PortsOut.idle s.cfg.maxLen }) ∧
      ((∀ job, s.enc = .busy job → job.src = .port) →
        step s = exec i { s with
          inputs := if more = [] then rest else .op fmt more :: rest
          out := Out.idle, ports := PortsOut.idle s.cfg.maxLen })) ∧
    (∀ (is : List Instr) (more : List Byte), fmt = .cmd → decodeVector bytes = .ok (is, more) →
      step s = guardSource s (execAll is { s with
        inputs := if more = [] then rest else .op .cmd more :: rest
        out := Out.idle, ports := PortsOut.idle s.cfg.maxLen })) ∧
    (∀ e : DecodeError, fmt = .wire → decode .wire bytes = .error e →
      step s = guardSource s (exec (.dfBatch bytes)
        { s with inputs := rest, out := Out.idle, ports := PortsOut.idle s.cfg.maxLen }))

/-- A step runs the clock cycle its next request gives, and with no request a cycle with no strobe (assumption 9; the idle
output ports it starts from are assumption 8). Around it stands only the guard of a re-encoding from `MSG_BUF` (R185, assumption 7), which without `df_push` lets everything
through. -/
def Obligations.StepRunsTheNextCycle : Prop :=
  (∀ (s : State) (p : PortsIn) (rest : List HostInput), s.inputs = .cycle p :: rest →
    step s = guardSource s
      (cycle p { s with inputs := rest, out := Out.idle, ports := PortsOut.idle s.cfg.maxLen }) ∧
    (p.cmd &&& 0x08 = 0 →
      step s = cycle p { s with inputs := rest, out := Out.idle, ports := PortsOut.idle s.cfg.maxLen })) ∧
  (∀ s : State, s.inputs = [] →
    step s = cycle PortsIn.idle { s with inputs := [], out := Out.idle, ports := PortsOut.idle s.cfg.maxLen })

/-- R91, R34, R244: with no strobe and no frame being emitted nothing changes, and the outcome ports show nothing. -/
def Obligations.IdleStepKeepsAllState : Prop :=
  ∀ s : State, s.inputs = [] → s.enc = .idle →
    ∃ t, step s = .next t ∧ t = { s with out := Out.idle, ports := t.ports } ∧
      t.ports.dfKind = 0 ∧ t.ports.encValid = false ∧ t.ports.encErr = false ∧ t.ports.encBusy = false ∧
      t.ports.dpKind = 0 ∧ t.ports.dpHit = false

/-- R34: outcomes are reported in the step that produces them and nowhere else. -/
def Obligations.OutcomesAreNotSticky : Prop :=
  ∀ (s : State) (fmt : Format) (bytes : List Byte) (rest : List HostInput) (i : Instr) (more : List Byte) (t : State),
    s.inputs = .op fmt bytes :: rest → decode fmt bytes = .ok (i, more) → step s = .next t →
    (unitOf i ≠ .ck → t.out.ck = .idle) ∧ (unitOf i ≠ .df → t.out.df = []) ∧
    (unitOf i ≠ .enc → t.out.enc = .idle) ∧ (unitOf i ≠ .disp → t.out.dp = .idle)

/-! ### Reset -/

/-- R50: the state after reset, whether by construction or by `rst = 1` at a clock edge. -/
def Obligations.ResetLeavesTheSpecsValues : Prop :=
  ∀ r : State,
    (r = State.reset ∨
      (∃ (maxLen : Nat) (policy : OversizePolicy) (categories : List Byte) (registry : List TypeRow),
        construct maxLen policy categories registry = .next r) ∨
      ∃ (s : State) (p : PortsIn) (rest : List HostInput),
        s.inputs = .cycle p :: rest ∧ p.rst = true ∧ step s = .next r) →
    r.df.code = 0 ∧ r.df = .sync 0x0000 ∧ r.ck.a = 0x00 ∧ r.ck.b = 0x00 ∧ r.ckDf.a = 0x00 ∧ r.ckDf.b = 0x00 ∧
    r.encCk.a = 0x00 ∧ r.encCk.b = 0x00

/-- R51, R229: `rst` overrides every strobe: no outcome is reported, ENC is idle afterwards with `phase = 0`, and no
register or byte of `MSG_BUF` has a readable value. In that cycle the ports of R46 to R48 show the state before the edge
and a read on `df_raddr` is served, or faults as R63 asks; that no byte is emitted in it is the model's choice (assumption
19). The outputs with no strobe after it are those of R51. The configuration is kept. -/
def Obligations.RstOverridesEveryStrobe : Prop :=
  ∀ (s : State) (p : PortsIn) (rest : List HostInput), s.inputs = .cycle p :: rest → p.rst = true →
    (∀ k : Half, p.raddr = some k → Memory.read s.buf k.toNat = none → step s = .fault .bufUnspecified) ∧
    ((∀ k : Half, p.raddr = some k → (Memory.read s.buf k.toNat).isSome = true) →
      ∃ t, step s = .next t ∧ t.cfg = s.cfg ∧ t.inputs = rest ∧ t.enc.isBusy = false ∧ t.enc.phaseCode = 0 ∧
        t.out = Out.idle ∧ regCls t = none ∧ regMid t = none ∧ regLen t = none ∧
        (∀ a, Memory.read t.buf a = none) ∧
        t.ports.dfKind = 0 ∧ t.ports.encValid = false ∧ t.ports.encErr = false ∧ t.ports.dpKind = 0 ∧
        t.ports.dpHit = false ∧
        t.ports.ckDout = p.ckDin ∧ t.ports.ckA = s.ck.a ∧ t.ports.ckB = s.ck.b ∧ t.ports.dfState = s.df.code ∧
        t.ports.encBusy = s.enc.isBusy ∧ (∀ k : Half, p.raddr = some k → t.ports.dfRdata = Memory.read s.buf k.toNat) ∧
        ∃ u, cycle PortsIn.idle t = .next u ∧ u = { t with ports := u.ports } ∧ u.ports.dfKind = 0 ∧
          u.ports.encValid = false ∧ u.ports.encErr = false ∧ u.ports.encBusy = false ∧ u.ports.dpKind = 0 ∧
          u.ports.dpHit = false)

/-- R52, R140: `DF.RESET` gives DF its reset state with no outcome and touches no other unit; that no other DF register
and no byte of `MSG_BUF` stays readable is R51. -/
def Obligations.DfResetRestoresDfAlone : Prop :=
  ∀ s : State, ∃ t, exec .dfReset s = .next t ∧
    t.df = .sync 0x0000 ∧ t.ckDf = { a := 0x00, b := 0x00 } ∧ t.out.df = [] ∧
    t.ck = s.ck ∧ t.encCk = s.encCk ∧ t.enc = s.enc ∧
    t.cfg = s.cfg ∧ t.ports = s.ports ∧ t.inputs = s.inputs ∧
    t.out.ck = s.out.ck ∧ t.out.enc = s.out.enc ∧ t.out.dp = s.out.dp ∧
    regCls t = none ∧ regMid t = none ∧ regLen t = none ∧ ∀ a, Memory.read t.buf a = none

/-! ### checksum_accumulator -/

/-- R121, R127: `a` and then `b` advance modulo 256, `b` by the updated `a`; the byte comes back unchanged; nothing else
changes. -/
def Obligations.CkPushSumsModulo256 : Prop :=
  ∀ (d : Byte) (s : State), ∃ a b : Byte,
    a.toNat = (s.ck.a.toNat + d.toNat) % 256 ∧ b.toNat = (s.ck.b.toNat + a.toNat) % 256 ∧
    exec (.ckPush d) s = .next { s with ck := { a := a, b := b }, out := { s.out with ck := .pushed d } }

/-- R122: the pair comes back and the accumulator is cleared; a second take answers `(0, 0)`; nothing else changes. -/
def Obligations.CkTakeAnswersAndClears : Prop :=
  ∀ s : State,
    exec .ckTake s =
      .next { s with ck := { a := 0x00, b := 0x00 }, out := { s.out with ck := .taken s.ck.a s.ck.b } } ∧
    exec .ckTake { s with ck := { a := 0x00, b := 0x00 } } =
      .next { s with ck := { a := 0x00, b := 0x00 }, out := { s.out with ck := .taken 0x00 0x00 } }

/-- R123, R22: the checksum of a byte sequence: what `CK.PUSH` of its bytes on a cleared accumulator builds up and
`CK.TAKE` answers, by recursion and in closed form. -/
def Obligations.ChecksumHasTheClosedForm : Prop :=
  (∀ (st : State) (s : List Byte), st.ck = cksum s →
    (∀ d : Byte, ∃ t, exec (.ckPush d) st = .next t ∧ t.ck = cksum (s ++ [d])) ∧
    ∃ t, exec .ckTake st = .next t ∧ t.out.ck = .taken (cksum s).a (cksum s).b ∧ t.ck = cksum []) ∧
  cksum [] = { a := 0x00, b := 0x00 } ∧
  (∀ (s : List Byte) (d : Byte), cksum (s ++ [d]) = { a := (cksum s).a + d, b := (cksum s).b + ((cksum s).a + d) }) ∧
  (∀ s : List Byte,
    (cksum s).a.toNat = (s.map BitVec.toNat).sum % 256 ∧
    (cksum s).b.toNat = (s.mapIdx fun i d => (s.length - i) * d.toNat).sum % 256)

/-- R124: the checksum of some sequences of every length from three on collides; of one or two bytes it determines them;
`a` does not depend on the order, `b` does. -/
def Obligations.ChecksumCollidesFromThreeBytesOn : Prop :=
  (∀ (x y z : Byte) (rest : List Byte),
    cksum (x :: y :: z :: rest) = cksum ((x + 1) :: (y - 2) :: (z + 1) :: rest) ∧
    x :: y :: z :: rest ≠ (x + 1) :: (y - 2) :: (z + 1) :: rest) ∧
  (∀ s t : List Byte, s.length = t.length → s.length ≤ 2 → cksum s = cksum t → s = t) ∧
  (∀ s t : List Byte, s.Perm t → (cksum s).a = (cksum t).a) ∧
  (∃ s t : List Byte, s.Perm t ∧ (cksum s).b ≠ (cksum t).b)

/-! ### The step rules of DF. Each holds of `DF.PUSH` and of the `DFSTEP` row. -/

/-- R142: the shift register takes the byte; the sync word starts a frame; the outcome is NONE. -/
def Obligations.SyncStepSearchesForTheSyncWord : Prop :=
  ∀ (s : State) (sr : Half) (b : Byte), s.df = .sync sr → ∀ i ∈ [Instr.dfPush b, Instr.dfPushSync b],
    exec i s = .next { s with
      df := if sr.toNat % 256 = 0xB5 ∧ b = 0x62 then .cls else .sync (BitVec.ofNat 16 (sr.toNat % 256 * 256 + b.toNat))
      out := { s.out with df := [{ st := 0, byte := b, outcome := .noOutput }] } }

/-- R143: the class byte is kept and starts a fresh checksum. -/
def Obligations.ClassStepSeedsTheChecksum : Prop :=
  ∀ (s : State) (b : Byte), s.df = .cls → ∀ i ∈ [Instr.dfPush b, Instr.dfPushClass b],
    exec i s = .next { s with
      df := .id b, ckDf := { a := b, b := b }, shown := { s.shown with cls := none }
      out := { s.out with df := [{ st := 1, byte := b, outcome := .noOutput }] } }

/-- R144: the id byte is kept and pushed through the checksum. -/
def Obligations.IdStepKeepsTheId : Prop :=
  ∀ (s : State) (c b : Byte), s.df = .id c → ∀ i ∈ [Instr.dfPush b, Instr.dfPushId b],
    exec i s = .next { s with
      df := .lenLsb c b, ckDf := { a := s.ckDf.a + b, b := s.ckDf.b + (s.ckDf.a + b) }
      shown := { s.shown with mid := none }
      out := { s.out with df := [{ st := 2, byte := b, outcome := .noOutput }] } }

/-- R145: the low length byte is kept and pushed; no length check is made here. -/
def Obligations.LenLsbStepKeepsTheLowByte : Prop :=
  ∀ (s : State) (c m b : Byte), s.df = .lenLsb c m → ∀ i ∈ [Instr.dfPush b, Instr.dfPushLenLsb b],
    exec i s = .next { s with
      df := .lenMsb c m b, ckDf := { a := s.ckDf.a + b, b := s.ckDf.b + (s.ckDf.a + b) }
      shown := { s.shown with len := none }
      out := { s.out with df := [{ st := 3, byte := b, outcome := .noOutput }] } }

/-- R147, R146, R10, R97: the length is `256 * byte + len[7:0]`; over the ceiling the frame is abandoned, reported or not
by the policy; zero finalises the checksum and goes to CKA; any other goes to MESSAGE with `cnt = 0`. The last clause is the
error on the output ports. After the abort no byte of `MSG_BUF` and no field of an earlier Envelope stays readable: under
REPORT that is R26, under SILENT assumption 6; the value that stays in CK_DF then is assumption 4. -/
def Obligations.LenMsbStepChecksTheLength : Prop :=
  ∀ (s : State) (c m lo b : Byte), s.df = .lenMsb c m lo →
    (∀ i ∈ [Instr.dfPush b, Instr.dfPushLenMsb b],
    (256 * b.toNat + lo.toNat > s.cfg.maxLen.toNat →
      exec i s = .next { s with
        df := .sync 0x0000, ckDf := s.ckDf.push b, buf := [], shown := { cls := none, mid := none, len := none }
        out := { s.out with df := [{ st := 4, byte := b, outcome :=
          if s.cfg.policy = .report then .errOversize (BitVec.ofNat 16 (256 * b.toNat + lo.toNat)) s.cfg.maxLen
          else .noOutput }] } }) ∧
    (256 * b.toNat + lo.toNat ≤ s.cfg.maxLen.toNat → 256 * b.toNat + lo.toNat = 0 →
      exec i s = .next { s with
        df := .cka c m 0 (s.ckDf.push b).a (s.ckDf.push b).b, ckDf := { a := 0x00, b := 0x00 }
        out := { s.out with df := [{ st := 4, byte := b, outcome := .noOutput }] } }) ∧
    (256 * b.toNat + lo.toNat ≤ s.cfg.maxLen.toNat → 256 * b.toNat + lo.toNat ≠ 0 →
      exec i s = .next { s with
        df := .message c m (BitVec.ofNat 16 (256 * b.toNat + lo.toNat)) 0, ckDf := s.ckDf.push b
        out := { s.out with df := [{ st := 4, byte := b, outcome := .noOutput }] } })) ∧
    (256 * b.toNat + lo.toNat > s.cfg.maxLen.toNat → s.cfg.policy = .report → s.enc = .idle →
      ∀ p : PortsIn, p.rst = false → p.raddr = none → p.cmd = 0x08 → p.dfByte = b →
        ∃ t, cycle p s = .next t ∧ t.ports.dfKind = 3 ∧ t.ports.dfCap = s.cfg.maxLen ∧
          t.ports.dfLen = some (BitVec.ofNat 16 (256 * b.toNat + lo.toNat)))

/-- R148: the byte is stored at `MSG_BUF[cnt]` and pushed; the last one finalises the checksum and goes to CKA. Every other
byte of `MSG_BUF` is unchanged. -/
def Obligations.MessageStepStoresOneByte : Prop :=
  ∀ (s : State) (c m : Byte) (len cnt : Half) (b : Byte), s.df = .message c m len cnt →
    cnt.toNat < len.toNat → len.toNat ≤ s.cfg.maxLen.toNat → ∀ i ∈ [Instr.dfPush b, Instr.dfPushMessage b],
    ∃ t, exec i s = .next t ∧
      Memory.read t.buf cnt.toNat = some b ∧ (∀ a, a ≠ cnt.toNat → Memory.read t.buf a = Memory.read s.buf a) ∧
      t = { s with
        buf := t.buf
        df := if cnt.toNat + 1 = len.toNat then .cka c m len (s.ckDf.push b).a (s.ckDf.push b).b
              else .message c m len (BitVec.ofNat 16 (cnt.toNat + 1))
        ckDf := if cnt.toNat + 1 = len.toNat then { a := 0x00, b := 0x00 } else s.ckDf.push b
        out := { s.out with df := [{ st := 5, byte := b, outcome := .noOutput }] } }

/-- R149, R232: checksum byte A is compared, not pushed; a mismatch is an error and the return to SYNC. That no byte of
`MSG_BUF` stays readable after the error is R26 and R231. -/
def Obligations.CkaStepComparesByteA : Prop :=
  ∀ (s : State) (c m : Byte) (len : Half) (ea eb b : Byte), s.df = .cka c m len ea eb →
    ∀ i ∈ [Instr.dfPush b, Instr.dfPushCka b],
    (b = ea → exec i s = .next { s with
      df := .ckb c m len ea eb, out := { s.out with df := [{ st := 6, byte := b, outcome := .noOutput }] } }) ∧
    (b ≠ ea → exec i s = .next { s with
      df := .sync 0x0000, buf := [], shown := { cls := none, mid := none, len := none }
      out := { s.out with df := [{ st := 6, byte := b, outcome := .errChecksum }] } })

/-- R150, R37: checksum byte B decides between the Envelope, whose message is `MSG_BUF[0 .. len-1]`, and an error; in both
cases DF is back in SYNC. After the Envelope its registers and message bytes, and no other, are readable. -/
def Obligations.CkbStepEmitsTheEnvelope : Prop :=
  ∀ (s : State) (c m : Byte) (len : Half) (ea eb b : Byte), s.df = .ckb c m len ea eb →
    ∀ i ∈ [Instr.dfPush b, Instr.dfPushCkb b],
    (b = eb → bufHolds s.buf len.toNat → ∃ (t : State) (msg : List Byte), exec i s = .next t ∧
      msg.length = len.toNat ∧ (∀ k, k < len.toNat → Memory.read s.buf k = msg[k]?) ∧
      (∀ k, Memory.read t.buf k = msg[k]?) ∧
      t = { s with
        df := .sync 0x0000, buf := t.buf, shown := { cls := some c, mid := some m, len := some len }
        out := { s.out with df := [{ st := 7, byte := b,
                                     outcome := .envelope { cls := c, mid := m, msg := msg } }] } }) ∧
    (b ≠ eb → exec i s = .next { s with
      df := .sync 0x0000, buf := [], shown := { cls := none, mid := none, len := none }
      out := { s.out with df := [{ st := 7, byte := b, outcome := .errChecksum }] } })

/-- R92, R106: `DF.st` alone decides the step rule: a step word runs as `DF.PUSH` in the state of its code, and is given no
meaning in another. -/
def Obligations.StateCodeSelectsTheStepRule : Prop :=
  ∀ (code : BitVec 3) (b : Byte) (s : State),
    (s.df.code = code → exec (stepOfCode code b) s = exec (.dfPush b) s) ∧
    (s.df.code ≠ code → exec (stepOfCode code b) s = .refused .stepNotSelected)

/-! ### DF as a whole -/

/-- R141: a push always completes, with exactly one outcome, and keeps the invariant. -/
def Obligations.PushAlwaysCompletesWithOneOutcome : Prop :=
  ∀ (s : State) (b : Byte), Inv s →
    ∃ (t : State) (o : DfOutcome), exec (.dfPush b) s = .next t ∧
      t.out.df = [{ st := s.df.code, byte := b, outcome := o }] ∧ Inv t

/-- R162: which step gives which outcome. -/
def Obligations.OutcomesComeFromTheirSteps : Prop :=
  ∀ (s t : State) (b : Byte) (e : DfEvent), exec (.dfPush b) s = .next t → t.out.df = [e] →
    (∀ env, e.outcome = .envelope env → s.df.code = 7) ∧
    (e.outcome = .errChecksum → s.df.code = 6 ∨ s.df.code = 7) ∧
    (∀ d k, e.outcome = .errOversize d k → s.df.code = 4 ∧ s.cfg.policy = .report) ∧
    (s.df.code = 0 ∨ s.df.code = 1 ∨ s.df.code = 2 ∨ s.df.code = 3 ∨ s.df.code = 5 → e.outcome = .noOutput)

/-- R162: the earliest position after reset at which each outcome can stand, and that it can stand there. -/
def Obligations.EarliestOutcomesAfterReset : Prop :=
  ∀ s : State, Inv s → inInitialSync s →
    (∀ (bytes : List Byte) (t : State), exec (.dfBatch bytes) s = .next t →
      ∀ (k : Nat) (o : DfOutcome), (outcomes t.out.df)[k]? = some o →
        (∀ env, o = .envelope env → 7 ≤ k) ∧ (o = .errChecksum → 6 ≤ k) ∧ (∀ d c, o = .errOversize d c → 5 ≤ k)) ∧
    (∃ t, exec (.dfBatch [0xB5, 0x62, 0, 0, 0, 0, 0, 0]) s = .next t ∧
      (outcomes t.out.df)[7]? = some (.envelope { cls := 0, mid := 0, msg := [] })) ∧
    (∃ t, exec (.dfBatch [0xB5, 0x62, 0, 0, 0, 0, 1]) s = .next t ∧ (outcomes t.out.df)[6]? = some .errChecksum) ∧
    (s.cfg.policy = .report → s.cfg.maxLen.toNat < 65535 →
      ∃ t, exec (.dfBatch [0xB5, 0x62, 0, 0, 0xFF, 0xFF]) s = .next t ∧
        (outcomes t.out.df)[5]? = some (.errOversize 0xFFFF s.cfg.maxLen))

/-- R153: after any terminal outcome DF is in the initial SYNC state, and everything it does from there is what it does
after a reset. -/
def Obligations.AfterATerminalOutcomeDfActsAsReset : Prop :=
  ∀ (s t : State) (b : Byte) (e : DfEvent), Inv s → exec (.dfPush b) s = .next t → t.out.df = [e] →
    endsWalk s b e.outcome →
    inInitialSync t ∧
    ∀ bytes : List Byte, ∃ r u v : State, exec .dfReset t = .next r ∧ exec (.dfBatch bytes) t = .next u ∧
      exec (.dfBatch bytes) r = .next v ∧ outcomes u.out.df = outcomes v.out.df ∧ u.df = v.df

/-- R154: the byte that ends a walk is not examined as a sync byte: a `0x62` after it does not start a frame. -/
def Obligations.EndingByteIsNotASyncByte : Prop :=
  ∀ (s t : State) (b : Byte) (e : DfEvent), exec (.dfPush b) s = .next t → t.out.df = [e] → endsWalk s b e.outcome →
    ∃ u, exec (.dfPush 0x62) t = .next u ∧ u.df = .sync 0x0062

/-- R155: a sync word inside a frame is not recognised: in states CLASS to CKB a push leaves the walk only by a terminal
outcome, whatever the byte. -/
def Obligations.SyncWordInsideAFrameIsData : Prop :=
  ∀ (s t : State) (b : Byte) (e : DfEvent), exec (.dfPush b) s = .next t → t.out.df = [e] → ¬searching s →
    (searching t ↔ endsWalk s b e.outcome) ∧
    (¬endsWalk s b e.outcome → t.df.code = s.df.code + 1 ∨ (s.df.code = 5 ∧ t.df.code = 5) ∨
      (s.df.code = 4 ∧ t.df.code = 6))

/-- R158 first half, R159, R187: a frame with the right checksum, as `.frame` and as a wire frame, gives NONE for all bytes
but the last and then its Envelope, in whatever state of the sync search DF is. Afterwards `MSG_BUF` presents the payload. -/
def Obligations.FramesRoundTripThroughTheDeframer : Prop :=
  ∀ (s : State) (cls id : Byte) (p : List Byte), Inv s → searching s → p.length ≤ s.cfg.maxLen.toNat →
    ∀ i ∈ [Instr.dotFrame cls id p,
      Instr.frame cls id p (cksum (frameBody cls id p)).a (cksum (frameBody cls id p)).b],
    ∃ t, exec i s = .next t ∧ outcomes t.out.df = frameOutcomes cls id p ∧ inInitialSync t ∧
      (∀ k, Memory.read t.buf k = p[k]?) ∧
      regCls t = some cls ∧ regMid t = some id ∧ regLen t = some (BitVec.ofNat 16 p.length)

/-- R158 second half: a wire frame that yields an Envelope is given back byte for byte by encoding that Envelope. -/
def Obligations.ReencodingAnEnvelopeGivesItsFrame : Prop :=
  ∀ (s t : State) (cls id : Byte) (p : List Byte) (a b : Byte) (env : Envelope), Inv s → searching s →
    p.length ≤ s.cfg.maxLen.toNat → s.enc = .idle → exec (.frame cls id p a b) s = .next t →
    .envelope env ∈ outcomes t.out.df →
    ∃ u, exec (.encFrame env.cls env.mid env.msg) t = .next u ∧
      u.out.enc = .written (BitVec.ofNat 17 (p.length + 8)) (encode (.frame cls id p a b))

/-- R160: noise that holds no sync word reports nothing, and the frame after it is delivered. -/
def Obligations.NoiseBeforeAFrameIsAbsorbed : Prop :=
  ∀ (s : State) (noise : List Byte) (cls id : Byte) (p : List Byte), Inv s → inInitialSync s → noSyncWord noise →
    p.length ≤ s.cfg.maxLen.toNat →
    ∃ t, exec (.dfBatch (noise ++ frameBytes cls id p)) s = .next t ∧
      outcomes t.out.df = List.replicate noise.length .noOutput ++ frameOutcomes cls id p ∧ inInitialSync t

/-- R161: a wrong byte B is an error on the last byte; a wrong byte A is an error on the byte before, and the last byte is
absorbed as noise; either way any frame that follows is delivered with no reset. Stated of the bytes as a batch. -/
def Obligations.CorruptedChecksumsAreRejected : Prop :=
  ∀ (s : State) (cls id : Byte) (p : List Byte) (a b : Byte), Inv s → searching s → p.length ≤ s.cfg.maxLen.toNat →
    (a, b) ≠ ((cksum (frameBody cls id p)).a, (cksum (frameBody cls id p)).b) →
    ∃ t, exec (.dfBatch (wireBytes cls id p a b)) s = .next t ∧
      (a = (cksum (frameBody cls id p)).a →
        outcomes t.out.df = List.replicate (p.length + 7) .noOutput ++ [.errChecksum] ∧ t.df = .sync 0x0000) ∧
      (a ≠ (cksum (frameBody cls id p)).a →
        outcomes t.out.df = List.replicate (p.length + 6) .noOutput ++ [.errChecksum, .noOutput] ∧
        t.df = .sync (BitVec.ofNat 16 b.toNat)) ∧
      ∀ (cls' id' : Byte) (p' : List Byte), p'.length ≤ s.cfg.maxLen.toNat →
        ∃ u, exec (.dfBatch (frameBytes cls' id' p')) t = .next u ∧ outcomes u.out.df = frameOutcomes cls' id' p'

/-- R147, R156, R163: a frame whose declared length is over the ceiling is abandoned at its sixth byte: nothing of it is
stored, and what follows is scanned from an empty shift register. That no index of `MSG_BUF` is readable then, an earlier
Envelope's bytes included, is R26 under REPORT and assumption 6 under SILENT. -/
def Obligations.OversizeFramesAreAbandonedAtTheLength : Prop :=
  ∀ (s : State) (cls id lo hi : Byte) (rest : List Byte), Inv s → searching s →
    256 * hi.toNat + lo.toNat > s.cfg.maxLen.toNat →
    ∃ t u : State, exec (.dfBatch [0xB5, 0x62, cls, id, lo, hi]) s = .next t ∧
      outcomes t.out.df = List.replicate 5 .noOutput ++
        [if s.cfg.policy = .report then .errOversize (BitVec.ofNat 16 (256 * hi.toNat + lo.toNat)) s.cfg.maxLen
         else .noOutput] ∧
      inInitialSync t ∧ (∀ k, Memory.read t.buf k = none) ∧
      exec (.dfBatch rest) t = .next u ∧
      ∃ v, exec (.dfBatch ([0xB5, 0x62, cls, id, lo, hi] ++ rest)) s = .next v ∧
        outcomes v.out.df = outcomes t.out.df ++ outcomes u.out.df ∧ v.df = u.df

/-- R10, C2: the oversize policy changes what is reported and nothing else. -/
def Obligations.OversizePolicyOnlyChangesTheReport : Prop :=
  ∀ (s : State) (bytes : List Byte), Inv s →
    ∃ t u : State, exec (.dfBatch bytes) { s with cfg := { s.cfg with policy := .silent } } = .next t ∧
      exec (.dfBatch bytes) { s with cfg := { s.cfg with policy := .report } } = .next u ∧
      t.df = u.df ∧ t.ckDf = u.ckDf ∧ t.buf = u.buf ∧ t.shown = u.shown ∧
      outcomes t.out.df = (outcomes u.out.df).map fun o =>
        match o with
        | .errOversize _ _ => .noOutput
        | .noOutput => .noOutput
        | .envelope env => .envelope env
        | .errChecksum => .errChecksum

/-- R152, R159: a batch is the pushes of its bytes in order: the empty batch does nothing, a batch of one byte is a push,
and any split of a batch gives the concatenation of the outcome lists. -/
def Obligations.BatchesAreTheirPushesInOrder : Prop :=
  (∀ s : State, exec (.dfBatch []) s = .next { s with out := { s.out with df := [] } }) ∧
  (∀ (s : State) (b : Byte), exec (.dfBatch [b]) s = exec (.dfPush b) s) ∧
  (∀ (s v : State) (xs ys : List Byte), exec (.dfBatch (xs ++ ys)) s = .next v ↔
    ∃ t u : State, exec (.dfBatch xs) s = .next t ∧ exec (.dfBatch ys) t = .next u ∧
      v = { u with out := { u.out with df := t.out.df ++ u.out.df } })

/-- R152, R141: a batch always completes, with one event for each byte, and a byte it leaves in `MSG_BUF` is one that was
there at the same index or one of its own. -/
def Obligations.BatchAlwaysCompletes : Prop :=
  ∀ (s : State) (bytes : List Byte), Inv s →
    ∃ t, exec (.dfBatch bytes) s = .next t ∧ Inv t ∧ t.out.df.map DfEvent.byte = bytes ∧
      ∀ a v, Memory.read t.buf a = some v → Memory.read s.buf a = some v ∨ v ∈ bytes

/-- R93, R105, R182 (and assumptions 10, 11 for taking the two rows as pushes into DF): a wire frame and a `.frame` are the
batch of their bytes; with more than 65535 payload bytes they have no wire image and are refused. -/
def Obligations.WireFramesAreBatchesOfTheirBytes : Prop :=
  ∀ (s : State) (cls id : Byte) (p : List Byte) (a b : Byte),
    (p.length ≤ 65535 →
      exec (.frame cls id p a b) s = exec (.dfBatch (
        [0xB5, 0x62, cls, id, BitVec.ofNat 8 p.length, BitVec.ofNat 8 (p.length / 256)] ++ p ++ [a, b])) s ∧
      exec (.dotFrame cls id p) s = exec (.frame cls id p (cksum (frameBody cls id p)).a
        (cksum (frameBody cls id p)).b) s) ∧
    (p.length > 65535 →
      exec (.frame cls id p a b) s = .refused .payloadTooLong ∧
      exec (.dotFrame cls id p) s = .refused .payloadTooLong)

/-- R157: from every state of a walk, at most `4 + MAX_LEN + 2` more bytes lead back to the initial SYNC state. -/
def Obligations.EveryWalkEndsInBoundedTime : Prop :=
  ∀ (s : State) (bytes : List Byte), Inv s → ¬searching s → 4 + s.cfg.maxLen.toNat + 2 ≤ bytes.length →
    ∃ (k : Nat) (t : State), k ≤ 4 + s.cfg.maxLen.toNat + 2 ∧ exec (.dfBatch (bytes.take k)) s = .next t ∧
      inInitialSync t

/-- R24, R151: the register machine does exactly what the normative tagged sum does. -/
def Obligations.PushRefinesTheNormativeView : Prop :=
  ∀ (s : State) (b : Byte) (v : DfView), Inv s → viewOf s = some v →
    ∃ (t : State) (e : DfEvent), exec (.dfPush b) s = .next t ∧ t.out.df = [e] ∧
      viewOf t = some (viewPush s.cfg b v).1 ∧ e.outcome = (viewPush s.cfg b v).2

/-! ### message_encoder -/

/-- R181: the wire image of the frame: sync word, class, id, length low byte first, payload, checksum of the bytes from
class to payload. CK_ENC is left cleared; nothing else changes. -/
def Obligations.EncFrameWritesTheWireImage : Prop :=
  ∀ (s : State) (cls id : Byte) (p : List Byte), s.enc = .idle → p.length ≤ 65535 →
    ∃ (body : List Byte) (n : BitVec 17),
      body = [cls, id, BitVec.ofNat 8 p.length, BitVec.ofNat 8 (p.length / 256)] ++ p ∧ n.toNat = p.length + 8 ∧
      exec (.encFrame cls id p) s = .next { s with
        encCk := { a := 0x00, b := 0x00 }
        out := { s.out with enc := .written n ([0xB5, 0x62] ++ body ++ [(cksum body).a, (cksum body).b]) } }

/-- R182, R186: ENC refuses a payload of more than 65535 bytes, and any operation while a frame is being emitted, whether
asked for as an operation or at the ports; and, while a frame is re-encoded from `MSG_BUF`, a step that stores another byte
where one is still to be emitted (R185, R271; assumption 7). -/
def Obligations.EncRefusesWhatCannotBePresented : Prop :=
  (∀ (s : State) (cls id : Byte) (p : List Byte), s.enc = .idle → p.length > 65535 →
    exec (.encFrame cls id p) s = .refused .payloadTooLong) ∧
  (∀ (s : State) (job : EncJob), s.enc = .busy job →
    (∀ cls id p, exec (.encFrame cls id p) s = .refused .encBusy) ∧
    (∀ t v cap, exec (.encMsg t v cap) s = .refused .encBusy) ∧
    (∀ (p : PortsIn) (rdata : Option Byte), p.rst = false → readPort p s = .next rdata → p.cmd &&& 0x10 = 0x10 →
      ¬(p.cmd &&& 0x03 = 0x03) → ¬(p.cmd &&& 0x0C = 0x0C) → cycle p s = .refused .encBusy) ∧
    (∀ (rest : List HostInput) (c m b : Byte) (len cnt : Half), s.inputs = .op .cmd [0x08, b] :: rest → Inv s →
      job.src = .msgBuf → s.df = .message c m len cnt → job.unsent ≤ cnt.toNat → cnt.toNat < job.len.toNat →
      Memory.read s.buf cnt.toNat ≠ some b → step s = .refused .payloadChanged))

/-- R183: with capacity for `LEN[t] + 8` bytes (exact, 17 bits) the frame of the type's class, id and encoded value is
written; with less, `ERR_CAPACITY` and no other change. -/
def Obligations.EncMsgWritesOrReportsCapacity : Prop :=
  ∀ (s : State) (t : BitVec 32) (r : TypeRow) (v : Value) (cap : BitVec 17), s.enc = .idle →
    s.cfg.registry[t.toNat]? = some r →
    (cap.toNat < r.len.toNat + 8 →
      exec (.encMsg t v cap) s = .next { s with out := { s.out with enc := .errCapacity } }) ∧
    (r.len.toNat + 8 ≤ cap.toNat → ∃ (n : BitVec 17) (wire : List Byte), n.toNat = r.len.toNat + 8 ∧
      wire.length = r.len.toNat + 8 ∧
      wire = frameBytes r.cls r.id (Config.encodeValue r.codec r.len.toNat v).toList ∧
      exec (.encMsg t v cap) s = .next { s with
        encCk := { a := 0x00, b := 0x00 }, out := { s.out with enc := .written n wire } })

/-- R13, R183, R42, R48, U16, U18: a type index outside the registry is refused, as an operation and on `enc_type`; that
an `enc_type` of another width than `TW` is refused in the same way is the model's choice (assumption 16). An instance is
constructed exactly with a well-formed configuration, so under an ill-formed one no operation and no strobe of any unit is
admitted (assumption 15). U17, U19: an emission that wants a byte no host or codec presents is refused (assumption 7). -/
def Obligations.RefusedTypesConfigurationsAndPayloads : Prop :=
  (∀ (s : State) (t : BitVec 32) (v : Value) (cap : BitVec 17), s.enc = .idle →
    s.cfg.registry.length ≤ t.toNat → exec (.encMsg t v cap) s = .refused .badTypeIndex) ∧
  (∀ (s : State) (p : PortsIn), s.enc = .idle → p.rst = false → p.raddr = none → p.cmd = 0x30 →
    (s.cfg.registry.length ≤ p.encType.bits.toNat ∨ p.encType.width ≠ typeWidth s.cfg) →
    cycle p s = .refused .badTypeIndex) ∧
  (∀ (maxLen : Nat) (policy : OversizePolicy) (categories : List Byte) (registry : List TypeRow),
    ((maxLen > 65535 ∨
      (∃ (i j : Nat) (a b : TypeRow), i ≠ j ∧ registry[i]? = some a ∧ registry[j]? = some b ∧
        a.cls = b.cls ∧ a.id = b.id ∧ a.len = b.len) ∨
      (∃ r ∈ registry, categories.count r.cls ≠ 1) ∨ ¬categories.Nodup) →
      construct maxLen policy categories registry = .refused .illFormedConfig) ∧
    (maxLen ≤ 65535 →
      (∀ (i j : Nat) (a b : TypeRow), registry[i]? = some a → registry[j]? = some b →
        a.cls = b.cls → a.id = b.id → a.len = b.len → i = j) →
      (∀ r ∈ registry, categories.count r.cls = 1) → categories.Nodup →
      ∃ s, construct maxLen policy categories registry = .next s ∧ s.cfg.maxLen.toNat = maxLen ∧
        s.cfg.policy = policy ∧ s.cfg.categories = categories ∧ s.cfg.registry = registry)) ∧
  (∀ (s : State) (p : PortsIn) (job : EncJob) (idx : Half), s.enc = .busy job → job.phase = .payload idx →
    job.src = .port → p.rst = false → p.cmd = 0 → p.raddr = none → p.encPdata = none →
    cycle p s = .refused .payloadSource)

/-- R185 (with the start of the emission one step after `enc_go`, assumption 13): the bytes emitted one per cycle are
exactly the frame, `enc_last` and `enc_n` stand on the last, ENC is idle afterwards and CK_ENC cleared. Payload byte `i`
stands on `enc_pdata` in the cycle that emits it, or is read from `MSG_BUF`; with no request waiting the cycles go on by
themselves. -/
def Obligations.ByteSerialEmissionIsTheFrame : Prop :=
  ∀ (s : State) (cls id : Byte) (p : List Byte) (src : PayloadSrc) (cs : List PortsIn), p.length ≤ 65535 →
    cs.length = p.length + 8 → (∀ c ∈ cs, c.rst = false ∧ c.cmd = 0 ∧ c.raddr = none) →
    (s.inputs = cs.map HostInput.cycle ∨ (s.inputs = [] ∧ ∀ c ∈ cs, c = PortsIn.idle)) →
    ((src = .port ∧ ∀ (i : Nat) (v : Byte), p[i]? = some v → ∃ c, cs[6 + i]? = some c ∧ c.encPdata = some v) ∨
      (src = .msgBuf ∧ Memory.readFrom s.buf 0 p.length = some p)) →
    s.enc = .busy { cls := cls, id := id, len := BitVec.ofNat 16 p.length, src := src, phase := .sync1 } →
    s.encCk = { a := 0x00, b := 0x00 } →
    ∃ t, encRun (p.length + 8) s = .next (t, emission (frameBytes cls id p)) ∧ t.enc = .idle ∧
      t.encCk = { a := 0x00, b := 0x00 } ∧ t.df = s.df ∧ t.buf = s.buf ∧ t.ck = s.ck

/-- R48, R185: `enc_go` latches the operands and clears CK_ENC; for `ENC.MSG` class, id and length are the type's and
`ERR_CAPACITY` starts nothing and leaves CK_ENC as it was. DF and CK are not touched. That the cycle emits nothing and
leaves phase 0 is assumption 13; the payload sources are assumption 7, and that `ENC.MSG` too latches one is assumption
21. -/
def Obligations.EncGoLatchesTheOperands : Prop :=
  ∀ (s : State) (p : PortsIn) (rest : List HostInput), s.inputs = .cycle p :: rest → s.enc = .idle → p.rst = false →
    p.raddr = none →
    (p.cmd = 0x10 →
      ∃ t, step s = .next t ∧
        t.enc = .busy { cls := p.encCls, id := p.encId, len := p.encLen, src := p.encSrc, phase := .sync1 } ∧
        t.encCk = { a := 0x00, b := 0x00 } ∧ t.df = s.df ∧ t.ckDf = s.ckDf ∧ t.buf = s.buf ∧ t.ck = s.ck ∧
        t.ports.encErr = false ∧ t.ports.encValid = false) ∧
    (p.cmd = 0x30 → p.encType.width = typeWidth s.cfg → ∀ r, s.cfg.registry[p.encType.bits.toNat]? = some r →
      (p.encCap.toNat < r.len.toNat + 8 →
        ∃ t, step s = .next t ∧ t.enc = .idle ∧ t.encCk = s.encCk ∧ t.df = s.df ∧ t.ckDf = s.ckDf ∧ t.buf = s.buf ∧
          t.ck = s.ck ∧ t.ports.encErr = true ∧ t.ports.encValid = false) ∧
      (r.len.toNat + 8 ≤ p.encCap.toNat →
        ∃ t, step s = .next t ∧
          t.enc = .busy { cls := r.cls, id := r.id, len := r.len, src := p.encSrc, phase := .sync1 } ∧
          t.encCk = { a := 0x00, b := 0x00 } ∧ t.df = s.df ∧ t.ckDf = s.ckDf ∧ t.buf = s.buf ∧ t.ck = s.ck ∧
          t.ports.encErr = false ∧ t.ports.encValid = false))

/-! ### message_dispatcher_mux -/

/-- R201, R203, R204: the type with exactly the Envelope's triple decodes it, or reports
that its decoder failed; no such type gives UNRECOGNIZED. Nothing else changes. -/
def Obligations.DispatchSelectsTheExactTriple : Prop :=
  ∀ (s : State) (cls mid : Byte) (msg : List Byte),
    (∀ (t : Nat) (r : TypeRow), s.cfg.registry[t]? = some r → r.cls = cls → r.id = mid → r.len.toNat = msg.length →
      ∃ c : Nat, s.cfg.categories[c]? = some cls ∧
        ((∃ v, Config.decodeValue r.codec msg = some v ∧
          exec (.dispDispatch cls mid msg) s =
            .next { s with out := { s.out with dp := .decoded c t (.value v) } }) ∨
        (Config.decodeValue r.codec msg = none ∧
          exec (.dispDispatch cls mid msg) s = .next { s with out := { s.out with dp := .decodeFailed c t } }))) ∧
    ((∀ r ∈ s.cfg.registry, ¬(r.cls = cls ∧ r.id = mid ∧ r.len.toNat = msg.length)) →
      exec (.dispDispatch cls mid msg) s = .next { s with out := { s.out with dp := .unrecognized } })

/-- R49, R42, R201: at the ports, `dp_hit`, `dp_sel` (`TW` bits), `dp_cat` (`CW` bits) name the type with the presented
triple, and `dp_fail` turns the hit into `DECODE_FAILED`; with no such type `dp_hit = 0` and `dp_kind = 0`. -/
def Obligations.DispatchPortsShowTheSelectedType : Prop :=
  ∀ (s : State) (p : PortsIn), s.enc = .idle → p.rst = false → p.raddr = none → p.cmd = 0x40 →
    (∀ (t : Nat) (r : TypeRow), s.cfg.registry[t]? = some r → r.cls = p.dpCls → r.id = p.dpId → r.len = p.dpLen →
      ∃ u, cycle p s = .next u ∧ u.ports.dpHit = true ∧ u.ports.dpKind = (if p.dpFail then 2 else 1) ∧
        (∃ sel : BitVec (typeWidth s.cfg), u.ports.dpSel = some ⟨typeWidth s.cfg, sel⟩ ∧ sel.toNat = t) ∧
        (∃ cat : BitVec (catWidth s.cfg), u.ports.dpCat = some ⟨catWidth s.cfg, cat⟩ ∧
          s.cfg.categories[cat.toNat]? = some p.dpCls)) ∧
    ((∀ r ∈ s.cfg.registry, ¬(r.cls = p.dpCls ∧ r.id = p.dpId ∧ r.len = p.dpLen)) →
      ∃ u, cycle p s = .next u ∧ u.ports.dpHit = false ∧ u.ports.dpKind = 0 ∧ u.ports.dpSel = none ∧
        u.ports.dpCat = none ∧ u.out.dp = .unrecognized)

/-! ### The block as a whole -/

/-- R40: no operation and no clock cycle changes the configuration. -/
def Obligations.ConfigurationNeverChanges : Prop :=
  (∀ (i : Instr) (s t : State), exec i s = .next t → t.cfg = s.cfg) ∧
  (∀ s t : State, step s = .next t → t.cfg = s.cfg)

/-- R39, R23, R41, R45: the units share no state: an operation of one leaves the others' state and reports as they are, and
takes nothing from the host's queue. -/
def Obligations.OperationsTouchOnlyTheirUnit : Prop :=
  ∀ (i : Instr) (s t : State), exec i s = .next t →
    (unitOf i ≠ .ck → keepsCk s t) ∧ (unitOf i ≠ .df → keepsDf s t) ∧ (unitOf i ≠ .enc → keepsEnc s t) ∧
    (unitOf i ≠ .disp → keepsDisp s t) ∧ t.inputs = s.inputs ∧ t.ports = s.ports

/-- R60, R62: only `DF.PUSH@MESSAGE` gives a byte of `MSG_BUF` a value, and only the byte at `cnt`. -/
def Obligations.OnlyTheMessageStepStores : Prop :=
  ∀ (i : Instr) (s t : State) (b : Byte), (i = .dfPush b ∨ ∃ code, i = stepOfCode code b) → exec i s = .next t →
    ∀ (a : Nat) (v : Byte), Memory.read t.buf a = some v →
      Memory.read s.buf a = some v ∨ (∃ c m len cnt, s.df = .message c m len cnt ∧ a = cnt.toNat ∧ v = b)

/-- The reset state meets the invariant. -/
def Obligations.ResetMeetsTheInvariant : Prop := Inv State.reset

/-- R29, R62, R163, R185: every step keeps the invariant: the canonical form of `MSG_BUF`, its bound `MAX_LEN`,
`cnt < len <= MAX_LEN`, the stored bytes readable, the emission inside its payload. -/
def Obligations.EveryStepKeepsTheInvariant : Prop :=
  ∀ s t : State, Inv s → step s = .next t → Inv t

/-- R37, R63: after an ENVELOPE outcome its fields can be read, and the read port gives its message bytes. -/
def Obligations.EnvelopeIsReadableAfterItsStep : Prop :=
  ∀ (s t : State) (b : Byte) (env : Envelope), Inv s → exec (.dfPush b) s = .next t →
    outcomes t.out.df = [.envelope env] →
    regCls t = some env.cls ∧ regMid t = some env.mid ∧ regLen t = some (BitVec.ofNat 16 env.msg.length) ∧
    ∀ (k : Half) (v : Byte), env.msg[k.toNat]? = some v → t.enc = .idle →
      ∃ u, cycle { PortsIn.idle with raddr := some k } t = .next u ∧ u.ports.dfRdata = some v

/-- R267, R37: how long an Envelope stays readable, in pushes after the one that reported it. What is read in the window
is never another byte; that an abort in it ends the window early is R26 (and, under `SILENT`, assumption 6). -/
def Obligations.EnvelopeStaysReadableUntilOverwritten : Prop :=
  ∀ (s t u : State) (b : Byte) (env : Envelope) (bytes : List Byte), Inv s → exec (.dfPush b) s = .next t →
    outcomes t.out.df = [.envelope env] → exec (.dfBatch bytes) t = .next u →
    (bytes.length ≤ 2 → regCls u = some env.cls) ∧ (bytes.length ≤ 3 → regMid u = some env.mid) ∧
    (bytes.length ≤ 4 → regLen u = some (BitVec.ofNat 16 env.msg.length)) ∧
    ∀ (i : Nat) (v : Byte), env.msg[i]? = some v → bytes.length ≤ 6 + i →
      (Memory.read u.buf i = some v ∨ Memory.read u.buf i = none) ∧
      (bytes.length ≤ 5 ∨ (s.cfg.policy = .report ∧ ∀ o ∈ outcomes u.out.df, o = .noOutput) →
        Memory.read u.buf i = some v)

/-- R63, U13, R231: the read port gives no value where none is specified, to the host or to a re-encoding, in particular
nowhere after an error; that after a SILENT abort nothing is readable either is assumption 6. Two indices in one cycle are
refused (R60, assumption 20). -/
def Obligations.UnspecifiedBytesCannotBeRead : Prop :=
  (∀ (s : State) (p : PortsIn) (k : Half), p.rst = false → s.enc.fetches = none → p.raddr = some k →
    ¬(p.cmd &&& 0x03 = 0x03) → ¬(p.cmd &&& 0x0C = 0x0C) → Memory.read s.buf k.toNat = none →
    cycle p s = .fault .bufUnspecified) ∧
  (∀ (s : State) (p : PortsIn) (i : Half), p.rst = false → s.enc.fetches = some i → ¬(p.cmd &&& 0x03 = 0x03) →
    ¬(p.cmd &&& 0x0C = 0x0C) →
    (p.raddr = none ∨ p.raddr = some i → Memory.read s.buf i.toNat = none → cycle p s = .fault .bufUnspecified) ∧
    (∀ k : Half, p.raddr = some k → k ≠ i → cycle p s = .refused .readPortTaken)) ∧
  (∀ (s t : State) (b : Byte) (e : DfEvent), exec (.dfPush b) s = .next t → t.out.df = [e] →
    endsWalk s b e.outcome → (∀ env, e.outcome ≠ .envelope env) →
    (∀ a, Memory.read t.buf a = none) ∧ regCls t = none ∧ regMid t = none ∧ regLen t = none)

/-- R80: a read in the cycle that stores at the same index gives the value before the edge. -/
def Obligations.ReadDuringAStoreGivesTheOldValue : Prop :=
  ∀ (s : State) (p : PortsIn) (c m : Byte) (len cnt : Half) (v : Byte), Inv s → s.enc = .idle →
    s.df = .message c m len cnt → p.rst = false → p.cmd = 0x08 → p.raddr = some cnt →
    Memory.read s.buf cnt.toNat = some v →
    ∃ t, cycle p s = .next t ∧ t.ports.dfRdata = some v ∧ Memory.read t.buf cnt.toNat = some p.dfByte

/-- R45, R91, R229: units strobed in one cycle each act as if alone on the state before the edge; an emission going on reads
`MSG_BUF` as it was before the edge (R80). -/
def Obligations.UnitsOfOneCycleActIndependently : Prop :=
  ∀ (s t : State) (p : PortsIn), p.rst = false → cycle p s = .next t →
    (selects p .ckPush = true → t.ck = s.ck.push p.ckDin ∧ t.out.ck = .pushed p.ckDin ∧ t.ports.ckDout = p.ckDin) ∧
    (selects p .ckTake = true → t.ck = { a := 0x00, b := 0x00 } ∧ t.out.ck = .taken s.ck.a s.ck.b ∧
      t.ports.ckA = s.ck.a ∧ t.ports.ckB = s.ck.b) ∧
    (selects p .dfPush = true → ∃ u, exec (.dfPush p.dfByte) s = .next u ∧ t.df = u.df ∧ t.ckDf = u.ckDf ∧
      t.buf = u.buf ∧ t.shown = u.shown ∧ t.out.df = u.out.df) ∧
    (selects p .dfReset = true → ∃ u, exec .dfReset s = .next u ∧ t.df = u.df ∧ t.ckDf = u.ckDf ∧ t.buf = u.buf ∧
      t.shown = u.shown ∧ t.out.df = []) ∧
    (selects p .encFrame = true → ∃ u, encGoFrame p s = .next u ∧ t.enc = u.enc ∧ t.encCk = u.encCk ∧
      t.out.enc = u.out.enc) ∧
    (selects p .encMsg = true → ∃ u, encGoMsg p s = .next u ∧ t.enc = u.enc ∧ t.encCk = u.encCk ∧
      t.out.enc = u.out.enc ∧ t.ports.encErr = u.out.enc.err) ∧
    (p.cmd &&& 0x10 = 0 → ∃ (rdata : Option Byte) (u : State), readPort p s = .next rdata ∧
      encTick (s.enc.pdata p.encPdata rdata) s = .next u ∧ t.enc = u.enc ∧ t.encCk = u.encCk ∧
      t.out.enc = u.out.enc ∧ t.ports.encByte = u.out.enc.byte) ∧
    (selects p .dispDispatch = true → ∃ u, dispGo p s = .next u ∧ t.out.dp = u.out.dp ∧
      t.ports.dpKind = u.out.dp.kind ∧ t.ports.dpHit = u.out.dp.hit.isSome) ∧
    (p.cmd &&& 0x03 = 0 → keepsCk s t) ∧ (p.cmd &&& 0x0C = 0 → keepsDf s t) ∧ (p.cmd &&& 0x40 = 0 → keepsDisp s t)

/-- R33, R37, R47, R220, R227: the outcome of a DF step on its ports. With another outcome than an Envelope `df_cls`,
`df_id` and `df_len` show the presented Envelope while it is readable (R37) and nothing of the frame being received. -/
def Obligations.DfPortsShowTheOutcome : Prop :=
  ∀ (s t : State) (p : PortsIn), p.rst = false → selects p .dfPush = true → cycle p s = .next t →
    t.ports.dfState = s.df.code ∧ t.ports.dfCap = s.cfg.maxLen ∧
    ∃ o, outcomes t.out.df = [o] ∧
      (t.ports.dfKind = 0 ↔ o = .noOutput) ∧
      (t.ports.dfKind = 1 ↔ ∃ env, o = .envelope env ∧ t.ports.dfCls = some env.cls ∧ t.ports.dfId = some env.mid ∧
        t.ports.dfLen = some (BitVec.ofNat 16 env.msg.length)) ∧
      (t.ports.dfKind = 2 ↔ o = .errChecksum) ∧
      (t.ports.dfKind = 3 ↔ ∃ d, o = .errOversize d s.cfg.maxLen ∧ t.ports.dfLen = some d) ∧
      ((∀ env, o ≠ .envelope env) → t.ports.dfCls = s.shown.cls ∧ t.ports.dfId = s.shown.mid) ∧
      (o = .noOutput ∨ o = .errChecksum → t.ports.dfLen = s.shown.len)
end

