-- ==== Sys2Proof/Laws/State.lean ====
section
/-! SUPPORT. One lemma per field per named update of State, true by rfl, so that no proof unfolds an update. -/

namespace Sys2Proof.Machine

variable (s : State)

@[simp] theorem setCk_cfg (v : Ck) : (s.setCk v).cfg = s.cfg := rfl
@[simp] theorem setCk_ck (v : Ck) : (s.setCk v).ck = v := rfl
@[simp] theorem setCk_df (v : Ck) : (s.setCk v).df = s.df := rfl
@[simp] theorem setCk_ckDf (v : Ck) : (s.setCk v).ckDf = s.ckDf := rfl
@[simp] theorem setCk_buf (v : Ck) : (s.setCk v).buf = s.buf := rfl
@[simp] theorem setCk_shown (v : Ck) : (s.setCk v).shown = s.shown := rfl
@[simp] theorem setCk_enc (v : Ck) : (s.setCk v).enc = s.enc := rfl
@[simp] theorem setCk_encCk (v : Ck) : (s.setCk v).encCk = s.encCk := rfl
@[simp] theorem setCk_out (v : Ck) : (s.setCk v).out = s.out := rfl
@[simp] theorem setCk_ports (v : Ck) : (s.setCk v).ports = s.ports := rfl
@[simp] theorem setCk_inputs (v : Ck) : (s.setCk v).inputs = s.inputs := rfl

@[simp] theorem setDf_cfg (v : DfState) : (s.setDf v).cfg = s.cfg := rfl
@[simp] theorem setDf_ck (v : DfState) : (s.setDf v).ck = s.ck := rfl
@[simp] theorem setDf_df (v : DfState) : (s.setDf v).df = v := rfl
@[simp] theorem setDf_ckDf (v : DfState) : (s.setDf v).ckDf = s.ckDf := rfl
@[simp] theorem setDf_buf (v : DfState) : (s.setDf v).buf = s.buf := rfl
@[simp] theorem setDf_shown (v : DfState) : (s.setDf v).shown = s.shown := rfl
@[simp] theorem setDf_enc (v : DfState) : (s.setDf v).enc = s.enc := rfl
@[simp] theorem setDf_encCk (v : DfState) : (s.setDf v).encCk = s.encCk := rfl
@[simp] theorem setDf_out (v : DfState) : (s.setDf v).out = s.out := rfl
@[simp] theorem setDf_ports (v : DfState) : (s.setDf v).ports = s.ports := rfl
@[simp] theorem setDf_inputs (v : DfState) : (s.setDf v).inputs = s.inputs := rfl

@[simp] theorem setCkDf_cfg (v : Ck) : (s.setCkDf v).cfg = s.cfg := rfl
@[simp] theorem setCkDf_ck (v : Ck) : (s.setCkDf v).ck = s.ck := rfl
@[simp] theorem setCkDf_df (v : Ck) : (s.setCkDf v).df = s.df := rfl
@[simp] theorem setCkDf_ckDf (v : Ck) : (s.setCkDf v).ckDf = v := rfl
@[simp] theorem setCkDf_buf (v : Ck) : (s.setCkDf v).buf = s.buf := rfl
@[simp] theorem setCkDf_shown (v : Ck) : (s.setCkDf v).shown = s.shown := rfl
@[simp] theorem setCkDf_enc (v : Ck) : (s.setCkDf v).enc = s.enc := rfl
@[simp] theorem setCkDf_encCk (v : Ck) : (s.setCkDf v).encCk = s.encCk := rfl
@[simp] theorem setCkDf_out (v : Ck) : (s.setCkDf v).out = s.out := rfl
@[simp] theorem setCkDf_ports (v : Ck) : (s.setCkDf v).ports = s.ports := rfl
@[simp] theorem setCkDf_inputs (v : Ck) : (s.setCkDf v).inputs = s.inputs := rfl

@[simp] theorem setBuf_cfg (v : Memory) : (s.setBuf v).cfg = s.cfg := rfl
@[simp] theorem setBuf_ck (v : Memory) : (s.setBuf v).ck = s.ck := rfl
@[simp] theorem setBuf_df (v : Memory) : (s.setBuf v).df = s.df := rfl
@[simp] theorem setBuf_ckDf (v : Memory) : (s.setBuf v).ckDf = s.ckDf := rfl
@[simp] theorem setBuf_buf (v : Memory) : (s.setBuf v).buf = v := rfl
@[simp] theorem setBuf_shown (v : Memory) : (s.setBuf v).shown = s.shown := rfl
@[simp] theorem setBuf_enc (v : Memory) : (s.setBuf v).enc = s.enc := rfl
@[simp] theorem setBuf_encCk (v : Memory) : (s.setBuf v).encCk = s.encCk := rfl
@[simp] theorem setBuf_out (v : Memory) : (s.setBuf v).out = s.out := rfl
@[simp] theorem setBuf_ports (v : Memory) : (s.setBuf v).ports = s.ports := rfl
@[simp] theorem setBuf_inputs (v : Memory) : (s.setBuf v).inputs = s.inputs := rfl

@[simp] theorem setShown_cfg (v : Shown) : (s.setShown v).cfg = s.cfg := rfl
@[simp] theorem setShown_ck (v : Shown) : (s.setShown v).ck = s.ck := rfl
@[simp] theorem setShown_df (v : Shown) : (s.setShown v).df = s.df := rfl
@[simp] theorem setShown_ckDf (v : Shown) : (s.setShown v).ckDf = s.ckDf := rfl
@[simp] theorem setShown_buf (v : Shown) : (s.setShown v).buf = s.buf := rfl
@[simp] theorem setShown_shown (v : Shown) : (s.setShown v).shown = v := rfl
@[simp] theorem setShown_enc (v : Shown) : (s.setShown v).enc = s.enc := rfl
@[simp] theorem setShown_encCk (v : Shown) : (s.setShown v).encCk = s.encCk := rfl
@[simp] theorem setShown_out (v : Shown) : (s.setShown v).out = s.out := rfl
@[simp] theorem setShown_ports (v : Shown) : (s.setShown v).ports = s.ports := rfl
@[simp] theorem setShown_inputs (v : Shown) : (s.setShown v).inputs = s.inputs := rfl

@[simp] theorem setEnc_cfg (v : EncState) : (s.setEnc v).cfg = s.cfg := rfl
@[simp] theorem setEnc_ck (v : EncState) : (s.setEnc v).ck = s.ck := rfl
@[simp] theorem setEnc_df (v : EncState) : (s.setEnc v).df = s.df := rfl
@[simp] theorem setEnc_ckDf (v : EncState) : (s.setEnc v).ckDf = s.ckDf := rfl
@[simp] theorem setEnc_buf (v : EncState) : (s.setEnc v).buf = s.buf := rfl
@[simp] theorem setEnc_shown (v : EncState) : (s.setEnc v).shown = s.shown := rfl
@[simp] theorem setEnc_enc (v : EncState) : (s.setEnc v).enc = v := rfl
@[simp] theorem setEnc_encCk (v : EncState) : (s.setEnc v).encCk = s.encCk := rfl
@[simp] theorem setEnc_out (v : EncState) : (s.setEnc v).out = s.out := rfl
@[simp] theorem setEnc_ports (v : EncState) : (s.setEnc v).ports = s.ports := rfl
@[simp] theorem setEnc_inputs (v : EncState) : (s.setEnc v).inputs = s.inputs := rfl

@[simp] theorem setEncCk_cfg (v : Ck) : (s.setEncCk v).cfg = s.cfg := rfl
@[simp] theorem setEncCk_ck (v : Ck) : (s.setEncCk v).ck = s.ck := rfl
@[simp] theorem setEncCk_df (v : Ck) : (s.setEncCk v).df = s.df := rfl
@[simp] theorem setEncCk_ckDf (v : Ck) : (s.setEncCk v).ckDf = s.ckDf := rfl
@[simp] theorem setEncCk_buf (v : Ck) : (s.setEncCk v).buf = s.buf := rfl
@[simp] theorem setEncCk_shown (v : Ck) : (s.setEncCk v).shown = s.shown := rfl
@[simp] theorem setEncCk_enc (v : Ck) : (s.setEncCk v).enc = s.enc := rfl
@[simp] theorem setEncCk_encCk (v : Ck) : (s.setEncCk v).encCk = v := rfl
@[simp] theorem setEncCk_out (v : Ck) : (s.setEncCk v).out = s.out := rfl
@[simp] theorem setEncCk_ports (v : Ck) : (s.setEncCk v).ports = s.ports := rfl
@[simp] theorem setEncCk_inputs (v : Ck) : (s.setEncCk v).inputs = s.inputs := rfl

@[simp] theorem setOut_cfg (v : Out) : (s.setOut v).cfg = s.cfg := rfl
@[simp] theorem setOut_ck (v : Out) : (s.setOut v).ck = s.ck := rfl
@[simp] theorem setOut_df (v : Out) : (s.setOut v).df = s.df := rfl
@[simp] theorem setOut_ckDf (v : Out) : (s.setOut v).ckDf = s.ckDf := rfl
@[simp] theorem setOut_buf (v : Out) : (s.setOut v).buf = s.buf := rfl
@[simp] theorem setOut_shown (v : Out) : (s.setOut v).shown = s.shown := rfl
@[simp] theorem setOut_enc (v : Out) : (s.setOut v).enc = s.enc := rfl
@[simp] theorem setOut_encCk (v : Out) : (s.setOut v).encCk = s.encCk := rfl
@[simp] theorem setOut_out (v : Out) : (s.setOut v).out = v := rfl
@[simp] theorem setOut_ports (v : Out) : (s.setOut v).ports = s.ports := rfl
@[simp] theorem setOut_inputs (v : Out) : (s.setOut v).inputs = s.inputs := rfl

@[simp] theorem setPorts_cfg (v : PortsOut) : (s.setPorts v).cfg = s.cfg := rfl
@[simp] theorem setPorts_ck (v : PortsOut) : (s.setPorts v).ck = s.ck := rfl
@[simp] theorem setPorts_df (v : PortsOut) : (s.setPorts v).df = s.df := rfl
@[simp] theorem setPorts_ckDf (v : PortsOut) : (s.setPorts v).ckDf = s.ckDf := rfl
@[simp] theorem setPorts_buf (v : PortsOut) : (s.setPorts v).buf = s.buf := rfl
@[simp] theorem setPorts_shown (v : PortsOut) : (s.setPorts v).shown = s.shown := rfl
@[simp] theorem setPorts_enc (v : PortsOut) : (s.setPorts v).enc = s.enc := rfl
@[simp] theorem setPorts_encCk (v : PortsOut) : (s.setPorts v).encCk = s.encCk := rfl
@[simp] theorem setPorts_out (v : PortsOut) : (s.setPorts v).out = s.out := rfl
@[simp] theorem setPorts_ports (v : PortsOut) : (s.setPorts v).ports = v := rfl
@[simp] theorem setPorts_inputs (v : PortsOut) : (s.setPorts v).inputs = s.inputs := rfl

@[simp] theorem setInputs_cfg (v : List HostInput) : (s.setInputs v).cfg = s.cfg := rfl
@[simp] theorem setInputs_ck (v : List HostInput) : (s.setInputs v).ck = s.ck := rfl
@[simp] theorem setInputs_df (v : List HostInput) : (s.setInputs v).df = s.df := rfl
@[simp] theorem setInputs_ckDf (v : List HostInput) : (s.setInputs v).ckDf = s.ckDf := rfl
@[simp] theorem setInputs_buf (v : List HostInput) : (s.setInputs v).buf = s.buf := rfl
@[simp] theorem setInputs_shown (v : List HostInput) : (s.setInputs v).shown = s.shown := rfl
@[simp] theorem setInputs_enc (v : List HostInput) : (s.setInputs v).enc = s.enc := rfl
@[simp] theorem setInputs_encCk (v : List HostInput) : (s.setInputs v).encCk = s.encCk := rfl
@[simp] theorem setInputs_out (v : List HostInput) : (s.setInputs v).out = s.out := rfl
@[simp] theorem setInputs_ports (v : List HostInput) : (s.setInputs v).ports = s.ports := rfl
@[simp] theorem setInputs_inputs (v : List HostInput) : (s.setInputs v).inputs = v := rfl

@[simp] theorem setOutCk_cfg (v : CkOut) : (s.setOutCk v).cfg = s.cfg := rfl
@[simp] theorem setOutCk_ck (v : CkOut) : (s.setOutCk v).ck = s.ck := rfl
@[simp] theorem setOutCk_df (v : CkOut) : (s.setOutCk v).df = s.df := rfl
@[simp] theorem setOutCk_ckDf (v : CkOut) : (s.setOutCk v).ckDf = s.ckDf := rfl
@[simp] theorem setOutCk_buf (v : CkOut) : (s.setOutCk v).buf = s.buf := rfl
@[simp] theorem setOutCk_shown (v : CkOut) : (s.setOutCk v).shown = s.shown := rfl
@[simp] theorem setOutCk_enc (v : CkOut) : (s.setOutCk v).enc = s.enc := rfl
@[simp] theorem setOutCk_encCk (v : CkOut) : (s.setOutCk v).encCk = s.encCk := rfl
@[simp] theorem setOutCk_ports (v : CkOut) : (s.setOutCk v).ports = s.ports := rfl
@[simp] theorem setOutCk_inputs (v : CkOut) : (s.setOutCk v).inputs = s.inputs := rfl
@[simp] theorem setOutCk_out_ck (v : CkOut) : (s.setOutCk v).out.ck = v := rfl
@[simp] theorem setOutCk_out_df (v : CkOut) : (s.setOutCk v).out.df = s.out.df := rfl
@[simp] theorem setOutCk_out_enc (v : CkOut) : (s.setOutCk v).out.enc = s.out.enc := rfl
@[simp] theorem setOutCk_out_dp (v : CkOut) : (s.setOutCk v).out.dp = s.out.dp := rfl

@[simp] theorem setOutDf_cfg (v : List DfEvent) : (s.setOutDf v).cfg = s.cfg := rfl
@[simp] theorem setOutDf_ck (v : List DfEvent) : (s.setOutDf v).ck = s.ck := rfl
@[simp] theorem setOutDf_df (v : List DfEvent) : (s.setOutDf v).df = s.df := rfl
@[simp] theorem setOutDf_ckDf (v : List DfEvent) : (s.setOutDf v).ckDf = s.ckDf := rfl
@[simp] theorem setOutDf_buf (v : List DfEvent) : (s.setOutDf v).buf = s.buf := rfl
@[simp] theorem setOutDf_shown (v : List DfEvent) : (s.setOutDf v).shown = s.shown := rfl
@[simp] theorem setOutDf_enc (v : List DfEvent) : (s.setOutDf v).enc = s.enc := rfl
@[simp] theorem setOutDf_encCk (v : List DfEvent) : (s.setOutDf v).encCk = s.encCk := rfl
@[simp] theorem setOutDf_ports (v : List DfEvent) : (s.setOutDf v).ports = s.ports := rfl
@[simp] theorem setOutDf_inputs (v : List DfEvent) : (s.setOutDf v).inputs = s.inputs := rfl
@[simp] theorem setOutDf_out_ck (v : List DfEvent) : (s.setOutDf v).out.ck = s.out.ck := rfl
@[simp] theorem setOutDf_out_df (v : List DfEvent) : (s.setOutDf v).out.df = v := rfl
@[simp] theorem setOutDf_out_enc (v : List DfEvent) : (s.setOutDf v).out.enc = s.out.enc := rfl
@[simp] theorem setOutDf_out_dp (v : List DfEvent) : (s.setOutDf v).out.dp = s.out.dp := rfl

@[simp] theorem setOutEnc_cfg (v : EncOut) : (s.setOutEnc v).cfg = s.cfg := rfl
@[simp] theorem setOutEnc_ck (v : EncOut) : (s.setOutEnc v).ck = s.ck := rfl
@[simp] theorem setOutEnc_df (v : EncOut) : (s.setOutEnc v).df = s.df := rfl
@[simp] theorem setOutEnc_ckDf (v : EncOut) : (s.setOutEnc v).ckDf = s.ckDf := rfl
@[simp] theorem setOutEnc_buf (v : EncOut) : (s.setOutEnc v).buf = s.buf := rfl
@[simp] theorem setOutEnc_shown (v : EncOut) : (s.setOutEnc v).shown = s.shown := rfl
@[simp] theorem setOutEnc_enc (v : EncOut) : (s.setOutEnc v).enc = s.enc := rfl
@[simp] theorem setOutEnc_encCk (v : EncOut) : (s.setOutEnc v).encCk = s.encCk := rfl
@[simp] theorem setOutEnc_ports (v : EncOut) : (s.setOutEnc v).ports = s.ports := rfl
@[simp] theorem setOutEnc_inputs (v : EncOut) : (s.setOutEnc v).inputs = s.inputs := rfl
@[simp] theorem setOutEnc_out_ck (v : EncOut) : (s.setOutEnc v).out.ck = s.out.ck := rfl
@[simp] theorem setOutEnc_out_df (v : EncOut) : (s.setOutEnc v).out.df = s.out.df := rfl
@[simp] theorem setOutEnc_out_enc (v : EncOut) : (s.setOutEnc v).out.enc = v := rfl
@[simp] theorem setOutEnc_out_dp (v : EncOut) : (s.setOutEnc v).out.dp = s.out.dp := rfl

@[simp] theorem setOutDp_cfg (v : DispOut) : (s.setOutDp v).cfg = s.cfg := rfl
@[simp] theorem setOutDp_ck (v : DispOut) : (s.setOutDp v).ck = s.ck := rfl
@[simp] theorem setOutDp_df (v : DispOut) : (s.setOutDp v).df = s.df := rfl
@[simp] theorem setOutDp_ckDf (v : DispOut) : (s.setOutDp v).ckDf = s.ckDf := rfl
@[simp] theorem setOutDp_buf (v : DispOut) : (s.setOutDp v).buf = s.buf := rfl
@[simp] theorem setOutDp_shown (v : DispOut) : (s.setOutDp v).shown = s.shown := rfl
@[simp] theorem setOutDp_enc (v : DispOut) : (s.setOutDp v).enc = s.enc := rfl
@[simp] theorem setOutDp_encCk (v : DispOut) : (s.setOutDp v).encCk = s.encCk := rfl
@[simp] theorem setOutDp_ports (v : DispOut) : (s.setOutDp v).ports = s.ports := rfl
@[simp] theorem setOutDp_inputs (v : DispOut) : (s.setOutDp v).inputs = s.inputs := rfl
@[simp] theorem setOutDp_out_ck (v : DispOut) : (s.setOutDp v).out.ck = s.out.ck := rfl
@[simp] theorem setOutDp_out_df (v : DispOut) : (s.setOutDp v).out.df = s.out.df := rfl
@[simp] theorem setOutDp_out_enc (v : DispOut) : (s.setOutDp v).out.enc = s.out.enc := rfl
@[simp] theorem setOutDp_out_dp (v : DispOut) : (s.setOutDp v).out.dp = v := rfl

end Sys2Proof.Machine
end

