-- ==== Sys2Proof/Laws/Basics.lean ====
section
/-! SUPPORT. The small lemmas of the shared operations: sequencing, byte order, checksum, the return to SYNC. -/

namespace Sys2Proof.Machine

/-! Sequencing. -/

@[simp] theorem andThen_next {α β : Type} (a : α) (f : α → Result β) : andThen (.next a) f = f a := rfl

@[simp] theorem andThen_fault {α β : Type} (e : Fault) (f : α → Result β) : andThen (.fault e) f = .fault e := rfl

@[simp] theorem andThen_refused {α β : Type} (e : Refusal) (f : α → Result β) :
    andThen (.refused e) f = .refused e := rfl

/-- A sequence answers a next value exactly when both parts do. -/
theorem andThen_eq_next {α β : Type} {o : Result α} {f : α → Result β} {b : β} :
    andThen o f = .next b ↔ ∃ a, o = .next a ∧ f a = .next b := by
  cases o with
  | next a => simp
  | fault e => simp
  | refused e => simp

/-! Byte order (R97). -/

theorem lenOf_toNat (lo hi : Byte) : (lenOf lo hi).toNat = 256 * hi.toNat + lo.toNat := by
  have h := lo.isLt
  unfold lenOf
  rw [BitVec.toNat_append, Nat.shiftLeft_eq, Nat.mul_comm _ (2 ^ 8), ← Nat.two_pow_add_eq_or_of_lt h]

theorem lenOf_lenLo_lenHi (n : Half) : lenOf (lenLo n) (lenHi n) = n := by
  have h := n.isLt
  apply BitVec.eq_of_toNat_eq
  rw [lenOf_toNat]
  simp only [lenLo, lenHi, BitVec.extractLsb'_toNat, Nat.shiftRight_eq_div_pow]
  omega

theorem lenLo_toNat (n : Half) : (lenLo n).toNat = n.toNat % 256 := by
  simp [lenLo, BitVec.extractLsb'_toNat]

theorem lenHi_toNat (n : Half) : (lenHi n).toNat = n.toNat / 256 := by
  have h := n.isLt
  simp only [lenHi, BitVec.extractLsb'_toNat, Nat.shiftRight_eq_div_pow]
  omega

theorem counted_iff (s : List Byte) : counted s = true ↔ s.length ≤ 65535 := by simp [counted]

theorem lenField_toNat {s : List Byte} (h : s.length ≤ 65535) : (lenField s).toNat = s.length := by
  simp [lenField]; omega

theorem shiftIn_toNat (sr : Half) (b : Byte) : (shiftIn sr b).toNat = sr.toNat % 256 * 256 + b.toNat := by
  have h := b.isLt
  unfold shiftIn
  rw [BitVec.toNat_append, Nat.shiftLeft_eq, Nat.mul_comm _ (2 ^ 8), ← Nat.two_pow_add_eq_or_of_lt h]
  simp only [BitVec.extractLsb'_toNat, Nat.shiftRight_zero, Nat.reducePow]
  omega

/-- The sync word is matched exactly by `0xB5` and then `0x62` (R98). -/
theorem shiftIn_eq_syncWord (sr : Half) (b : Byte) :
    shiftIn sr b = syncWord ↔ sr.toNat % 256 = 0xB5 ∧ b = 0x62 := by
  have hb := b.isLt
  constructor
  · intro h
    have h := congrArg BitVec.toNat h
    rw [shiftIn_toNat] at h
    simp only [syncWord, BitVec.toNat_ofNat, Nat.reducePow] at h
    refine ⟨by omega, BitVec.eq_of_toNat_eq ?_⟩
    show b.toNat = 98
    omega
  · rintro ⟨h, rfl⟩
    apply BitVec.eq_of_toNat_eq
    rw [shiftIn_toNat, h]
    rfl

/-! The checksum (R121, R123). -/

@[simp] theorem Ck.pushAll_nil (c : Ck) : c.pushAll [] = c := rfl

@[simp] theorem Ck.pushAll_cons (c : Ck) (d : Byte) (s : List Byte) : c.pushAll (d :: s) = (c.push d).pushAll s := rfl

theorem Ck.pushAll_append (c : Ck) (s t : List Byte) : c.pushAll (s ++ t) = (c.pushAll s).pushAll t := by
  simp [Ck.pushAll]

theorem cksum_append_one (s : List Byte) (d : Byte) : cksum (s ++ [d]) = (cksum s).push d := by
  simp [cksum, Ck.pushAll_append]

theorem Ck.zero_push (d : Byte) : Ck.zero.push d = { a := d, b := d } := by simp [Ck.push, Ck.zero]

/-- `a` of a run of pushes: the sum of the bytes (R22). -/
theorem Ck.pushAll_a (c : Ck) (s : List Byte) : (c.pushAll s).a = c.a + s.sum := by
  induction s generalizing c with
  | nil => simp
  | cons d s ih => rw [Ck.pushAll_cons, ih]; simp only [Ck.push, List.sum_cons, BitVec.add_assoc]

/-! The return to SYNC, and what it leaves (R232). -/

section Abandon

variable (s : State)

@[simp] theorem toSync_df : (toSync s).df = .sync 0x0000#16 := rfl
@[simp] theorem abandon_df : (abandon s).df = .sync 0x0000#16 := rfl
@[simp] theorem abandon_buf : (abandon s).buf = [] := rfl
@[simp] theorem abandon_shown : (abandon s).shown = Shown.closed := rfl
@[simp] theorem abandon_cfg : (abandon s).cfg = s.cfg := rfl
@[simp] theorem abandon_ck : (abandon s).ck = s.ck := rfl
@[simp] theorem abandon_ckDf : (abandon s).ckDf = s.ckDf := rfl
@[simp] theorem abandon_enc : (abandon s).enc = s.enc := rfl
@[simp] theorem abandon_encCk : (abandon s).encCk = s.encCk := rfl
@[simp] theorem abandon_out : (abandon s).out = s.out := rfl
@[simp] theorem abandon_ports : (abandon s).ports = s.ports := rfl
@[simp] theorem abandon_inputs : (abandon s).inputs = s.inputs := rfl

/-- The whole effect of a DF error. -/
theorem raiseDf_eq (o : DfOutcome) : raiseDf o s = .next (abandon s, o) := rfl

end Abandon

/-! Presenting an Envelope (R37). -/

section Present

variable (c m : Byte) (len : Half) (s : State)

@[simp] theorem present_df : (present c m len s).df = .sync 0x0000#16 := rfl
@[simp] theorem present_buf : (present c m len s).buf = Memory.below s.buf len.toNat := rfl
@[simp] theorem present_shown : (present c m len s).shown = { cls := some c, mid := some m, len := some len } := rfl
@[simp] theorem present_cfg : (present c m len s).cfg = s.cfg := rfl
@[simp] theorem present_ck : (present c m len s).ck = s.ck := rfl
@[simp] theorem present_ckDf : (present c m len s).ckDf = s.ckDf := rfl
@[simp] theorem present_enc : (present c m len s).enc = s.enc := rfl
@[simp] theorem present_encCk : (present c m len s).encCk = s.encCk := rfl
@[simp] theorem present_out : (present c m len s).out = s.out := rfl
@[simp] theorem present_ports : (present c m len s).ports = s.ports := rfl
@[simp] theorem present_inputs : (present c m len s).inputs = s.inputs := rfl

end Present

/-! `MSG_BUF` accesses. -/

/-- A store inside `MSG_BUF` succeeds (R62). -/
theorem memWrite_eq {addr : Half} {v : Byte} {s : State} (h : addr.toNat < s.cfg.maxLen.toNat) :
    memWrite addr v s = .next (s.setBuf (Memory.write s.buf addr.toNat v)) := if_pos h

/-- What a store answers, it answers for an index that exists. -/
theorem memWrite_eq_next {addr : Half} {v : Byte} {s t : State} :
    memWrite addr v s = .next t ↔
      addr.toNat < s.cfg.maxLen.toNat ∧ t = s.setBuf (Memory.write s.buf addr.toNat v) := by
  unfold memWrite
  split
  · next h => simp [h, eq_comm]
  · next h => simp [h]

theorem memRead_eq_next {addr : Half} {v : Byte} {s : State} :
    memRead addr s = .next v ↔ Memory.read s.buf addr.toNat = some v := by
  unfold memRead
  split
  · next w h => simp [h]
  · next h => simp [h]

theorem readMsg_eq_next {len : Half} {msg : List Byte} {s : State} :
    readMsg len s = .next msg ↔ Memory.readFrom s.buf 0 len.toNat = some msg := by
  unfold readMsg
  split
  · next w h => simp [h]
  · next h => simp [h]

/-- A read never changes what another unit sees: `oversize` and the buffer bound are unsigned comparisons (R146). -/
theorem oversize_iff (cfg : Config) (n : Half) : oversize cfg n = true ↔ n.toNat > cfg.maxLen.toNat := by
  simp [oversize]

theorem wireLen_toNat (n : Half) : (wireLen n).toNat = n.toNat + 8 := by
  have h := n.isLt
  simp only [wireLen, BitVec.toNat_add, BitVec.toNat_setWidth, BitVec.toNat_ofNat]
  omega

theorem lacksCapacity_iff (cap : BitVec 17) (n : Half) :
    lacksCapacity cap (wireLen n) = true ↔ cap.toNat < n.toNat + 8 := by
  simp [lacksCapacity, wireLen_toNat]

end Sys2Proof.Machine
end

