-- ==== Sys2Proof/Laws/Codec.lean ====
section
/-! SUPPORT. The encoder's pieces read back by the decoder's pieces (R64, R97, R128). -/

namespace Sys2Proof.Machine

/-- The value of a concatenation. -/
theorem append_toNat {w v : Nat} (x : BitVec w) (y : BitVec v) : (x ++ y).toNat = 2 ^ v * x.toNat + y.toNat := by
  rw [BitVec.toNat_append, Nat.shiftLeft_eq, Nat.mul_comm _ (2 ^ v), ← Nat.two_pow_add_eq_or_of_lt y.isLt]

/-- A type index is the concatenation of its four bytes. -/
theorem bytes32_join (t : BitVec 32) :
    t.extractLsb' 24 8 ++ (t.extractLsb' 16 8 ++ (t.extractLsb' 8 8 ++ t.extractLsb' 0 8)) = t := by
  have h := t.isLt
  apply BitVec.eq_of_toNat_eq
  rw [append_toNat, append_toNat, append_toNat]
  simp only [BitVec.extractLsb'_toNat, Nat.shiftRight_eq_div_pow]
  omega

/-- A capacity is the concatenation of its two bytes and its top bit. -/
theorem bytes17_join (t : BitVec 17) :
    ((t.extractLsb' 16 1).setWidth 8).extractLsb' 0 1 ++ (t.extractLsb' 8 8 ++ t.extractLsb' 0 8) = t := by
  have h := t.isLt
  apply BitVec.eq_of_toNat_eq
  rw [append_toNat, append_toNat]
  simp only [BitVec.extractLsb'_toNat, Nat.shiftRight_eq_div_pow, BitVec.toNat_setWidth]
  omega

/-- The unused bits of a capacity's top byte are zero. -/
theorem bytes17_top (t : BitVec 17) : (t.extractLsb' 16 1).setWidth 8 &&& 0xFE#8 = 0#8 := by
  have h : ∀ x : BitVec 1, x.setWidth 8 &&& 0xFE#8 = 0#8 := by decide
  exact h _

theorem lenLo_ofNat (n : Nat) : lenLo (BitVec.ofNat 16 n) = BitVec.ofNat 8 n := by
  apply BitVec.eq_of_toNat_eq
  rw [lenLo_toNat]
  simp only [BitVec.toNat_ofNat]
  omega

theorem lenHi_ofNat (n : Nat) : lenHi (BitVec.ofNat 16 n) = BitVec.ofNat 8 (n / 256) := by
  apply BitVec.eq_of_toNat_eq
  rw [lenHi_toNat]
  simp only [BitVec.toNat_ofNat]
  omega

/-- A counted byte sequence is read back, and the rest stays. -/
theorem takeCounted_counted16 {s : List Byte} (rest : List Byte) (h : s.length ≤ 65535) :
    takeCounted (counted16 s ++ rest) = .ok (s, rest) := by
  have : (lenOf (lenLo (lenField s)) (lenHi (lenField s))).toNat = s.length := by
    rw [lenOf_lenLo_lenHi, lenField_toNat h]
  simp [counted16, takeCounted, this, takeBytes]

/-- What a counted read answers fits the length field. -/
theorem takeCounted_ok {bs s rest : List Byte} (h : takeCounted bs = .ok (s, rest)) : s.length ≤ 65535 := by
  unfold takeCounted at h
  split at h
  · next lo hi r =>
    unfold takeBytes at h
    split at h
    · cases h
      have := (lenOf lo hi).isLt
      rw [List.length_take]
      omega
    · cases h
  · cases h

/-- The number of bytes a wire image has (R101). -/
theorem frameBytes_length (cls id : Byte) (p : List Byte) : (frameBytes cls id p).length = p.length + 8 := by
  simp [frameBytes, wireBytes, frameBody, counted16]

/-- A wire image is the encoding of the wire frame (R93). -/
theorem encode_frame (cls id : Byte) (p : List Byte) (a b : Byte) :
    encode (.frame cls id p a b) = wireBytes cls id p a b := by
  simp [encode, wireBytes, frameBody, sync1, sync2]

end Sys2Proof.Machine
end

