-- ==== Sys2Proof/Laws/Encoder.lean ====
section
/-! SUPPORT. What ENC's operations can do (R181 to R186), and what they leave unchanged. -/

namespace Sys2Proof.Machine

variable {s t : State}

/-- What no operation of ENC changes. -/
def encFrame (s t : State) : Prop :=
  t.cfg = s.cfg ∧ t.ck = s.ck ∧ t.df = s.df ∧ t.ckDf = s.ckDf ∧ t.buf = s.buf ∧ t.shown = s.shown ∧
    t.ports = s.ports ∧ t.inputs = s.inputs ∧ t.out.ck = s.out.ck ∧ t.out.df = s.out.df ∧ t.out.dp = s.out.dp

theorem encFrame_refl (s : State) : encFrame s s := ⟨rfl, rfl, rfl, rfl, rfl, rfl, rfl, rfl, rfl, rfl, rfl⟩

/-- A payload the length field can count is written when ENC is idle (R181, R182). -/
theorem execEncFrame_eq_next {cls id : Byte} {p : List Byte} :
    execEncFrame cls id p s = .next t ↔ s.enc.isBusy = false ∧ p.length ≤ 65535 ∧ t = writeFrame cls id p s := by
  unfold execEncFrame
  rw [← counted_iff]
  cases s.enc.isBusy <;> cases counted p <;> simp [eq_comm]

/-- Every index into a table fits the width R42 gives it. -/
theorem lt_indexWidth {i n : Nat} (h : i < n) : i < 2 ^ indexWidth n := by
  unfold indexWidth
  split
  · exact lt_of_lt_of_le h (by have := Nat.one_le_two_pow (n := max 1 0); omega)
  · have h1 : n - 1 < 2 ^ (Nat.log2 (n - 1) + 1) := Nat.lt_log2_self
    have h2 : 2 ^ (Nat.log2 (n - 1) + 1) ≤ 2 ^ max 1 (Nat.log2 (n - 1) + 1) :=
      Nat.pow_le_pow_right (by omega) (by omega)
    omega

/-- A number is a type index of `TW` bits where it fits them. -/
theorem typeIndex_eq {cfg : Config} {n : Nat} :
    typeIndex cfg n = if n < 2 ^ typeWidth cfg then some (BitVec.ofNat _ n) else none := rfl

/-- Looking a type up narrows its index to `TW` bits, which drops no index of the registry (R42, R183). -/
theorem encRow_eq {n : Nat} :
    encRow n s = match s.cfg.registry[n]? with
      | some r => .next r
      | none => .refused .badTypeIndex := by
  unfold encRow
  rw [typeIndex_eq]
  by_cases h : n < 2 ^ typeWidth s.cfg
  · have e : (BitVec.ofNat (typeWidth s.cfg) n).toNat = n := by simpa using Nat.mod_eq_of_lt h
    rw [if_pos h]
    cases k : s.cfg.registry[n]? <;> simp only [e, k]
  · rw [if_neg h, List.getElem?_eq_none]
    by_contra k
    exact h (lt_indexWidth (by omega))

/-- The premise of R183 on the type index. -/
theorem encRow_eq_next {n : Nat} {r : TypeRow} : encRow n s = .next r ↔ s.cfg.registry[n]? = some r := by
  rw [encRow_eq]
  cases s.cfg.registry[n]? <;> simp

/-- An index outside the registry is refused (R183). -/
theorem encRow_refused {n : Nat} (h : s.cfg.registry.length ≤ n) : encRow n s = .refused .badTypeIndex := by
  rw [encRow_eq, List.getElem?_eq_none h]

/-- The row that `enc_type` selects (R42, R48). -/
theorem portRow_eq_next {t : Bits} {r : TypeRow} :
    portRow t s = .next r ↔ t.width = typeWidth s.cfg ∧ s.cfg.registry[t.bits.toNat]? = some r := by
  unfold portRow
  split
  · next h => simp [h, encRow_eq_next]
  · next h => simp [h]

/-- Everything `ENC.MSG` can answer (R183). -/
theorem execEncMsg_eq_next {n : BitVec 32} {v : Value} {cap : BitVec 17} :
    execEncMsg n v cap s = .next t ↔
      s.enc.isBusy = false ∧ ∃ r, encRow n.toNat s = .next r ∧
        t = if cap.toNat < r.len.toNat + 8 then s.setOutEnc .errCapacity
            else writeFrame r.cls r.id (Config.encodeValue r.codec r.len.toNat v).toList s := by
  unfold execEncMsg
  cases s.enc.isBusy with
  | true => simp
  | false =>
    simp only [Bool.false_eq_true, if_false, true_and, andThen_eq_next]
    refine exists_congr fun r => and_congr_right fun _ => ?_
    simp only [lacksCapacity_iff]
    split <;> simp [eq_comm]

theorem encGoFrame_eq_next {p : PortsIn} :
    encGoFrame p s = .next t ↔ s.enc.isBusy = false ∧ t = startJob p.encCls p.encId p.encLen p.encSrc s := by
  unfold encGoFrame
  cases s.enc.isBusy <;> simp [eq_comm]

theorem encGoMsg_eq_next {p : PortsIn} :
    encGoMsg p s = .next t ↔
      s.enc.isBusy = false ∧ ∃ r, portRow p.encType s = .next r ∧
        t = if p.encCap.toNat < r.len.toNat + 8 then s.setOutEnc .errCapacity
            else startJob r.cls r.id r.len p.encSrc s := by
  unfold encGoMsg
  cases s.enc.isBusy with
  | true => simp
  | false =>
    simp only [Bool.false_eq_true, if_false, true_and, andThen_eq_next]
    refine exists_congr fun r => and_congr_right fun _ => ?_
    simp only [lacksCapacity_iff]
    split <;> simp [eq_comm]

/-- What emitting a byte leaves in ENC (R185). -/
@[simp] theorem emit_enc (byte : Byte) (job : EncJob) (next : EncPhase) (s : State) :
    (emit byte job next s).enc = .busy { job with phase := next } := rfl
@[simp] theorem emit_encCk (byte : Byte) (job : EncJob) (next : EncPhase) (s : State) :
    (emit byte job next s).encCk = s.encCk := rfl
@[simp] theorem emit_outEnc (byte : Byte) (job : EncJob) (next : EncPhase) (s : State) :
    (emit byte job next s).out.enc = .emitted byte none := rfl

/-- Emitting a byte changes nothing but ENC. -/
theorem emit_frame (byte : Byte) (job : EncJob) (next : EncPhase) (s : State) : encFrame s (emit byte job next s) :=
  ⟨rfl, rfl, rfl, rfl, rfl, rfl, rfl, rfl, rfl, rfl, rfl⟩

/-- An output step changes only ENC (R185). -/
theorem tickJob_frame {d : Option Byte} {job : EncJob} (h : tickJob d job s = .next t) : encFrame s t := by
  unfold tickJob at h
  split at h <;> first
    | (cases h; exact ⟨rfl, rfl, rfl, rfl, rfl, rfl, rfl, rfl, rfl, rfl, rfl⟩)
    | (obtain ⟨b, -, h⟩ := andThen_eq_next.1 h
       cases h; exact ⟨rfl, rfl, rfl, rfl, rfl, rfl, rfl, rfl, rfl, rfl, rfl⟩)

theorem encTick_frame {d : Option Byte} (h : encTick d s = .next t) : encFrame s t := by
  unfold encTick at h
  split at h
  · cases h; exact encFrame_refl _
  · exact tickJob_frame h

theorem startJob_frame (cls id : Byte) (len : Half) (src : PayloadSrc) (s : State) :
    encFrame s (startJob cls id len src s) := ⟨rfl, rfl, rfl, rfl, rfl, rfl, rfl, rfl, rfl, rfl, rfl⟩

theorem encGoFrame_frame {p : PortsIn} (h : encGoFrame p s = .next t) : encFrame s t := by
  obtain ⟨-, rfl⟩ := encGoFrame_eq_next.1 h
  exact startJob_frame ..

theorem encGoMsg_frame {p : PortsIn} (h : encGoMsg p s = .next t) : encFrame s t := by
  obtain ⟨-, r, -, rfl⟩ := encGoMsg_eq_next.1 h
  split
  · exact ⟨rfl, rfl, rfl, rfl, rfl, rfl, rfl, rfl, rfl, rfl, rfl⟩
  · exact startJob_frame ..

/-- The phase stays inside the payload (R185). -/
theorem phaseInv_afterLen (len : Half) : phaseInv len (afterLen len) := by
  unfold afterLen
  split
  · trivial
  · next h => exact Nat.pos_of_ne_zero fun h0 => h (BitVec.eq_of_toNat_eq (by simpa using h0))

theorem phaseInv_afterPayload (idx len : Half) : phaseInv len (afterPayload idx len) := by
  unfold afterPayload
  split
  · next k =>
    have := len.isLt
    show (idx + 1#16).toNat < len.toNat
    simp only [BitVec.toNat_add, BitVec.toNat_ofNat]
    omega
  · trivial

/-- An output step keeps ENC's part of the invariant. -/
theorem tickJob_keeps {d : Option Byte} {job : EncJob} (h : tickJob d job s = .next t) : encInv t.enc := by
  unfold tickJob at h
  split at h
  · cases h; trivial
  · cases h; trivial
  · cases h; trivial
  · cases h; trivial
  · cases h; trivial
  · cases h; exact phaseInv_afterLen _
  · obtain ⟨b, -, h⟩ := andThen_eq_next.1 h
    cases h
    exact phaseInv_afterPayload _ _
  · cases h; trivial
  · cases h; trivial

/-- What the guard of a re-encoding lets through (R185). -/
theorem guardSource_eq_next {r : Result State} :
    guardSource s r = .next t ↔ r = .next t ∧ sourceChanged s t = false := by
  unfold guardSource
  rw [andThen_eq_next]
  constructor
  · rintro ⟨u, h, k⟩
    split at k
    · cases k
    · next e => cases k; exact ⟨h, by simpa using e⟩
  · rintro ⟨h, k⟩
    exact ⟨t, h, by simp [k]⟩

/-- With no re-encoding in progress afterwards the guard lets everything through. -/
theorem sourceChanged_idle (h : t.enc = .idle) : sourceChanged s t = false := by simp [sourceChanged, h]

/-- A step that leaves `MSG_BUF` in its place changes no source. -/
theorem sourceChanged_same (h : t.buf = s.buf) : sourceChanged s t = false := by
  unfold sourceChanged
  split
  · rw [h]; simp
  · rfl

/-- A step that leaves no byte in `MSG_BUF` changes no source: what is gone has no value to emit (R26). -/
theorem sourceChanged_nil (h : t.buf = []) : sourceChanged s t = false := by
  unfold sourceChanged
  split
  · rw [h]; simp
  · rfl

/-- A re-encoding of presented bytes has no source in `MSG_BUF`. -/
theorem sourceChanged_port {job : EncJob} (h : t.enc = .busy job) (k : job.src = .port) :
    sourceChanged s t = false := by
  unfold sourceChanged
  rw [h]
  simp only [k]
  rfl

end Sys2Proof.Machine
end

