-- ==== Sys2Proof/Laws/Memory.lean ====
section
/-! SUPPORT. The laws of `MSG_BUF` as a list of cells: read after write, and that every operation keeps the canonical
form. -/

namespace Sys2Proof.Machine

@[simp] theorem Memory.read_nil (a : Nat) : Memory.read [] a = none := rfl

theorem Memory.read_write_same (m : Memory) (a : Nat) (v : Byte) : Memory.read (Memory.write m a v) a = some v := by
  induction m with
  | nil => simp [Memory.write, Memory.read]
  | cons c rest ih =>
    obtain ⟨b, w⟩ := c
    unfold Memory.write
    split
    · simp [Memory.read]
    · split
      · simp [Memory.read]
      · next h => simp [Memory.read, ih, show b ≠ a from fun e => h e.symm]

theorem Memory.read_write_other (m : Memory) {a b : Nat} (v : Byte) (h : b ≠ a) :
    Memory.read (Memory.write m a v) b = Memory.read m b := by
  induction m with
  | nil => simp [Memory.write, Memory.read, Ne.symm h]
  | cons c rest ih =>
    obtain ⟨k, w⟩ := c
    unfold Memory.write
    split
    · simp [Memory.read, Ne.symm h]
    · split
      · next e => subst e; simp [Memory.read, Ne.symm h]
      · simp [Memory.read, ih]

theorem Memory.mem_write (m : Memory) (a : Nat) (v : Byte) (c : Host.Cell) (h : c ∈ Memory.write m a v) :
    c = (a, v) ∨ c ∈ m := by
  induction m with
  | nil => simpa [Memory.write] using h
  | cons d rest ih =>
    obtain ⟨b, w⟩ := d
    unfold Memory.write at h
    split at h
    · simpa using h
    · split at h
      · rcases List.mem_cons.1 h with h | h
        · exact .inl h
        · exact .inr (List.mem_cons_of_mem _ h)
      · rcases List.mem_cons.1 h with h | h
        · exact .inr (h ▸ List.mem_cons_self)
        · exact (ih h).imp id (List.mem_cons_of_mem _)

theorem Memory.write_wf {m : Memory} (h : Memory.wf m) (a : Nat) (v : Byte) : Memory.wf (Memory.write m a v) := by
  induction m with
  | nil => simp [Memory.write, Memory.wf]
  | cons d rest ih =>
    obtain ⟨b, w⟩ := d
    obtain ⟨hb, hr⟩ := List.pairwise_cons.1 h
    unfold Memory.write
    split
    · next hlt =>
      refine List.pairwise_cons.2 ⟨fun c hc => ?_, h⟩
      rcases List.mem_cons.1 hc with hc | hc
      · simpa [hc] using hlt
      · exact lt_trans hlt (hb c hc)
    · split
      · next e => subst e; exact List.pairwise_cons.2 ⟨hb, hr⟩
      · next h1 h2 =>
        refine List.pairwise_cons.2 ⟨fun c hc => ?_, ih hr⟩
        rcases Memory.mem_write rest a v c hc with hc | hc
        · subst hc; show b < a; omega
        · exact hb c hc

theorem Memory.below_wf {m : Memory} (h : Memory.wf m) (n : Nat) : Memory.wf (Memory.below m n) := h.filter _

theorem Memory.nil_wf : Memory.wf [] := List.Pairwise.nil

theorem Memory.read_below (m : Memory) (n a : Nat) :
    Memory.read (Memory.below m n) a = if a < n then Memory.read m a else none := by
  induction m with
  | nil => simp [Memory.below, Memory.read]
  | cons d rest ih =>
    obtain ⟨b, w⟩ := d
    unfold Memory.below at ih ⊢
    by_cases hb : b < n
    · simp only [List.filter_cons, hb, decide_true, if_true, Memory.read, ih]
      by_cases e : b = a
      · subst e; simp [hb]
      · simp [e]
    · simp only [List.filter_cons, hb, decide_false, Bool.false_eq_true, if_false, ih, Memory.read]
      by_cases e : b = a
      · subst e; simp [hb]
      · simp [e]

/-- The bytes read from an index on are the cells there. -/
theorem Memory.readFrom_get {m : Memory} {start n : Nat} {l : List Byte} (h : Memory.readFrom m start n = some l) :
    l.length = n ∧ ∀ i, i < n → Memory.read m (start + i) = l[i]? := by
  induction n generalizing start l with
  | zero => simp [Memory.readFrom] at h; simp [← h]
  | succ n ih =>
    unfold Memory.readFrom at h
    split at h
    · next v vs hv hvs =>
      cases h
      obtain ⟨hl, hr⟩ := ih hvs
      refine ⟨by simp [hl], fun i hi => ?_⟩
      cases i with
      | zero => simpa using hv
      | succ i =>
        have := hr i (by omega)
        simpa [Nat.add_assoc, Nat.add_comm 1 i] using this
    · cases h

/-- Where every index has a value, the bytes can be read. -/
theorem Memory.readFrom_isSome {m : Memory} {start n : Nat}
    (h : ∀ i, i < n → (Memory.read m (start + i)).isSome = true) : ∃ l, Memory.readFrom m start n = some l := by
  induction n generalizing start with
  | zero => exact ⟨[], rfl⟩
  | succ n ih =>
    obtain ⟨v, hv⟩ := Option.isSome_iff_exists.1 (h 0 (by omega))
    obtain ⟨l, hl⟩ := ih (start := start + 1) fun i hi => by
      have := h (i + 1) (by omega)
      rwa [Nat.add_comm i 1, ← Nat.add_assoc] at this
    exact ⟨v :: l, by simp [Memory.readFrom, hl, show Memory.read m start = some v from hv]⟩

theorem Memory.readFrom_of_holds {m : Memory} {n : Nat} (h : bufHolds m n) : ∃ l, Memory.readFrom m 0 n = some l :=
  Memory.readFrom_isSome fun i hi => by simpa using h i hi

/-- Reading one byte more. -/
theorem Memory.readFrom_succ_last {m : Memory} {start n : Nat} {l : List Byte} {v : Byte}
    (h : Memory.readFrom m start n = some l) (hv : Memory.read m (start + n) = some v) :
    Memory.readFrom m start (n + 1) = some (l ++ [v]) := by
  induction n generalizing start l with
  | zero =>
    simp [Memory.readFrom] at h
    subst h
    have : Memory.read m start = some v := by simpa using hv
    simp [Memory.readFrom, this]
  | succ n ih =>
    unfold Memory.readFrom at h
    split at h
    · next w ws hw hws =>
      cases h
      have := ih hws (by rwa [Nat.add_assoc, Nat.add_comm 1 n])
      unfold Memory.readFrom
      simp [hw, this]
    · cases h

/-- Reads agree where the cells agree. -/
theorem Memory.readFrom_congr {m m' : Memory} {start n : Nat}
    (h : ∀ i, i < n → Memory.read m (start + i) = Memory.read m' (start + i)) :
    Memory.readFrom m start n = Memory.readFrom m' start n := by
  induction n generalizing start with
  | zero => rfl
  | succ n ih =>
    have h0 : Memory.read m start = Memory.read m' start := h 0 (by omega)
    have h1 : Memory.readFrom m (start + 1) n = Memory.readFrom m' (start + 1) n := ih fun i hi => by
      have := h (i + 1) (by omega)
      rwa [Nat.add_comm i 1, ← Nat.add_assoc] at this
    simp [Memory.readFrom, h0, h1]

theorem bufHolds_write {m : Memory} {n a : Nat} (v : Byte) (h : bufHolds m n) : bufHolds (Memory.write m a v) n := by
  intro i hi
  by_cases e : i = a
  · subst e; simp [Memory.read_write_same]
  · rw [Memory.read_write_other _ _ e]; exact h i hi

theorem bufHolds_write_next {m : Memory} {n : Nat} (v : Byte) (h : bufHolds m n) :
    bufHolds (Memory.write m n v) (n + 1) := by
  intro i hi
  by_cases e : i = n
  · subst e; simp [Memory.read_write_same]
  · rw [Memory.read_write_other _ _ e]; exact h i (by omega)

theorem bufWithin_write {m : Memory} {n a : Nat} (v : Byte) (h : bufWithin m n) (ha : a < n) :
    bufWithin (Memory.write m a v) n := by
  intro i hi
  rw [Memory.read_write_other _ _ (by omega)]
  exact h i hi

theorem bufHolds_below {m : Memory} {n : Nat} (h : bufHolds m n) : bufHolds (Memory.below m n) n := by
  intro i hi
  rw [Memory.read_below, if_pos hi]
  exact h i hi

theorem bufWithin_below {m : Memory} {n k : Nat} (h : bufWithin m k) : bufWithin (Memory.below m n) k := by
  intro i hi
  rw [Memory.read_below, h i hi, ite_self]

theorem bufHolds_zero (m : Memory) : bufHolds m 0 := fun i hi => absurd hi (by omega)

theorem bufWithin_nil (n : Nat) : bufWithin [] n := fun _ _ => rfl

/-- Memory at reset is in canonical form. -/
theorem State.reset_buf_wf : Memory.wf State.reset.buf := Memory.nil_wf

end Sys2Proof.Machine
end

