-- ==== Sys2Proof/Laws/Deframer.lean ====
section
/-! SUPPORT. What one push can do (R141 to R150): the step rule of each state, what every push leaves unchanged, and that
a push completes and keeps the invariant. -/

namespace Sys2Proof.Machine

variable {s t : State} {b : Byte} {o : DfOutcome}

theorem pushByte_sync {sr : Half} (h : s.df = .sync sr) : pushByte b s = stepSync b sr s := by simp [pushByte, h]
theorem pushByte_cls (h : s.df = .cls) : pushByte b s = stepClass b s := by simp [pushByte, h]
theorem pushByte_id {c : Byte} (h : s.df = .id c) : pushByte b s = stepId b c s := by simp [pushByte, h]
theorem pushByte_lenLsb {c m : Byte} (h : s.df = .lenLsb c m) : pushByte b s = stepLenLsb b c m s := by
  simp [pushByte, h]
theorem pushByte_lenMsb {c m lo : Byte} (h : s.df = .lenMsb c m lo) : pushByte b s = stepLenMsb b c m lo s := by
  simp [pushByte, h]
theorem pushByte_message {c m : Byte} {len cnt : Half} (h : s.df = .message c m len cnt) :
    pushByte b s = stepMessage b c m len cnt s := by simp [pushByte, h]
theorem pushByte_cka {c m ea eb : Byte} {len : Half} (h : s.df = .cka c m len ea eb) :
    pushByte b s = stepCka b c m len ea eb s := by simp [pushByte, h]
theorem pushByte_ckb {c m ea eb : Byte} {len : Half} (h : s.df = .ckb c m len ea eb) :
    pushByte b s = stepCkb b c m len eb s := by simp [pushByte, h]

/-- What no push changes. -/
def pushFrame (s t : State) : Prop :=
  t.cfg = s.cfg ∧ t.ck = s.ck ∧ t.enc = s.enc ∧ t.encCk = s.encCk ∧ t.out = s.out ∧ t.ports = s.ports ∧
    t.inputs = s.inputs

theorem pushFrame_refl (s : State) : pushFrame s s := ⟨rfl, rfl, rfl, rfl, rfl, rfl, rfl⟩

theorem pushFrame_trans {u : State} (h : pushFrame s t) (k : pushFrame t u) : pushFrame s u := by
  obtain ⟨h1, h2, h3, h4, h5, h6, h7⟩ := h
  obtain ⟨k1, k2, k3, k4, k5, k6, k7⟩ := k
  exact ⟨k1.trans h1, k2.trans h2, k3.trans h3, k4.trans h4, k5.trans h5, k6.trans h6, k7.trans h7⟩

/-- Everything a MESSAGE step can answer (R148). -/
theorem stepMessage_eq_next {c m : Byte} {len cnt : Half} :
    stepMessage b c m len cnt s = .next (t, o) ↔
      cnt.toNat < s.cfg.maxLen.toNat ∧ o = .noOutput ∧
        t = if cnt + 1#16 = len then
              finishPayload c m len (pushCkDf b (s.setBuf (Memory.write s.buf cnt.toNat b)))
            else (pushCkDf b (s.setBuf (Memory.write s.buf cnt.toNat b))).setDf (.message c m len (cnt + 1#16)) := by
  unfold stepMessage
  rw [andThen_eq_next]
  simp only [memWrite_eq_next]
  constructor
  · rintro ⟨u, ⟨h, rfl⟩, k⟩
    split at k <;> simp_all
  · rintro ⟨h, rfl, rfl⟩
    exact ⟨_, ⟨h, rfl⟩, by split <;> rfl⟩

/-- Everything a CKB step can answer (R150). -/
theorem stepCkb_eq_next {c m eb : Byte} {len : Half} :
    stepCkb b c m len eb s = .next (t, o) ↔
      (b = eb ∧ ∃ msg, Memory.readFrom s.buf 0 len.toNat = some msg ∧ t = present c m len s ∧
        o = .envelope { cls := c, mid := m, msg := msg }) ∨
      (b ≠ eb ∧ t = abandon s ∧ o = .errChecksum) := by
  unfold stepCkb
  split
  · next h =>
    rw [andThen_eq_next]
    simp only [readMsg_eq_next]
    simp [h, eq_comm]
  · next h => simp [h, raiseDf_eq, eq_comm]

theorem pushByte_frame (h : pushByte b s = .next (t, o)) : pushFrame s t := by
  unfold pushByte at h
  split at h
  · unfold stepSync at h; split at h <;> cases h <;> exact ⟨rfl, rfl, rfl, rfl, rfl, rfl, rfl⟩
  · cases h; exact ⟨rfl, rfl, rfl, rfl, rfl, rfl, rfl⟩
  · cases h; exact ⟨rfl, rfl, rfl, rfl, rfl, rfl, rfl⟩
  · cases h; exact ⟨rfl, rfl, rfl, rfl, rfl, rfl, rfl⟩
  · unfold stepLenMsb at h
    split at h
    · cases h; exact ⟨rfl, rfl, rfl, rfl, rfl, rfl, rfl⟩
    · split at h <;> cases h <;> exact ⟨rfl, rfl, rfl, rfl, rfl, rfl, rfl⟩
  · obtain ⟨-, -, rfl⟩ := stepMessage_eq_next.1 h
    split <;> exact ⟨rfl, rfl, rfl, rfl, rfl, rfl, rfl⟩
  · unfold stepCka at h
    split at h <;> cases h <;> exact ⟨rfl, rfl, rfl, rfl, rfl, rfl, rfl⟩
  · rcases stepCkb_eq_next.1 h with ⟨-, msg, -, rfl, -⟩ | ⟨-, rfl, -⟩ <;> exact ⟨rfl, rfl, rfl, rfl, rfl, rfl, rfl⟩

/-- `cnt + 1` does not wrap inside a payload (R29, R128 (c)). -/
theorem cnt_succ_toNat {cnt len : Half} (h : cnt.toNat < len.toNat) : (cnt + 1#16).toNat = cnt.toNat + 1 := by
  have := len.isLt
  simp only [BitVec.toNat_add, BitVec.toNat_ofNat]
  omega

/-- The last payload byte is recognised exactly (R148). -/
theorem cnt_succ_eq_iff {cnt len : Half} (h : cnt.toNat < len.toNat) :
    cnt + 1#16 = len ↔ cnt.toNat + 1 = len.toNat := by
  rw [← cnt_succ_toNat h]
  exact ⟨fun e => congrArg BitVec.toNat e, BitVec.eq_of_toNat_eq⟩

/-- The part of the invariant that is about DF (R24, R26, R29, R37, R61). -/
structure DfInv (s : State) : Prop where
  wf : Memory.wf s.buf
  within : bufWithin s.buf s.cfg.maxLen.toNat
  df : dfInv s.cfg s.buf s.df
  shown : shownInv s.cfg s.buf s.shown

theorem Inv.toDfInv (h : Inv s) : DfInv s := ⟨h.wf, h.within, h.df, h.shown⟩

theorem DfInv.toInv (h : DfInv s) (k : encInv s.enc) : Inv s := ⟨h.wf, h.within, h.df, h.shown, k⟩

theorem dfInv_abandon (s : State) : DfInv (abandon s) :=
  ⟨Memory.nil_wf, bufWithin_nil _, trivial, fun n h => by cases h⟩

theorem dfInv_present {c m : Byte} {len : Half} (h : DfInv s) (hl : len.toNat ≤ s.cfg.maxLen.toNat)
    (hb : bufHolds s.buf len.toNat) : DfInv (present c m len s) :=
  ⟨Memory.below_wf h.wf _, bufWithin_below h.within, trivial, fun n e => by
    obtain rfl : len = n := by simpa using e
    exact ⟨hl, bufHolds_below hb⟩⟩

/-- Overwriting a presented register keeps the invariant (R37). -/
theorem shownInv_le {cfg : Config} {m : Memory} {sh sh' : Shown} (h : shownInv cfg m sh)
    (k : sh'.len = sh.len ∨ sh'.len = none) : shownInv cfg m sh' := by
  intro n e
  rcases k with k | k
  · exact h n (k ▸ e)
  · rw [k] at e; cases e

/-- A push completes and keeps the invariant (R141). -/
theorem pushByte_complete (b : Byte) (h : DfInv s) : ∃ t o, pushByte b s = .next (t, o) ∧ DfInv t := by
  obtain ⟨hwf, hin, hdf, hsh⟩ := h
  cases e : s.df with
  | sync sr =>
    rw [pushByte_sync e]; unfold stepSync
    split
    · exact ⟨_, _, rfl, hwf, hin, trivial, hsh⟩
    · exact ⟨_, _, rfl, hwf, hin, trivial, hsh⟩
  | cls =>
    rw [pushByte_cls e]
    exact ⟨_, _, rfl, hwf, hin, trivial, shownInv_le hsh (.inl rfl)⟩
  | id c =>
    rw [pushByte_id e]
    exact ⟨_, _, rfl, hwf, hin, trivial, shownInv_le hsh (.inl rfl)⟩
  | lenLsb c m =>
    rw [pushByte_lenLsb e]
    exact ⟨_, _, rfl, hwf, hin, trivial, shownInv_le hsh (.inr rfl)⟩
  | lenMsb c m lo =>
    rw [pushByte_lenMsb e]; unfold stepLenMsb
    split
    · exact ⟨_, _, rfl, dfInv_abandon _⟩
    · next ho =>
      have hle : (lenOf lo b).toNat ≤ s.cfg.maxLen.toNat := by
        rw [oversize_iff] at ho; omega
      split
      · exact ⟨_, _, rfl, hwf, hin, ⟨Nat.zero_le _, bufHolds_zero _⟩, hsh⟩
      · next hz =>
        refine ⟨_, _, rfl, hwf, hin, ⟨?_, hle, bufHolds_zero _⟩, hsh⟩
        exact Nat.pos_of_ne_zero fun h0 => hz (BitVec.eq_of_toNat_eq (by simpa using h0))
  | message c m len cnt =>
    rw [e] at hdf
    obtain ⟨hc, hl, hb⟩ := hdf
    rw [pushByte_message e]
    refine ⟨_, _, stepMessage_eq_next.2 ⟨by omega, rfl, rfl⟩, ?_⟩
    have hwf' := Memory.write_wf hwf cnt.toNat b
    have hin' : bufWithin (Memory.write s.buf cnt.toNat b) s.cfg.maxLen.toNat := bufWithin_write b hin (by omega)
    have hsh' : shownInv s.cfg (Memory.write s.buf cnt.toNat b) s.shown := fun n hn =>
      ⟨(hsh n hn).1, bufHolds_write b (hsh n hn).2⟩
    have hb' := bufHolds_write_next b hb
    split
    · next hlast =>
      rw [cnt_succ_eq_iff hc] at hlast
      exact ⟨hwf', hin', ⟨hl, hlast ▸ hb'⟩, hsh'⟩
    · next hlast =>
      rw [cnt_succ_eq_iff hc] at hlast
      refine ⟨hwf', hin', ⟨?_, hl, ?_⟩, hsh'⟩
      · rw [cnt_succ_toNat hc]; omega
      · rw [cnt_succ_toNat hc]; exact hb'
  | cka c m len ea eb =>
    rw [e] at hdf
    rw [pushByte_cka e]; unfold stepCka
    split
    · exact ⟨_, _, rfl, hwf, hin, hdf, hsh⟩
    · exact ⟨_, _, rfl, dfInv_abandon _⟩
  | ckb c m len ea eb =>
    rw [e] at hdf
    rw [pushByte_ckb e]
    obtain ⟨msg, hmsg⟩ := Memory.readFrom_of_holds hdf.2
    by_cases hb : b = eb
    · exact ⟨_, _, stepCkb_eq_next.2 (.inl ⟨hb, msg, hmsg, rfl, rfl⟩),
        dfInv_present ⟨hwf, hin, by rw [e]; exact hdf, hsh⟩ hdf.1 hdf.2⟩
    · exact ⟨_, _, stepCkb_eq_next.2 (.inr ⟨hb, rfl, rfl⟩), dfInv_abandon _⟩

/-- A push that answers keeps the invariant. -/
theorem pushByte_keeps (h : pushByte b s = .next (t, o)) (k : DfInv s) : DfInv t := by
  obtain ⟨t', o', e, k'⟩ := pushByte_complete b k
  rw [h] at e
  cases e
  exact k'

/-- Two states that agree in what DF reads. -/
structure SameDf (s u : State) : Prop where
  cfg : s.cfg = u.cfg
  df : s.df = u.df
  ckDf : s.ckDf = u.ckDf
  buf : s.buf = u.buf
  shown : s.shown = u.shown

/-- A push looks at nothing but DF's own state, `MSG_BUF` and the configuration (R39, R151). -/
theorem pushByte_local {u : State} (k : SameDf s u) (h : pushByte b s = .next (t, o)) :
    ∃ v, pushByte b u = .next (v, o) ∧ SameDf t v := by
  obtain ⟨k1, k2, k3, k4, k5⟩ := k
  cases e : s.df with
  | sync sr =>
    rw [pushByte_sync e] at h
    rw [pushByte_sync (k2 ▸ e)]
    unfold stepSync at h ⊢
    split at h <;> rename_i q <;> cases h <;> simp only [q, if_true, if_false] <;>
      exact ⟨_, rfl, k1, rfl, k3, k4, k5⟩
  | cls =>
    rw [pushByte_cls e] at h; cases h
    rw [pushByte_cls (k2 ▸ e), stepClass]
    exact ⟨_, rfl, k1, rfl, rfl, k4, by simp [k5]⟩
  | id c =>
    rw [pushByte_id e] at h; cases h
    rw [pushByte_id (k2 ▸ e), stepId]
    exact ⟨_, rfl, k1, rfl, by simp [pushCkDf, k3], k4, by simp [k5]⟩
  | lenLsb c m =>
    rw [pushByte_lenLsb e] at h; cases h
    rw [pushByte_lenLsb (k2 ▸ e), stepLenLsb]
    exact ⟨_, rfl, k1, rfl, by simp [pushCkDf, k3], k4, by simp [k5]⟩
  | lenMsb c m lo =>
    rw [pushByte_lenMsb e] at h
    rw [pushByte_lenMsb (k2 ▸ e)]
    unfold stepLenMsb at h ⊢
    rw [← k1]
    split at h <;> rename_i q
    · cases h; rw [if_pos q]; exact ⟨_, rfl, k1, rfl, by simp [pushCkDf, k3], rfl, rfl⟩
    · rw [if_neg q]
      split at h <;> rename_i r <;> cases h
      · rw [if_pos r]
        exact ⟨_, rfl, k1, by simp [pushCkDf, finishPayload, k3], rfl, k4, k5⟩
      · rw [if_neg r]
        exact ⟨_, rfl, k1, rfl, by simp [pushCkDf, k3], k4, k5⟩
  | message c m len cnt =>
    rw [pushByte_message e] at h
    rw [pushByte_message (k2 ▸ e)]
    obtain ⟨h1, rfl, rfl⟩ := stepMessage_eq_next.1 h
    refine ⟨_, stepMessage_eq_next.2 ⟨k1 ▸ h1, rfl, rfl⟩, ?_⟩
    split
    · exact ⟨k1, by simp [pushCkDf, finishPayload, k3], rfl, by simp [pushCkDf, finishPayload, k4], k5⟩
    · exact ⟨k1, rfl, by simp [pushCkDf, k3], by simp [pushCkDf, k4], k5⟩
  | cka c m len ea eb =>
    rw [pushByte_cka e] at h
    rw [pushByte_cka (k2 ▸ e)]
    unfold stepCka at h ⊢
    split at h <;> rename_i q <;> cases h
    · rw [if_pos q]; exact ⟨_, rfl, k1, rfl, k3, k4, k5⟩
    · rw [if_neg q]; exact ⟨_, rfl, k1, rfl, k3, rfl, rfl⟩
  | ckb c m len ea eb =>
    rw [pushByte_ckb e] at h
    rw [pushByte_ckb (k2 ▸ e)]
    rcases stepCkb_eq_next.1 h with ⟨q, msg, hm, rfl, rfl⟩ | ⟨q, rfl, rfl⟩
    · exact ⟨_, stepCkb_eq_next.2 (.inl ⟨q, msg, k4 ▸ hm, rfl, rfl⟩), k1, rfl, k3, by simp [k4], rfl⟩
    · exact ⟨_, stepCkb_eq_next.2 (.inr ⟨q, rfl, rfl⟩), k1, rfl, k3, rfl, rfl⟩

/-- Reporting a push answers when the push does (R33). -/
theorem reportPush_eq_next {p : Pushed} {u : State} :
    reportPush b s p = .next u ↔
      ∃ t o, p = .next (t, o) ∧ u = t.setOutDf [{ st := s.df.code, byte := b, outcome := o }] := by
  unfold reportPush
  rw [andThen_eq_next]
  constructor
  · rintro ⟨⟨t, o⟩, h, k⟩
    cases k
    exact ⟨t, o, h, rfl⟩
  · rintro ⟨t, o, h, rfl⟩
    exact ⟨(t, o), h, rfl⟩

theorem execDfPush_eq_next {u : State} :
    execDfPush b s = .next u ↔
      ∃ t o, pushByte b s = .next (t, o) ∧ u = t.setOutDf [{ st := s.df.code, byte := b, outcome := o }] :=
  reportPush_eq_next

end Sys2Proof.Machine
end

