-- ==== Sys2Proof/Laws/Stream.lean ====
section
/-! SUPPORT. Byte sequences through DF (R152): a sequence is its pushes in order, and what every sequence leaves
unchanged. -/

namespace Sys2Proof.Machine

variable {s t : State} {b : Byte} {xs ys : List Byte} {evs : List DfEvent}

@[simp] theorem pushAll_nil (s : State) : pushAll [] s = .next (s, []) := rfl

theorem pushAll_cons_eq_next :
    pushAll (b :: xs) s = .next (t, evs) ↔
      ∃ u o rest, pushByte b s = .next (u, o) ∧ pushAll xs u = .next (t, rest) ∧
        evs = { st := s.df.code, byte := b, outcome := o } :: rest := by
  simp only [pushAll, andThen_eq_next]
  constructor
  · rintro ⟨⟨u, o⟩, h, ⟨t', rest⟩, k, e⟩
    cases e
    exact ⟨u, o, rest, h, k, rfl⟩
  · rintro ⟨u, o, rest, h, k, rfl⟩
    exact ⟨(u, o), h, (t, rest), k, rfl⟩

/-- A push followed by a sequence. -/
theorem pushAll_cons_of {u : State} {o : DfOutcome} {rest : List DfEvent} (h : pushByte b s = .next (u, o))
    (k : pushAll xs u = .next (t, rest)) :
    pushAll (b :: xs) s = .next (t, { st := s.df.code, byte := b, outcome := o } :: rest) :=
  pushAll_cons_eq_next.2 ⟨u, o, rest, h, k, rfl⟩

/-- Any split of a sequence gives the concatenation of the events (R152). -/
theorem pushAll_append_eq_next :
    pushAll (xs ++ ys) s = .next (t, evs) ↔
      ∃ u e1 e2, pushAll xs s = .next (u, e1) ∧ pushAll ys u = .next (t, e2) ∧ evs = e1 ++ e2 := by
  induction xs generalizing s evs with
  | nil => simp
  | cons x xs ih =>
    rw [List.cons_append, pushAll_cons_eq_next]
    constructor
    · rintro ⟨u, o, rest, h, k, rfl⟩
      obtain ⟨v, e1, e2, k1, k2, rfl⟩ := ih.1 k
      exact ⟨v, _, e2, pushAll_cons_of h k1, k2, rfl⟩
    · rintro ⟨v, e1, e2, k1, k2, rfl⟩
      obtain ⟨u, o, rest, h, k, rfl⟩ := pushAll_cons_eq_next.1 k1
      exact ⟨u, o, rest ++ e2, h, ih.2 ⟨v, rest, e2, k, k2, rfl⟩, rfl⟩

theorem pushAll_frame (h : pushAll xs s = .next (t, evs)) : pushFrame s t := by
  induction xs generalizing s evs with
  | nil => cases h; exact pushFrame_refl _
  | cons x xs ih =>
    obtain ⟨u, o, rest, h1, h2, -⟩ := pushAll_cons_eq_next.1 h
    exact pushFrame_trans (pushByte_frame h1) (ih h2)

/-- A sequence completes and keeps the invariant (R141, R152). -/
theorem pushAll_complete (xs : List Byte) (h : DfInv s) : ∃ t evs, pushAll xs s = .next (t, evs) ∧ DfInv t := by
  induction xs generalizing s with
  | nil => exact ⟨s, [], rfl, h⟩
  | cons x xs ih =>
    obtain ⟨u, o, h1, hu⟩ := pushByte_complete x h
    obtain ⟨t, evs, h2, ht⟩ := ih hu
    exact ⟨t, _, pushAll_cons_of h1 h2, ht⟩

theorem pushAll_keeps (h : pushAll xs s = .next (t, evs)) (k : DfInv s) : DfInv t := by
  obtain ⟨t', e', h', k'⟩ := pushAll_complete xs k
  rw [h] at h'
  cases h'
  exact k'

/-- One event for each byte (R152). -/
theorem pushAll_bytes (h : pushAll xs s = .next (t, evs)) : evs.map DfEvent.byte = xs := by
  induction xs generalizing s evs with
  | nil => cases h; rfl
  | cons x xs ih =>
    obtain ⟨u, o, rest, -, h2, rfl⟩ := pushAll_cons_eq_next.1 h
    simp [ih h2]

/-- Consuming a sequence answers when its pushes do. -/
theorem consume_eq_next {u : State} :
    consume xs s = .next u ↔ ∃ t evs, pushAll xs s = .next (t, evs) ∧ u = t.setOutDf evs := by
  unfold consume
  rw [andThen_eq_next]
  constructor
  · rintro ⟨⟨t, evs⟩, h, k⟩
    cases k
    exact ⟨t, evs, h, rfl⟩
  · rintro ⟨t, evs, h, rfl⟩
    exact ⟨(t, evs), h, rfl⟩

/-- One push moves `MSG_BUF` only by storing its byte at `cnt`, or by giving values up (R60, R62). -/
theorem pushByte_read {o : DfOutcome} {a : Nat} {v : Byte} (h : pushByte b s = .next (t, o))
    (hv : Memory.read t.buf a = some v) :
    Memory.read s.buf a = some v ∨ ∃ c m len cnt, s.df = .message c m len cnt ∧ a = cnt.toNat ∧ v = b := by
  cases e : s.df with
  | sync sr =>
    rw [pushByte_sync e] at h; unfold stepSync at h
    split at h <;> cases h <;> exact .inl hv
  | cls => rw [pushByte_cls e] at h; cases h; exact .inl hv
  | id c => rw [pushByte_id e] at h; cases h; exact .inl hv
  | lenLsb c m => rw [pushByte_lenLsb e] at h; cases h; exact .inl hv
  | lenMsb c m lo =>
    rw [pushByte_lenMsb e] at h; unfold stepLenMsb at h
    split at h
    · cases h; simp at hv
    · split at h <;> cases h <;> exact .inl hv
  | message c m len cnt =>
    rw [pushByte_message e] at h
    obtain ⟨-, -, rfl⟩ := stepMessage_eq_next.1 h
    have hv : Memory.read (Memory.write s.buf cnt.toNat b) a = some v := by
      split at hv <;> exact hv
    by_cases ha : a = cnt.toNat
    · subst ha
      rw [Memory.read_write_same] at hv
      exact .inr ⟨c, m, len, cnt, rfl, rfl, (Option.some.inj hv).symm⟩
    · rw [Memory.read_write_other _ _ ha] at hv
      exact .inl hv
  | cka c m len ea eb =>
    rw [pushByte_cka e] at h; unfold stepCka at h
    split at h
    · cases h; exact .inl hv
    · cases h; simp at hv
  | ckb c m len ea eb =>
    rw [pushByte_ckb e] at h
    rcases stepCkb_eq_next.1 h with ⟨-, msg, -, rfl, -⟩ | ⟨-, rfl, -⟩
    · simp only [present_buf, Memory.read_below] at hv
      split at hv
      · exact .inl hv
      · cases hv
    · simp at hv

end Sys2Proof.Machine
end

