-- ==== Sys2Proof/Laws/Cycle.lean ====
section
/-! SUPPORT. What one clock cycle of the port wrapping can do (R45, R91): the units in it, and what each leaves unchanged. -/

namespace Sys2Proof.Machine

variable {s t : State} {p : PortsIn}

/-- With no strobe no operation is selected (R91). -/
theorem selects_none (h : p.cmd = 0#7) (op : CmdOp) : selects p op = false := by
  rw [selects, strobes, h]
  cases op <;> decide

/-- Everything a cycle without `rst` can answer. -/
theorem cycle_eq_next (h : p.rst = false) :
    cycle p s = .next t ↔
      cmdTwoStrobes (strobes p) = false ∧ ∃ rdata a b c u, readPort p s = .next rdata ∧ encUnit p rdata s = .next a ∧
        dispUnit p a = .next b ∧ ckUnit p b = .next c ∧ dfUnit p c = .next u ∧
        t = u.setPorts (portsOf p rdata s u.out) := by
  unfold cycle
  rw [h]
  cases cmdTwoStrobes (strobes p) with
  | true => simp
  | false =>
    simp only [Bool.false_eq_true, if_false, true_and, andThen_eq_next, runUnits]
    constructor
    · rintro ⟨rdata, hr, u, ⟨a, ha, b, hb, c, hc, hu⟩, ht⟩
      cases ht
      exact ⟨rdata, a, b, c, u, hr, ha, hb, hc, hu, rfl⟩
    · rintro ⟨rdata, a, b, c, u, hr, ha, hb, hc, hu, rfl⟩
      exact ⟨rdata, hr, u, ⟨a, ha, b, hb, c, hc, hu⟩, rfl⟩

/-- A cycle with `rst`: the reset state, and the ports of the state before the edge with no outcome. -/
theorem cycle_rst_eq_next (h : p.rst = true) :
    cycle p s = .next t ↔
      ∃ rdata, readAt p.raddr s = .next rdata ∧ t = (resetAll s).setPorts (portsOf p rdata s Out.idle) := by
  unfold cycle
  rw [if_pos h, andThen_eq_next]
  simp [eq_comm]

/-- A cycle with no strobe is one output step of ENC (R91, R244). -/
theorem cycle_quiet (h : p.rst = false) (hc : p.cmd = 0#7) :
    cycle p s = andThen (readPort p s) fun rdata =>
      andThen (encTick (s.enc.pdata p.encPdata rdata) s) fun t => .next (t.setPorts (portsOf p rdata s t.out)) := by
  unfold cycle
  rw [h, if_neg (by decide), if_neg (by rw [strobes, hc]; decide)]
  congr 1
  funext rdata
  simp only [runUnits, encUnit, dispUnit, ckUnit, dfUnit, selects_none hc, Bool.false_eq_true, if_false]
  cases encTick (s.enc.pdata p.encPdata rdata) s <;> rfl

/-- A read of an index gives its byte before the edge, or faults (R63, R80). -/
theorem readAt_some {k : Half} :
    readAt (some k) s =
      match Memory.read s.buf k.toNat with
      | some v => .next (some v)
      | none => .fault .bufUnspecified := by
  simp only [readAt, memRead]
  cases Memory.read s.buf k.toNat <;> rfl

/-- With ENC idle the read port is the host's (R47). -/
theorem readPort_idle (h : s.enc = .idle) : readPort p s = readAt p.raddr s := by
  simp [readPort, portIndex, h, EncState.fetches]

theorem encUnit_frame {d : Option Byte} (h : encUnit p d s = .next t) : encFrame s t := by
  unfold encUnit at h
  split at h
  · exact encGoFrame_frame h
  · split at h
    · exact encGoMsg_frame h
    · exact encTick_frame h

/-- What DISP changes: its report only (R233). -/
theorem dispUnit_eq_next (h : dispUnit p s = .next t) : t = s ∨ ∃ o, t = s.setOutDp o := by
  unfold dispUnit at h
  split at h
  · cases h; exact .inr ⟨_, rfl⟩
  · cases h; exact .inl rfl

/-- What CK changes: its accumulator and its report. -/
theorem ckUnit_eq_next (h : ckUnit p s = .next t) : t = s ∨ ∃ c o, t = (s.setCk c).setOutCk o := by
  unfold ckUnit at h
  split at h
  · cases h; exact .inr ⟨_, _, rfl⟩
  · split at h
    · cases h; exact .inr ⟨_, _, rfl⟩
    · cases h; exact .inl rfl

/-- What DF does in a cycle: nothing, its reset, or one push. -/
theorem dfUnit_eq_next (h : dfUnit p s = .next t) :
    t = s ∨ t = ((abandon s).setCkDf Ck.zero).setOutDf [] ∨ execDfPush p.dfByte s = .next t := by
  unfold dfUnit at h
  split at h
  · cases h; exact .inr (.inl rfl)
  · split at h
    · exact .inr (.inr h)
    · cases h; exact .inl rfl

/-- One push does not look at what is reported: reports and pushes commute (R34, R151). -/
theorem pushByte_setOutDf (b : Byte) (s : State) (l : List DfEvent) :
    pushByte b (s.setOutDf l) = andThen (pushByte b s) fun r => .next (r.1.setOutDf l, r.2) := by
  cases e : s.df with
  | sync sr =>
    rw [pushByte_sync (show (s.setOutDf l).df = _ from e), pushByte_sync e]
    simp only [stepSync]
    split <;> rfl
  | cls => rw [pushByte_cls (show (s.setOutDf l).df = _ from e), pushByte_cls e]; rfl
  | id c => rw [pushByte_id (show (s.setOutDf l).df = _ from e), pushByte_id e]; rfl
  | lenLsb c m => rw [pushByte_lenLsb (show (s.setOutDf l).df = _ from e), pushByte_lenLsb e]; rfl
  | lenMsb c m lo =>
    rw [pushByte_lenMsb (show (s.setOutDf l).df = _ from e), pushByte_lenMsb e]
    by_cases h1 : oversize s.cfg (lenOf lo b) = true <;> by_cases h2 : lenOf lo b = 0#16 <;>
      simp only [stepLenMsb, setOutDf_cfg, h1, h2, if_true, if_false, Bool.false_eq_true] <;> rfl
  | message c m len cnt =>
    rw [pushByte_message (show (s.setOutDf l).df = _ from e), pushByte_message e]
    by_cases h1 : cnt.toNat < s.cfg.maxLen.toNat <;> by_cases h2 : cnt + 1#16 = len <;>
      simp only [stepMessage, memWrite, setOutDf_cfg, h1, h2, if_true, if_false, andThen_next] <;> rfl
  | cka c m len ea eb =>
    rw [pushByte_cka (show (s.setOutDf l).df = _ from e), pushByte_cka e]
    simp only [stepCka]
    split <;> rfl
  | ckb c m len ea eb =>
    rw [pushByte_ckb (show (s.setOutDf l).df = _ from e), pushByte_ckb e]
    by_cases h1 : b = eb <;> simp only [stepCkb, readMsg, setOutDf_buf, h1, if_true, if_false]
    · cases s.buf.readFrom 0 len.toNat <;> rfl
    · rfl

end Sys2Proof.Machine
end

