-- ==== Sys2Proof/Laws/Fetch.lean ====
section
/-! SUPPORT. What taking a request comes to (R18, R68, R91): the operation its bytes decode to, or the clock cycle. -/

namespace Sys2Proof.Machine

variable {s t : State}

/-! Taking a request: everything is kept but what is reported and what is waiting (R34). -/

@[simp] theorem taken_cfg (rest : List HostInput) (s : State) : (taken rest s).cfg = s.cfg := rfl
@[simp] theorem taken_ck (rest : List HostInput) (s : State) : (taken rest s).ck = s.ck := rfl
@[simp] theorem taken_df (rest : List HostInput) (s : State) : (taken rest s).df = s.df := rfl
@[simp] theorem taken_ckDf (rest : List HostInput) (s : State) : (taken rest s).ckDf = s.ckDf := rfl
@[simp] theorem taken_buf (rest : List HostInput) (s : State) : (taken rest s).buf = s.buf := rfl
@[simp] theorem taken_shown (rest : List HostInput) (s : State) : (taken rest s).shown = s.shown := rfl
@[simp] theorem taken_enc (rest : List HostInput) (s : State) : (taken rest s).enc = s.enc := rfl
@[simp] theorem taken_encCk (rest : List HostInput) (s : State) : (taken rest s).encCk = s.encCk := rfl
@[simp] theorem taken_out (rest : List HostInput) (s : State) : (taken rest s).out = Out.idle := rfl
@[simp] theorem taken_ports (rest : List HostInput) (s : State) : (taken rest s).ports = PortsOut.idle s.cfg.maxLen := rfl
@[simp] theorem taken_inputs (rest : List HostInput) (s : State) : (taken rest s).inputs = rest := rfl

/-- A vector that decodes to one operation runs that operation. -/
theorem decodeVector_of_decodeCmd {bs more : List Byte} {i : Instr} (h : decodeCmd bs = .ok (i, more)) :
    decodeVector bs = .ok ([i], more) := by
  unfold decodeCmd at h
  unfold decodeVector
  split at h
  · cases h
  · next c rest =>
    split at h
    · cases h
    · next h1 =>
      split at h
      · cases h
      · next h2 =>
        rw [if_neg h1, if_neg h2]
        split at h
        · cases h
        · next op e => simp [e, decodeOps, h]
        · cases h

/-- Several operations of which there is one. -/
theorem execAll_one (i : Instr) (s : State) : execAll [i] s = exec i s := by
  simp only [execAll]
  cases exec i s <;> rfl

/-- Bytes that decode to an operation run it, with the bytes after it waiting. -/
theorem runOp_of_decode {fmt : Format} {bs more : List Byte} {i : Instr} (rest : List HostInput) (s : State)
    (h : decode fmt bs = .ok (i, more)) : runOp fmt bs rest s = exec i (taken (leave fmt more rest) s) := by
  cases fmt with
  | cmd => simp only [runOp, decodeVector_of_decodeCmd h, execAll_one]
  | wire => simp only [runOp, show decodeWire bs = _ from h]
  | dfStep => simp only [runOp, h]
  | pseudo => simp only [runOp, h]

/-- A step on bytes that decode to an operation. -/
theorem step_of_decode {fmt : Format} {bs more : List Byte} {rest : List HostInput} {i : Instr}
    (hi : s.inputs = .op fmt bs :: rest) (h : decode fmt bs = .ok (i, more)) :
    step s = guardSource s (exec i (taken (leave fmt more rest) s)) := by
  simp only [step, takeInput, hi, runOp_of_decode rest s h]

/-- A step on a clock cycle. -/
theorem step_cycle {p : PortsIn} {rest : List HostInput} (hi : s.inputs = .cycle p :: rest) :
    step s = guardSource s (cycle p (taken rest s)) := by
  simp only [step, takeInput, hi]

/-- A step with no request waiting. -/
theorem step_nil (hi : s.inputs = []) : step s = cycle PortsIn.idle (taken [] s) := by
  simp only [step, takeInput, hi]

end Sys2Proof.Machine
end

