-- ==== Sys2Proof/Laws/PerInstr.lean ====
section
/-! SUPPORT. Statements about every operation, one lemma per constructor. Family `Size`: how many bytes the operation's
encoding has. -/

namespace Sys2Proof

/-- The bytes of an operation: the selection byte and the operands; two bytes for a step word (R92); `len + 8` for a wire
frame (R101). -/
def encodedSize : Instr → Nat
  | .ckPush _ => 2
  | .ckTake => 1
  | .dfReset => 1
  | .dfPush _ => 2
  | .encFrame _ _ payload => payload.length + 5
  | .encMsg _ v _ => v.length + 10
  | .dispDispatch _ _ msg => msg.length + 5
  | .dfPushSync _ => 2
  | .dfPushClass _ => 2
  | .dfPushId _ => 2
  | .dfPushLenLsb _ => 2
  | .dfPushLenMsb _ => 2
  | .dfPushMessage _ => 2
  | .dfPushCka _ => 2
  | .dfPushCkb _ => 2
  | .frame _ _ payload _ _ => payload.length + 8
  | .dfBatch bytes => bytes.length + 1
  | .dotFrame _ _ payload => payload.length + 5

/-- The encoding of the operation has the size its format gives it. -/
def Laws.Size.Statement (i : Instr) : Prop := (encode i).length = encodedSize i

theorem Laws.Size.ckPush (d : Byte) : Laws.Size.Statement (.ckPush d) := rfl
theorem Laws.Size.ckTake : Laws.Size.Statement .ckTake := rfl
theorem Laws.Size.dfReset : Laws.Size.Statement .dfReset := rfl
theorem Laws.Size.dfPush (byte : Byte) : Laws.Size.Statement (.dfPush byte) := rfl
theorem Laws.Size.encFrame (cls id : Byte) (payload : List Byte) :
    Laws.Size.Statement (.encFrame cls id payload) := rfl
theorem Laws.Size.encMsg (t : BitVec 32) (v : List Byte) (cap : BitVec 17) :
    Laws.Size.Statement (.encMsg t v cap) := rfl
theorem Laws.Size.dispDispatch (cls mid : Byte) (msg : List Byte) :
    Laws.Size.Statement (.dispDispatch cls mid msg) := rfl
theorem Laws.Size.dfPushSync (byte : Byte) : Laws.Size.Statement (.dfPushSync byte) := rfl
theorem Laws.Size.dfPushClass (byte : Byte) : Laws.Size.Statement (.dfPushClass byte) := rfl
theorem Laws.Size.dfPushId (byte : Byte) : Laws.Size.Statement (.dfPushId byte) := rfl
theorem Laws.Size.dfPushLenLsb (byte : Byte) : Laws.Size.Statement (.dfPushLenLsb byte) := rfl
theorem Laws.Size.dfPushLenMsb (byte : Byte) : Laws.Size.Statement (.dfPushLenMsb byte) := rfl
theorem Laws.Size.dfPushMessage (byte : Byte) : Laws.Size.Statement (.dfPushMessage byte) := rfl
theorem Laws.Size.dfPushCka (byte : Byte) : Laws.Size.Statement (.dfPushCka byte) := rfl
theorem Laws.Size.dfPushCkb (byte : Byte) : Laws.Size.Statement (.dfPushCkb byte) := rfl
theorem Laws.Size.frame (cls id : Byte) (payload : List Byte) (ckA ckB : Byte) :
    Laws.Size.Statement (.frame cls id payload ckA ckB) := by
  simp [Laws.Size.Statement, encode, encodedSize, counted16]
theorem Laws.Size.dfBatch (bytes : List Byte) : Laws.Size.Statement (.dfBatch bytes) := rfl
theorem Laws.Size.dotFrame (cls id : Byte) (payload : List Byte) :
    Laws.Size.Statement (.dotFrame cls id payload) := rfl

end Sys2Proof
end

