-- ==== Sys2Proof/Laws/Walk.lean ====
section
/-! SUPPORT. The walk over one frame, in the three parts a frame has: header, payload, checksum bytes (R142 to R150). -/

namespace Sys2Proof.Machine

variable {s : State}

@[simp] theorem outcomes_nil : outcomes [] = [] := rfl

@[simp] theorem outcomes_cons (e : DfEvent) (es : List DfEvent) : outcomes (e :: es) = e.outcome :: outcomes es := rfl

@[simp] theorem outcomes_append (xs ys : List DfEvent) : outcomes (xs ++ ys) = outcomes xs ++ outcomes ys := by
  simp [outcomes]

/-- The first five bytes of a frame, in whatever state of the search DF is (R142 to R145). -/
theorem walk_header (h : searching s) (cls id lo : Byte) :
    ∃ t evs, pushAll [sync1, sync2, cls, id, lo] s = .next (t, evs) ∧ t.df = .lenMsb cls id lo ∧
      t.ckDf = cksum [cls, id, lo] ∧ t.buf = s.buf ∧ t.shown = Shown.closed ∧
      outcomes evs = List.replicate 5 .noOutput := by
  obtain ⟨sr, h⟩ := h
  have n1 : ¬shiftIn sr sync1 = syncWord := by
    rw [shiftIn_eq_syncWord]
    rintro ⟨-, k⟩
    exact absurd k (by decide)
  have n2 : shiftIn (shiftIn sr sync1) sync2 = syncWord := by
    rw [shiftIn_eq_syncWord, shiftIn_toNat]
    refine ⟨?_, rfl⟩
    show (sr.toNat % 256 * 256 + 181) % 256 = 181
    omega
  have p1 : pushByte sync1 s = .next (s.setDf (.sync (shiftIn sr sync1)), .noOutput) := by
    rw [pushByte_sync h, stepSync, if_neg n1]
  have p2 : pushByte sync2 (s.setDf (.sync (shiftIn sr sync1))) =
      .next ((s.setDf (.sync (shiftIn sr sync1))).setDf .cls, .noOutput) := by
    rw [pushByte_sync rfl, stepSync, if_pos n2]
  exact ⟨_, _, pushAll_cons_of p1 (pushAll_cons_of p2 (pushAll_cons_of rfl (pushAll_cons_of rfl
    (pushAll_cons_of rfl (pushAll_nil _))))), rfl, rfl, rfl, rfl, rfl⟩

/-- The rest of the payload from MESSAGE on, to its last byte (R148). -/
theorem walk_payload {c m : Byte} {len cnt : Half} {pre : List Byte} (xs : List Byte)
    (h : s.df = .message c m len cnt) (hx : xs ≠ []) (hlen : cnt.toNat + xs.length = len.toNat)
    (hmax : len.toNat ≤ s.cfg.maxLen.toNat) (hpre : Memory.readFrom s.buf 0 cnt.toNat = some pre) :
    ∃ t evs, pushAll xs s = .next (t, evs) ∧
      t.df = .cka c m len (s.ckDf.pushAll xs).a (s.ckDf.pushAll xs).b ∧ t.ckDf = Ck.zero ∧
      Memory.readFrom t.buf 0 len.toNat = some (pre ++ xs) ∧ t.shown = s.shown ∧
      outcomes evs = List.replicate xs.length .noOutput := by
  induction xs generalizing s cnt pre with
  | nil => exact absurd rfl hx
  | cons x xs ih =>
    have hc : cnt.toNat < len.toNat := by simp at hlen; omega
    have hread : Memory.readFrom (Memory.write s.buf cnt.toNat x) 0 (cnt.toNat + 1) = some (pre ++ [x]) := by
      refine Memory.readFrom_succ_last ?_ (by rw [Nat.zero_add]; exact Memory.read_write_same _ _ _)
      rw [← hpre]
      exact Memory.readFrom_congr fun i hi => Memory.read_write_other _ _ (by omega)
    have p := stepMessage_eq_next (b := x) (s := s) (c := c) (m := m) (len := len) (cnt := cnt) |>.2
      ⟨by omega, rfl, rfl⟩
    rw [← pushByte_message h] at p
    cases xs with
    | nil =>
      have hl : cnt.toNat + 1 = len.toNat := by simpa using hlen
      rw [if_pos ((cnt_succ_eq_iff hc).2 hl)] at p
      exact ⟨_, _, pushAll_cons_of p (pushAll_nil _), rfl, rfl, by rw [← hl]; exact hread, rfl, rfl⟩
    | cons y ys =>
      have hl : cnt.toNat + 1 ≠ len.toNat := by simp at hlen; omega
      rw [if_neg (fun k => hl ((cnt_succ_eq_iff hc).1 k))] at p
      obtain ⟨t, evs, e1, e2, e3, e4, e5, e6⟩ :=
        ih (s := (pushCkDf x (s.setBuf (Memory.write s.buf cnt.toNat x))).setDf (.message c m len (cnt + 1#16)))
          (cnt := cnt + 1#16) (pre := pre ++ [x]) rfl (by simp)
          (by rw [cnt_succ_toNat hc]; simp at hlen ⊢; omega) hmax (by rw [cnt_succ_toNat hc]; exact hread)
      refine ⟨t, _, pushAll_cons_of p e1, e2, e3, by simpa using e4, e5, ?_⟩
      rw [outcomes_cons, e6]
      rfl

/-- A frame up to its payload, whose length is not over the ceiling: DF awaits checksum byte A (R147, R148, R184). -/
theorem walk_to_cka (h : searching s) (cls id : Byte) (p : List Byte) (hp : p.length ≤ s.cfg.maxLen.toNat) :
    ∃ t evs, pushAll (sync1 :: sync2 :: frameBody cls id p) s = .next (t, evs) ∧
      t.df = .cka cls id (lenField p) (cksum (frameBody cls id p)).a (cksum (frameBody cls id p)).b ∧
      t.ckDf = Ck.zero ∧ Memory.readFrom t.buf 0 p.length = some p ∧ t.shown = Shown.closed ∧
      outcomes evs = List.replicate (p.length + 6) .noOutput := by
  have hmax := s.cfg.maxLen.isLt
  have hn : (lenField p).toNat = p.length := lenField_toNat (by omega)
  obtain ⟨t, evs, e1, e2, e3, e4, e5, e6⟩ := walk_header h cls id (lenLo (lenField p))
  have hcfg : t.cfg = s.cfg := (pushAll_frame e1).1
  have hov : oversize t.cfg (lenField p) = false := by
    rw [← Bool.not_eq_true, oversize_iff, hcfg, hn]; omega
  have hsplit : sync1 :: sync2 :: frameBody cls id p =
      [sync1, sync2, cls, id, lenLo (lenField p)] ++ (lenHi (lenField p) :: p) := rfl
  have hck : t.ckDf.push (lenHi (lenField p)) = cksum [cls, id, lenLo (lenField p), lenHi (lenField p)] := by
    rw [e3, ← cksum_append_one]; rfl
  have hstep : pushByte (lenHi (lenField p)) t = stepLenMsb (lenHi (lenField p)) cls id (lenLo (lenField p)) t :=
    pushByte_lenMsb e2
  rw [stepLenMsb, lenOf_lenLo_lenHi, hov] at hstep
  simp only [Bool.false_eq_true, if_false] at hstep
  by_cases hz : p = []
  · subst hz
    rw [if_pos (show lenField ([] : List Byte) = 0#16 from rfl)] at hstep
    have hall := pushAll_append_eq_next.2 ⟨t, evs, _, e1, pushAll_cons_of hstep (pushAll_nil _), rfl⟩
    rw [← hsplit] at hall
    refine ⟨_, _, hall, ?_, rfl, rfl, e5, ?_⟩
    · show DfState.cka cls id 0#16 (t.ckDf.push _).a (t.ckDf.push _).b = _
      rw [hck]; rfl
    · simp [e6]
  · have hne : ¬lenField p = 0#16 := fun k => by
      have : p.length = 0 := by rw [← hn, k]; rfl
      exact hz (List.eq_nil_of_length_eq_zero this)
    rw [if_neg hne] at hstep
    obtain ⟨u, evs', f1, f2, f3, f4, f5, f6⟩ :=
      walk_payload (s := (pushCkDf (lenHi (lenField p)) t).setDf (.message cls id (lenField p) 0#16)) (pre := []) p rfl hz
        (by rw [hn]; simp) (by rw [hn]; show _ ≤ t.cfg.maxLen.toNat; rw [hcfg]; exact hp) rfl
    have hall := pushAll_append_eq_next.2 ⟨t, evs, _, e1, pushAll_cons_of hstep f1, rfl⟩
    rw [← hsplit] at hall
    refine ⟨u, _, hall, ?_, f3, by rw [← hn]; exact f4, f5.trans e5, ?_⟩
    · rw [f2]
      show DfState.cka cls id _ ((t.ckDf.push _).pushAll p).a ((t.ckDf.push _).pushAll p).b = _
      rw [hck]; rfl
    · simp only [outcomes_append, outcomes_cons, e6, f6]
      show List.replicate 5 DfOutcome.noOutput ++ List.replicate (p.length + 1) DfOutcome.noOutput = _
      rw [List.replicate_append_replicate]
      congr 1
      omega

end Sys2Proof.Machine
end

