-- ==== Sys2Proof/Tests/Slice0.lean ====
section
/-! SUPPORT. The model's own tests: ill-formed operations, words written out from `30_encoding.md`, vectors of
`95_test_vectors.md`, and a witness for the hypotheses of each statement of `Certificates/Slice0/Obligations.lean`. -/

namespace Sys2Proof.Tests

open Sys2Proof Sys2Proof.Machine

/-! ### Small states -/

/-- The example registry of `95_test_vectors.md` section 4; the codecs are the opaque ones. -/
def exampleRegistry : List TypeRow :=
  [ ⟨0x05, 0x01, 2, 0⟩, ⟨0x05, 0x00, 2, 1⟩, ⟨0x01, 0x01, 4, 2⟩, ⟨0x06, 0x01, 3, 3⟩, ⟨0x06, 0x01, 8, 4⟩,
    ⟨0x06, 0x02, 0, 5⟩ ]

/-- The default configuration of `95_test_vectors.md` with another ceiling and policy. -/
def cfgOf (maxLen : Half) (policy : OversizePolicy) : Config :=
  { maxLen := maxLen, policy := policy, categories := [0x01, 0x05, 0x06], registry := exampleRegistry }

/-- The reset state under that configuration. -/
def startOf (maxLen : Half) (policy : OversizePolicy) : State :=
  { State.reset with cfg := cfgOf maxLen policy, ports := PortsOut.idle maxLen }

/-- The default: `MAX_LEN = 16`, `REPORT`. -/
def start : State := startOf 16 .report

/-- DF in another state. -/
def at_ (d : DfState) (ck : Ck) : State := { start with df := d, ckDf := ck }

/-- DF in CKB of the source's frame, the payload `[06]` stored. -/
def atCkb : State := { start with df := .ckb 0x05 0x01 1 0x0D 0x26, buf := [(0, 0x06)] }

/-- ENC in a phase of the frame `B5 62 06 01 03 00 B5 62 00 21 22` (V-ENC-7). -/
def encAt (ph : EncPhase) (ck : Ck) : State :=
  { start with
    enc := .busy { cls := 0x06, id := 0x01, len := 3, src := .port, phase := ph }, encCk := ck }

/-- ENC re-encoding the one byte of `atCkb` from `MSG_BUF`, in the payload phase. -/
def reencoding : State :=
  { atCkb with enc := .busy { cls := 0x05, id := 0x01, len := 1, src := .msgBuf, phase := .payload 0 } }

/-- One clock cycle as the next request. -/
def withCycle (p : PortsIn) (s : State) : State := { s with inputs := [.cycle p] }

/-- One operation as the next request. -/
def withOp (fmt : Format) (bytes : List Byte) (s : State) : State := { s with inputs := [.op fmt bytes] }

/-- What a result shows, if it is a next state. -/
def see {α : Type} (r : Result State) (f : State → α) : Option α :=
  match r with
  | .next s => some (f s)
  | _ => none

/-- The refusal of a result. -/
def refusal (r : Result State) : Option Refusal :=
  match r with
  | .refused e => some e
  | _ => none

/-- The fault of a result. -/
def faultOf (r : Result State) : Option Fault :=
  match r with
  | .fault e => some e
  | _ => none

/-- The outcomes of a step's pushes. -/
def outs (s : State) : List DfOutcome := outcomes s.out.df

/-! ### Ill-formed operations are refused by the check -/

/-- A length field cannot count more than 65535 bytes (R182). -/
theorem counted_replicate (n : Nat) : counted (List.replicate n (0 : Byte)) = decide (n ≤ 65535) := by
  rw [counted, List.length_replicate]

theorem test_wf_encFrame : (Instr.encFrame 0 0 (List.replicate 65536 0)).wellFormed = false :=
  counted_replicate 65536

theorem test_wf_encMsg : (Instr.encMsg 0 (List.replicate 65536 0) 0).wellFormed = false := counted_replicate 65536

theorem test_wf_dispDispatch : (Instr.dispDispatch 0 0 (List.replicate 65536 0)).wellFormed = false :=
  counted_replicate 65536

theorem test_wf_frame : (Instr.frame 0 0 (List.replicate 65536 0) 0 0).wellFormed = false := counted_replicate 65536

theorem test_wf_dotFrame : (Instr.dotFrame 0 0 (List.replicate 65536 0)).wellFormed = false := counted_replicate 65536

/-- The longest payload a length field can count is well formed. -/
theorem test_wf_longest : (Instr.frame 0xF0 0x0F (List.replicate 65535 0) 0 0).WellFormed := counted_replicate 65535

/-! ### Words written out from R91, R92, R93 and R105 -/

theorem test_decode_ckPush : decode .cmd [0b00000001, 0b00000101] = .ok (.ckPush 0x05, []) := by decide
theorem test_decode_ckTake : decode .cmd [0b00000010] = .ok (.ckTake, []) := by decide
theorem test_decode_dfReset : decode .cmd [0b00000100] = .ok (.dfReset, []) := by decide
theorem test_decode_dfPush : decode .cmd [0b00001000, 0b10110101] = .ok (.dfPush 0xB5, []) := by decide
theorem test_decode_encFrame :
    decode .cmd [0b00010000, 0x05, 0x01, 0x02, 0x00, 0x06, 0x01] = .ok (.encFrame 0x05 0x01 [0x06, 0x01], []) := by
  decide
theorem test_decode_encMsg :
    decode .cmd [0b00110000, 0x04, 0x00, 0x00, 0x00, 0x07, 0x00, 0x01, 0x01, 0x00, 0xAA] =
      .ok (.encMsg 4 [0xAA] 65543, []) := by decide
theorem test_decode_dispDispatch :
    decode .cmd [0b01000000, 0x05, 0x01, 0x02, 0x00, 0x06, 0x01] = .ok (.dispDispatch 0x05 0x01 [0x06, 0x01], []) := by
  decide
/-- The eight step words of program P1 (`95_test_vectors.md` section 7), low byte first. -/
theorem test_decode_dfPushSync : decode .dfStep [0xB5, 0b00000000] = .ok (.dfPushSync 0xB5, []) := by decide
theorem test_decode_dfPushClass : decode .dfStep [0x05, 0b00000001] = .ok (.dfPushClass 0x05, []) := by decide
theorem test_decode_dfPushId : decode .dfStep [0x01, 0b00000010] = .ok (.dfPushId 0x01, []) := by decide
theorem test_decode_dfPushLenLsb : decode .dfStep [0x01, 0b00000011] = .ok (.dfPushLenLsb 0x01, []) := by decide
theorem test_decode_dfPushLenMsb : decode .dfStep [0x00, 0b00000100] = .ok (.dfPushLenMsb 0x00, []) := by decide
theorem test_decode_dfPushMessage : decode .dfStep [0x06, 0b00000101] = .ok (.dfPushMessage 0x06, []) := by decide
theorem test_decode_dfPushCka : decode .dfStep [0x0D, 0b00000110] = .ok (.dfPushCka 0x0D, []) := by decide
theorem test_decode_dfPushCkb : decode .dfStep [0x26, 0b00000111] = .ok (.dfPushCkb 0x26, []) := by decide
/-- The source's worked example (`95_test_vectors.md` section 1), with a byte after it. -/
theorem test_decode_frame :
    decode .wire [0b10110101, 0b01100010, 0x05, 0x01, 0b00000001, 0b00000000, 0x06, 0x0D, 0x26, 0xB5] =
      .ok (.frame 0x05 0x01 [0x06] 0x0D 0x26, [0xB5]) := by decide
theorem test_decode_dfBatch : decode .pseudo [0x00, 0xB5, 0x62] = .ok (.dfBatch [0xB5, 0x62], []) := by decide
theorem test_decode_dotFrame :
    decode .pseudo [0x01, 0x05, 0x01, 0x01, 0x00, 0x06] = .ok (.dotFrame 0x05 0x01 [0x06], []) := by decide

/-- `CMD` words that are no single operation, by their reasons. -/
theorem test_decode_refuses_cmd :
    decode .cmd [0x03, 0x00] = .error .twoStrobes ∧ decode .cmd [0x0C, 0x00] = .error .twoStrobes ∧
    decode .cmd [0x20] = .error .noOperation ∧ decode .cmd [0x09, 0x00] = .error .severalUnits := by decide

/-- R91: a vector runs what it selects, of several units or of none. -/
theorem test_vector :
    see (step (withOp .cmd [0x09, 0x05, 0xB5] start)) (fun s => (s.ck, s.df)) = some (⟨0x05, 0x05⟩, .sync 0x00B5) ∧
    see (step (withOp .cmd [0x20] start)) (fun s => (s.ck, s.out)) = some (⟨0x00, 0x00⟩, Out.idle) ∧
    refusal (step (withOp .cmd [0x03, 0x00, 0x00] start)) = some .twoStrobes := by decide

/-- R94, R103: wire bytes that are no frame are bytes of the stream (`B5` is V-DF-13's noise); bytes after a frame wait. -/
theorem test_wire_stream :
    see (step (withOp .wire [0xB5] start)) (fun s => (s.df, outs s)) = some (.sync 0x00B5, [.noOutput]) ∧
    see (step (withOp .wire [0xB5, 0x62, 0x06, 0x01, 0x00, 0x00, 0x07, 0x1B, 0xB5] start)) (fun s => s.inputs) =
      some [.op .wire [0xB5]] := by decide

/-- Bytes with an operand missing name no operation of R90. -/
theorem test_undecodable : refusal (step (withOp .cmd [0x08] start)) = some (.undecodable .truncated) := by decide
theorem test_decode_refuses_bits :
    decode .cmd [0x81, 0x00] = .error .reservedBits ∧ decode .cmd [0x08] = .error .truncated ∧
    decode .dfStep [0x00, 0x08] = .error .reservedBits ∧ decode .pseudo [0x02] = .error .badPseudo := by decide
theorem test_decode_refuses_wire :
    decode .wire [0xB5, 0x63, 0, 0, 0, 0, 0, 0] = .error .badSync ∧
    decode .wire [0xB5, 0x62, 0, 0, 1, 0, 0, 0] = .error .truncated := by decide

/-- Table words: the operand bytes above the row's bits are zero. -/
theorem test_tableWord :
    decodeTableWord 7 0x10 = some (.encFrame 0 0 []) ∧ decodeTableWord 11 0x726 = some (.dfPushCkb 0x26) ∧
    decodeTableWord 8 0x03 = none := by decide

/-! ### checksum_accumulator: V-CK-32, V-CK-34, V-CK-4, V-CK-12 -/

theorem test_ckPush :
    see (exec (.ckPush 0x00) { start with ck := ⟨0x07, 0x12⟩ }) (fun s => (s.ck, s.out.ck)) =
      some (⟨0x07, 0x19⟩, .pushed 0x00) := by decide
theorem test_ckPush_wraps :
    see (exec (.ckPush 0xFF) { start with ck := ⟨0xFF, 0xFF⟩ }) (fun s => s.ck) = some ⟨0xFE, 0xFD⟩ := by decide
theorem test_ckTake :
    see (exec .ckTake { start with ck := ⟨0x06, 0x0B⟩ }) (fun s => (s.ck, s.out.ck)) =
      some (⟨0x00, 0x00⟩, .taken 0x06 0x0B) := by decide
theorem test_cksum_source : cksum [0x05, 0x01, 0x01, 0x00, 0x06] = ⟨0x0D, 0x26⟩ := by decide

/-! ### binary_deframer_fsm: the step trace of section 1.2 and the vectors of section 3 -/

/-- V-DF-41: the half-seen sync word is dropped. -/
theorem test_dfReset :
    see (exec .dfReset (at_ (.sync 0x00B5) ⟨0x07, 0x12⟩)) (fun s => (s.df, s.ckDf, outs s)) =
      some (.sync 0x0000, ⟨0x00, 0x00⟩, []) := by decide
theorem test_dfPush :
    see (exec (.dfPush 0x0D) (at_ (.cka 0x05 0x01 1 0x0D 0x26) Ck.zero)) (fun s => (s.df, outs s)) =
      some (.ckb 0x05 0x01 1 0x0D 0x26, [.noOutput]) := by decide
/-- V-DF-16: `B5 B5 62` starts a frame at the third byte. -/
theorem test_sync_match :
    see (exec (.dfPushSync 0x62) (at_ (.sync 0xB5B5) Ck.zero)) (fun s => s.df) = some .cls := by decide
/-- V-DF-15: `B5 00 62` does not. -/
theorem test_sync_no_match :
    see (exec (.dfPushSync 0x62) (at_ (.sync 0xB500) Ck.zero)) (fun s => s.df) = some (.sync 0x0062) := by decide
/-- Program P3, index 11: a stale accumulator is cleared. -/
theorem test_class :
    see (exec (.dfPushClass 0x06) (at_ .cls ⟨0x19, 0x3B⟩)) (fun s => (s.df, s.ckDf)) =
      some (.id 0x06, ⟨0x06, 0x06⟩) := by decide
theorem test_id :
    see (exec (.dfPushId 0x01) (at_ (.id 0x05) ⟨0x05, 0x05⟩)) (fun s => (s.df, s.ckDf)) =
      some (.lenLsb 0x05 0x01, ⟨0x06, 0x0B⟩) := by decide
/-- V-DF-37: no length check here. -/
theorem test_lenLsb :
    see (exec (.dfPushLenLsb 0xFF) (at_ (.lenLsb 0x01 0x01) ⟨0x02, 0x03⟩)) (fun s => (s.df, s.ckDf, outs s)) =
      some (.lenMsb 0x01 0x01 0xFF, ⟨0x01, 0x04⟩, [.noOutput]) := by decide
/-- V-DF-35: the comparison uses all 16 bits. -/
theorem test_lenMsb_oversize :
    see (exec (.dfPushLenMsb 0x01) (at_ (.lenMsb 0x01 0x01 0x00) ⟨0x02, 0x05⟩)) (fun s => (s.df, outs s)) =
      some (.sync 0x0000, [.errOversize 256 16]) := by decide
/-- V-DF-2, index 5: an empty payload goes to CKA at once. -/
theorem test_lenMsb_empty :
    see (exec (.dfPushLenMsb 0x00) (at_ (.lenMsb 0x06 0x01 0x00) ⟨0x07, 0x14⟩)) (fun s => (s.df, s.ckDf)) =
      some (.cka 0x06 0x01 0 0x07 0x1B, ⟨0x00, 0x00⟩) := by decide
/-- Section 1.2, index 6. -/
theorem test_message_last :
    see (exec (.dfPushMessage 0x06) (at_ (.message 0x05 0x01 1 0) ⟨0x07, 0x19⟩)) (fun s => (s.df, s.ckDf, s.buf)) =
      some (.cka 0x05 0x01 1 0x0D 0x26, ⟨0x00, 0x00⟩, [(0, 0x06)]) := by decide
/-- V-DF-42, index 6. -/
theorem test_message_more :
    see (exec (.dfPushMessage 0x06) (at_ (.message 0x05 0x01 2 0) ⟨0x08, 0x1B⟩)) (fun s => (s.df, s.ckDf, s.buf)) =
      some (.message 0x05 0x01 2 1, ⟨0x0E, 0x29⟩, [(0, 0x06)]) := by decide
/-- V-DF-20, index 7. -/
theorem test_cka_wrong :
    see (exec (.dfPushCka 0x0C) (at_ (.cka 0x05 0x01 1 0x0D 0x26) Ck.zero)) (fun s => (s.df, outs s)) =
      some (.sync 0x0000, [.errChecksum]) := by decide
theorem test_cka_right :
    see (exec (.dfPushCka 0x0D) (at_ (.cka 0x05 0x01 1 0x0D 0x26) Ck.zero)) (fun s => s.df) =
      some (.ckb 0x05 0x01 1 0x0D 0x26) := by decide
/-- Section 1.2, index 8. -/
theorem test_ckb_right :
    see (exec (.dfPushCkb 0x26) atCkb) (fun s => (s.df, outs s, s.buf)) =
      some (.sync 0x0000, [.envelope ⟨0x05, 0x01, [0x06]⟩], [(0, 0x06)]) := by decide
/-- V-DF-21: nothing of the rejected frame stays readable. -/
theorem test_ckb_wrong :
    see (exec (.dfPushCkb 0x27) atCkb) (fun s => (outs s, s.buf, regCls s)) = some ([.errChecksum], [], none) := by
  decide
/-- A step word whose state code is not that of DF (R92). -/
theorem test_step_not_selected : refusal (exec (.dfPushCkb 0x26) start) = some .stepNotSelected := by decide
/-- V-DF-20. -/
theorem test_frame :
    see (exec (.frame 0x05 0x01 [0x06] 0x0C 0x26) start) (fun s => (outs s, s.df)) =
      some (List.replicate 7 .noOutput ++ [.errChecksum, .noOutput], .sync 0x0026) := by decide
/-- V-DF-38. -/
theorem test_dfBatch :
    see (exec (.dfBatch [0xB5, 0x62, 0x01, 0x07, 0x11, 0x00, 0xB5, 0x62, 0x05, 0x01, 0x01, 0x00, 0x06, 0x0D, 0x26])
        (startOf 4 .report)) outs =
      some (List.replicate 5 .noOutput ++ [.errOversize 17 4] ++ List.replicate 8 .noOutput ++
        [.envelope ⟨0x05, 0x01, [0x06]⟩]) := by decide
/-- V-DF-39. -/
theorem test_dfBatch_silent :
    see (exec (.dfBatch [0xB5, 0x62, 0x01, 0x01, 0x05, 0x00]) (startOf 4 .silent)) (fun s => (s.df, outs s)) =
      some (.sync 0x0000, List.replicate 6 .noOutput) := by decide
/-- V-DF-7: the sync word in class, id and payload. -/
theorem test_dotFrame :
    see (exec (.dotFrame 0xB5 0x62 [0xB5, 0x62]) start) outs =
      some (List.replicate 9 .noOutput ++ [.envelope ⟨0xB5, 0x62, [0xB5, 0x62]⟩]) := by decide

/-! ### message_encoder: V-ENC-7, V-ENC-2, V-ENC-21, the table of byte-serial emission -/

theorem test_encFrame :
    see (exec (.encFrame 0x06 0x01 [0xB5, 0x62, 0x00]) start) (fun s => s.out.enc) =
      some (.written 11 [0xB5, 0x62, 0x06, 0x01, 0x03, 0x00, 0xB5, 0x62, 0x00, 0x21, 0x22]) := by decide
theorem test_encFrame_empty :
    see (exec (.encFrame 0x06 0x01 []) start) (fun s => s.out.enc) =
      some (.written 8 [0xB5, 0x62, 0x06, 0x01, 0x00, 0x00, 0x07, 0x1B]) := by decide
theorem test_encMsg_capacity :
    see (exec (.encMsg 0 [0x06, 0x01] 9) start) (fun s => (s.out.enc, s.encCk)) =
      some (.errCapacity, ⟨0x00, 0x00⟩) := by decide
/-- V-ENC-30. -/
theorem test_encMsg_badType : refusal (exec (.encMsg 6 [] 64) start) = some .badTypeIndex := by decide
/-- Output step 7 of V-ENC-7. -/
theorem test_emit_payload :
    see (step (withCycle { PortsIn.idle with encPdata := some 0x62 } (encAt (.payload 1) ⟨0xBF, 0xE0⟩)))
        (fun s => (s.ports.encByte, s.encCk, s.ports.encPaddr)) =
      some (some 0x62, ⟨0x21, 0x01⟩, some 1) := by decide
/-- U17, U19: nothing on `enc_pdata`. -/
theorem test_emit_no_payload : refusal (step (encAt (.payload 1) ⟨0xBF, 0xE0⟩)) = some .payloadSource := by decide
/-- R60: a re-encoding reads through the port of `MSG_BUF`. -/
theorem test_reencode :
    see (step reencoding) (fun s => (s.ports.encByte, s.ports.dfRdata)) = some (some 0x06, some 0x06) := by decide
/-- One read port (assumption 20). -/
theorem test_read_port_taken :
    refusal (cycle { PortsIn.idle with raddr := some 1 } reencoding) = some .readPortTaken := by decide
/-- Output step 10 of V-ENC-7. -/
theorem test_emit_last :
    see (step (encAt (.ckB 0x22) Ck.zero)) (fun s => (s.ports.encByte, s.ports.encLast, s.ports.encN, s.enc)) =
      some (some 0x22, true, some 11, .idle) := by decide

/-! ### message_dispatcher_mux: V-DP-2, V-DP-12, and the port view of V-DP-1 and V-DP-15 -/

theorem test_dispatch_short :
    see (exec (.dispDispatch 0x05 0x01 [0x06]) start) (fun s => s.out.dp) = some .unrecognized := by decide
theorem test_dispatch_noCategory :
    see (exec (.dispDispatch 0x0A 0x04 []) start) (fun s => s.out.dp) = some .unrecognized := by decide

/-- The ports of one dispatch. -/
def dispatchCycle (cls id : Byte) (len : Half) (fail : Bool) : PortsIn :=
  { PortsIn.idle with cmd := 0x40, dpCls := cls, dpId := id, dpLen := len, dpFail := fail }

theorem test_dispatch_ports :
    see (cycle (dispatchCycle 0x05 0x01 2 false) start)
        (fun s => (s.ports.dpKind, s.ports.dpHit, s.ports.dpSel, s.ports.dpCat)) =
      some (1, true, some ⟨3, 0⟩, some ⟨2, 1⟩) := by decide
theorem test_dispatch_ports_fail :
    see (cycle (dispatchCycle 0x05 0x00 2 true) start)
        (fun s => (s.ports.dpKind, s.ports.dpHit, s.ports.dpSel, s.ports.dpCat)) =
      some (2, true, some ⟨3, 1⟩, some ⟨2, 1⟩) := by decide
/-- `TW` and `CW` of R42: at least 1, and 3 bits for six rows. -/
theorem test_indexWidth : [0, 1, 2, 3, 4, 5, 6, 8, 9].map indexWidth = [1, 1, 1, 2, 2, 3, 3, 3, 4] := by decide

/-! ### Construction -/

/-- U18: a repeated triple, a class with no category, a category twice, a ceiling of 17 bits (R13). -/
theorem test_construct_refuses :
    refusal (construct 16 .report [0x05] [⟨0x05, 0x01, 2, 0⟩, ⟨0x05, 0x01, 2, 1⟩]) = some .illFormedConfig ∧
    refusal (construct 16 .report [] [⟨0x05, 0x01, 2, 0⟩]) = some .illFormedConfig ∧
    refusal (construct 16 .report [0x05, 0x05] []) = some .illFormedConfig ∧
    refusal (construct 65536 .report [] []) = some .illFormedConfig := by decide

/-! ### Ports: two strobes, the read port, several units in one cycle -/

theorem test_two_strobes : refusal (cycle { PortsIn.idle with cmd := 0x0C } start) = some .twoStrobes := by decide
theorem test_read_port :
    see (cycle { PortsIn.idle with raddr := some 0 } atCkb) (fun s => s.ports.dfRdata) = some (some 0x06) := by decide
/-- U13. -/
theorem test_read_unspecified :
    faultOf (cycle { PortsIn.idle with raddr := some 1 } atCkb) = some .bufUnspecified := by decide
theorem test_two_units :
    see (cycle { PortsIn.idle with cmd := 0x09, ckDin := 0x05, dfByte := 0x26 } atCkb)
        (fun s => (s.ck, s.ports.dfKind, s.ports.dfLen)) = some (⟨0x05, 0x05⟩, 1, some 1) := by decide

/-! ### Witnesses: concrete states and operands that meet the hypotheses of each statement together -/

theorem inv_startOf (n : Half) (pol : OversizePolicy) : Inv (startOf n pol) :=
  ⟨Memory.nil_wf, bufWithin_nil _, trivial, (fun _ h => nomatch h), trivial⟩

theorem inv_start : Inv start := inv_startOf 16 .report

/-- With an empty `MSG_BUF`, DF may be in any state that stores nothing yet. -/
theorem inv_at (d : DfState) (ck : Ck) (h : dfInv (cfgOf 16 .report) [] d) : Inv (at_ d ck) :=
  ⟨Memory.nil_wf, bufWithin_nil _, h, (fun _ h => nomatch h), trivial⟩

/-- One stored byte is inside a `MSG_BUF` of at least one byte. -/
theorem within_one (v : Byte) {n : Nat} (h : 0 < n) : bufWithin [(0, v)] n := by
  intro i hi
  simp only [Memory.read, ite_eq_right_iff, reduceCtorEq]
  omega

theorem holds_one (v : Byte) : bufHolds [(0, v)] 1 := by
  intro i hi
  obtain rfl : i = 0 := by omega
  rfl

theorem inv_atCkb : Inv atCkb :=
  ⟨by decide, within_one _ (by decide), ⟨by decide, holds_one _⟩, (fun _ h => nomatch h), trivial⟩

/-- DF about to store at index 0, where an earlier Envelope's byte is still readable (R37). -/
def atStale : State :=
  { start with df := .message 0x05 0x01 1 0, buf := [(0, 0xAA)], shown := { cls := none, mid := none, len := none } }

theorem inv_atStale : Inv atStale :=
  ⟨by decide, within_one _ (by decide), ⟨by decide, by decide, bufHolds_zero _⟩, (fun _ h => nomatch h), trivial⟩

theorem inv_encAt : Inv (encAt (.payload 2) Ck.zero) :=
  ⟨Memory.nil_wf, bufWithin_nil _, trivial, (fun _ h => nomatch h), show (2 : Half).toNat < (3 : Half).toNat by decide⟩

theorem witness_DecodeOfEncodeIsTheOperation :
    (Instr.frame 0xF0 0x0F (List.replicate 65535 0) 0 0).WellFormed ∧ (Instr.dfBatch []).WellFormed :=
  ⟨test_wf_longest, rfl⟩

theorem witness_DecodedOperationsAreWellFormed :
    decode .pseudo [0x01, 0x05, 0x01, 0x01, 0x00, 0x06] = .ok (.dotFrame 0x05 0x01 [0x06], []) := test_decode_dotFrame

theorem witness_CommandVectorSelectsByUnit :
    ((0x03 : Byte) &&& 0x80 = 0 ∧ (0x03 : Byte) &&& 0x03 = 0x03) ∧
    ((0x7C : Byte) &&& 0x80 = 0 ∧ (0x7C : Byte) &&& 0x0C = 0x0C) ∧
    PortsIn.idle.rst = false ∧ (0x7F : BitVec 7) &&& 0x0C = 0x0C := by decide

/-- An operation, also with an emission of presented bytes going on; a vector of three units; wire bytes that are no
frame. -/
theorem witness_StepRunsTheDecodedOperation :
    ((withOp .cmd [0x01, 0x05] start).inputs = .op .cmd [0x01, 0x05] :: [] ∧
      decode .cmd [0x01, 0x05] = .ok (.ckPush 0x05, [])) ∧
    (∃ job, (withOp .cmd [0x01, 0x05] (encAt .cls Ck.zero)).enc = .busy job ∧ job.src = .port) ∧
    decodeVector [0x49, 0x07, 0xB5, 0x05, 0x01, 0x00, 0x00] =
      .ok ([.ckPush 0x07, .dfPush 0xB5, .dispDispatch 0x05 0x01 []], []) ∧
    decode .wire [0xB5, 0x63] = .error .truncated := ⟨by decide, ⟨_, rfl, rfl⟩, by decide, by decide⟩

theorem witness_StepRunsTheNextCycle :
    (withCycle PortsIn.idle start).inputs = .cycle PortsIn.idle :: [] ∧ PortsIn.idle.cmd &&& 0x08 = 0 ∧
    start.inputs = [] := ⟨rfl, rfl, rfl⟩

theorem witness_IdleStepKeepsAllState : start.inputs = [] ∧ start.enc = .idle := ⟨rfl, rfl⟩

theorem witness_OutcomesAreNotSticky :
    decode .cmd [0x01, 0x05] = .ok (.ckPush 0x05, []) ∧ unitOf (.ckPush 0x05) ≠ .df ∧
    ∃ t, step (withOp .cmd [0x01, 0x05] start) = .next t := ⟨by decide, by decide, _, rfl⟩

/-- Construction with the example registry, and an `rst` cycle. -/
theorem witness_ResetLeavesTheSpecsValues :
    (∃ r, construct 16 .report [0x01, 0x05, 0x06] exampleRegistry = .next r) ∧
    ∃ r, (withCycle { PortsIn.idle with rst := true } atCkb).inputs = .cycle { PortsIn.idle with rst := true } :: [] ∧
      step (withCycle { PortsIn.idle with rst := true } atCkb) = .next r := ⟨⟨_, rfl⟩, _, rfl, rfl⟩

/-- With every strobe, and a read of an index that has a value, of one that has none, and of none. -/
theorem witness_RstOverridesEveryStrobe :
    (withCycle { PortsIn.idle with rst := true, cmd := 0x7F } atCkb).inputs =
      .cycle { PortsIn.idle with rst := true, cmd := 0x7F } :: [] ∧
    (Memory.read atCkb.buf (0 : Half).toNat).isSome = true ∧ Memory.read atCkb.buf (1 : Half).toNat = none ∧
    ({ PortsIn.idle with rst := true, cmd := 0x7F } : PortsIn).raddr = none := by decide

theorem witness_ChecksumHasTheClosedForm : start.ck = cksum [] := rfl

theorem witness_ChecksumCollidesFromThreeBytesOn :
    ([0x01, 0x02] : List Byte).length = [0x01, 0x02].length ∧ ([0x01, 0x02] : List Byte).length ≤ 2 ∧
    ([0x01, 0x02] : List Byte).Perm [0x02, 0x01] := ⟨rfl, by decide, List.Perm.swap _ _ _⟩

theorem witness_SyncStepSearchesForTheSyncWord :
    (at_ (.sync 0x62B5) Ck.zero).df = .sync 0x62B5 ∧ (0x62B5 : Half).toNat % 256 = 0xB5 := by decide

theorem witness_ClassStepSeedsTheChecksum : (at_ .cls Ck.zero).df = .cls := rfl

theorem witness_IdStepKeepsTheId : (at_ (.id 0x05) ⟨0x05, 0x05⟩).df = .id 0x05 := rfl

theorem witness_LenLsbStepKeepsTheLowByte : (at_ (.lenLsb 0x05 0x01) ⟨0x06, 0x0B⟩).df = .lenLsb 0x05 0x01 := rfl

/-- The three clauses, at the ceiling 16 and on both sides of it. -/
theorem witness_LenMsbStepChecksTheLength :
    (at_ (.lenMsb 0x05 0x01 0x11) Ck.zero).df = .lenMsb 0x05 0x01 0x11 ∧
    256 * (0x00 : Byte).toNat + (0x11 : Byte).toNat > start.cfg.maxLen.toNat ∧
    256 * (0x00 : Byte).toNat + (0x10 : Byte).toNat ≤ start.cfg.maxLen.toNat ∧
    256 * (0x00 : Byte).toNat + (0x00 : Byte).toNat = 0 ∧
    start.cfg.policy = .report ∧ start.enc = .idle ∧
    ({ PortsIn.idle with cmd := 0x08, dfByte := 0x00 } : PortsIn).cmd = 0x08 := by decide

theorem witness_MessageStepStoresOneByte :
    (at_ (.message 0x05 0x01 16 15) Ck.zero).df = .message 0x05 0x01 16 15 ∧ (15 : Half).toNat < (16 : Half).toNat ∧
    (0 : Half).toNat < (1 : Half).toNat ∧ (16 : Half).toNat ≤ start.cfg.maxLen.toNat := by decide

theorem witness_CkaStepComparesByteA :
    (at_ (.cka 0x05 0x01 0 0x0D 0x26) Ck.zero).df = .cka 0x05 0x01 0 0x0D 0x26 ∧ (0x0C : Byte) ≠ 0x0D := by decide

theorem witness_CkbStepEmitsTheEnvelope :
    atCkb.df = .ckb 0x05 0x01 1 0x0D 0x26 ∧ bufHolds atCkb.buf (1 : Half).toNat ∧
    bufHolds start.buf (0 : Half).toNat ∧ (0x27 : Byte) ≠ 0x26 := ⟨rfl, holds_one _, bufHolds_zero _, by decide⟩

theorem witness_StateCodeSelectsTheStepRule : atCkb.df.code = 7 ∧ atCkb.df.code ≠ 0 := by decide

theorem witness_PushAlwaysCompletesWithOneOutcome : Inv start ∧ Inv atCkb ∧ Inv atStale :=
  ⟨inv_start, inv_atCkb, inv_atStale⟩

/-- An Envelope, a checksum error and an oversize error each come from a push. -/
theorem witness_OutcomesComeFromTheirSteps :
    (∃ t e, exec (.dfPush 0x26) atCkb = .next t ∧ t.out.df = [e] ∧ e.outcome = .envelope ⟨0x05, 0x01, [0x06]⟩) ∧
    (∃ t e, exec (.dfPush 0x27) atCkb = .next t ∧ t.out.df = [e] ∧ e.outcome = .errChecksum) ∧
    (∃ t e, exec (.dfPush 0x00) (at_ (.lenMsb 0x05 0x01 0x11) Ck.zero) = .next t ∧ t.out.df = [e] ∧
      e.outcome = .errOversize 17 16) :=
  ⟨⟨_, _, rfl, rfl, rfl⟩, ⟨_, _, rfl, rfl, rfl⟩, ⟨_, _, rfl, rfl, rfl⟩⟩

theorem witness_EarliestOutcomesAfterReset :
    Inv start ∧ inInitialSync start ∧ start.cfg.policy = .report ∧ start.cfg.maxLen.toNat < 65535 ∧
    ∃ t, exec (.dfBatch [0xB5, 0x62, 0x00, 0x00, 0x00, 0x00, 0x01]) start = .next t ∧
      (outcomes t.out.df)[6]? = some .errChecksum := ⟨inv_start, rfl, rfl, by decide, _, rfl, rfl⟩

/-- Each way a walk ends: Envelope, checksum error, and an oversize length under either policy. -/
theorem witness_AfterATerminalOutcomeDfActsAsReset :
    (∃ t e, Inv atCkb ∧ exec (.dfPush 0x26) atCkb = .next t ∧ t.out.df = [e] ∧ endsWalk atCkb 0x26 e.outcome) ∧
    (∃ t e, Inv { startOf 4 .silent with df := .lenMsb 0x01 0x01 0x05 } ∧
      exec (.dfPush 0x00) { startOf 4 .silent with df := .lenMsb 0x01 0x01 0x05 } = .next t ∧ t.out.df = [e] ∧
      e.outcome = .noOutput ∧ endsWalk { startOf 4 .silent with df := .lenMsb 0x01 0x01 0x05 } 0x00 e.outcome) :=
  ⟨⟨_, _, inv_atCkb, rfl, rfl, .inl (by simp)⟩,
    ⟨_, _, ⟨Memory.nil_wf, bufWithin_nil _, trivial, (fun _ h => nomatch h), trivial⟩, rfl, rfl, rfl,
      .inr ⟨_, _, _, rfl, by decide⟩⟩⟩

/-- V-DF-20: a wrong byte A that is `0xB5`. -/
theorem witness_EndingByteIsNotASyncByte :
    ∃ t e, exec (.dfPush 0xB5) (at_ (.cka 0x05 0x01 0 0x0D 0x26) Ck.zero) = .next t ∧ t.out.df = [e] ∧
      endsWalk (at_ (.cka 0x05 0x01 0 0x0D 0x26) Ck.zero) 0xB5 e.outcome := ⟨_, _, rfl, rfl, .inl (by simp)⟩

theorem witness_SyncWordInsideAFrameIsData :
    ¬searching (at_ (.id 0xB5) ⟨0xB5, 0xB5⟩) ∧
    ∃ t e, exec (.dfPush 0x62) (at_ (.id 0xB5) ⟨0xB5, 0xB5⟩) = .next t ∧ t.out.df = [e] ∧
      ¬endsWalk (at_ (.id 0xB5) ⟨0xB5, 0xB5⟩) 0x62 e.outcome := by
  refine ⟨(fun ⟨_, h⟩ => nomatch h), _, _, rfl, rfl, ?_⟩
  rintro (h | ⟨_, _, _, h, _⟩)
  · exact h rfl
  · exact nomatch h

/-- The longest payload the default ceiling admits, and the empty one under a ceiling of zero. -/
theorem witness_FramesRoundTripThroughTheDeframer :
    (Inv start ∧ searching start ∧ (List.replicate 16 (0xB5 : Byte)).length ≤ start.cfg.maxLen.toNat) ∧
    (Inv (startOf 0 .silent) ∧ searching (startOf 0 .silent) ∧
      ([] : List Byte).length ≤ (startOf 0 .silent).cfg.maxLen.toNat) :=
  ⟨⟨inv_start, ⟨_, rfl⟩, by decide⟩, ⟨inv_startOf _ _, ⟨_, rfl⟩, by decide⟩⟩

theorem witness_ReencodingAnEnvelopeGivesItsFrame :
    Inv start ∧ searching start ∧ start.enc = .idle ∧
    ∃ t, exec (.frame 0x05 0x01 [0x06] 0x0D 0x26) start = .next t ∧
      .envelope ⟨0x05, 0x01, [0x06]⟩ ∈ outcomes t.out.df := ⟨inv_start, ⟨_, rfl⟩, rfl, _, rfl, by decide⟩

/-- Noise that ends in `0xB5` and holds a `0x62` (V-DF-13, V-DF-14). -/
theorem witness_NoiseBeforeAFrameIsAbsorbed :
    Inv start ∧ inInitialSync start ∧ noSyncWord [0x62, 0xB5, 0x00, 0xB5] :=
  ⟨inv_start, rfl, by decide, by decide, by decide, trivial⟩

theorem witness_CorruptedChecksumsAreRejected :
    Inv start ∧ searching start ∧ ([0x06] : List Byte).length ≤ start.cfg.maxLen.toNat ∧
    (((0x0C : Byte), (0x26 : Byte)) ≠ ((cksum (frameBody 0x05 0x01 [0x06])).a, (cksum (frameBody 0x05 0x01 [0x06])).b)) ∧
    (((0x0D : Byte), (0x27 : Byte)) ≠ ((cksum (frameBody 0x05 0x01 [0x06])).a, (cksum (frameBody 0x05 0x01 [0x06])).b)) ∧
    (0x0D : Byte) = (cksum (frameBody 0x05 0x01 [0x06])).a ∧ ([] : List Byte).length ≤ start.cfg.maxLen.toNat :=
  ⟨inv_start, ⟨_, rfl⟩, by decide, by decide, by decide, by decide, by decide⟩

theorem witness_OversizeFramesAreAbandonedAtTheLength :
    Inv start ∧ searching start ∧ 256 * (0x00 : Byte).toNat + (0x11 : Byte).toNat > start.cfg.maxLen.toNat :=
  ⟨inv_start, ⟨_, rfl⟩, by decide⟩

theorem witness_OversizePolicyOnlyChangesTheReport : Inv start := inv_start

theorem witness_BatchAlwaysCompletes : Inv atStale := inv_atStale

theorem witness_WireFramesAreBatchesOfTheirBytes :
    (List.replicate 65535 (0 : Byte)).length ≤ 65535 ∧ (List.replicate 65536 (0 : Byte)).length > 65535 := by
  rw [List.length_replicate, List.length_replicate]
  decide

/-- From CLASS, `4 + 16 + 2` bytes. -/
theorem witness_EveryWalkEndsInBoundedTime :
    Inv (at_ .cls Ck.zero) ∧ ¬searching (at_ .cls Ck.zero) ∧
    4 + (at_ .cls Ck.zero).cfg.maxLen.toNat + 2 ≤ (List.replicate 22 (0x10 : Byte)).length :=
  ⟨inv_at _ _ trivial, (fun ⟨_, h⟩ => nomatch h), by decide⟩

theorem witness_PushRefinesTheNormativeView :
    Inv atCkb ∧ viewOf atCkb = some (.ckb 0x05 0x01 [0x06] 0x0D 0x26) := ⟨inv_atCkb, by decide⟩

theorem witness_EncFrameWritesTheWireImage :
    start.enc = .idle ∧ (List.replicate 65535 (0 : Byte)).length ≤ 65535 := by
  rw [List.length_replicate]
  exact ⟨rfl, by decide⟩

/-- A re-encoding from `MSG_BUF` while DF is about to store another byte at index 0. -/
def reencodingStale : State :=
  { atStale with
    enc := .busy { cls := 0x05, id := 0x01, len := 1, src := .msgBuf, phase := .sync1 }
    inputs := [.op .cmd [0x08, 0x06]] }

theorem witness_EncRefusesWhatCannotBePresented :
    (start.enc = .idle ∧ (List.replicate 65536 (0 : Byte)).length > 65535) ∧
    (∃ job, (encAt .cls Ck.zero).enc = .busy job) ∧
    readPort { PortsIn.idle with cmd := 0x10 } (encAt .cls Ck.zero) = .next none ∧
    ({ PortsIn.idle with cmd := 0x10 } : PortsIn).cmd &&& 0x10 = 0x10 ∧
    ({ PortsIn.idle with cmd := 0x39 } : PortsIn).cmd &&& 0x10 = 0x10 ∧ ¬((0x39 : BitVec 7) &&& 0x03 = 0x03) ∧
    (∃ job, reencodingStale.enc = .busy job ∧ Inv reencodingStale ∧ job.src = .msgBuf ∧
      reencodingStale.df = .message 0x05 0x01 1 0 ∧ job.unsent ≤ (0 : Half).toNat ∧ (0 : Half).toNat < job.len.toNat ∧
      Memory.read reencodingStale.buf (0 : Half).toNat ≠ some 0x06) := by
  rw [List.length_replicate]
  exact ⟨⟨rfl, by decide⟩, ⟨_, rfl⟩, rfl, by decide, by decide, by decide, _, rfl,
    ⟨inv_atStale.wf, inv_atStale.within, inv_atStale.df, inv_atStale.shown, trivial⟩, rfl, rfl, by decide, by decide,
    by decide⟩

/-- V-ENC-20 and V-ENC-21: the capacity exactly `LEN + 8`, and one less. -/
theorem witness_EncMsgWritesOrReportsCapacity :
    start.enc = .idle ∧ start.cfg.registry[(0 : BitVec 32).toNat]? = some ⟨0x05, 0x01, 2, 0⟩ ∧
    (9 : BitVec 17).toNat < (2 : Half).toNat + 8 ∧ (2 : Half).toNat + 8 ≤ (10 : BitVec 17).toNat := by decide

/-- V-ENC-30, as an operation and on `enc_type`, also with a wire too many; every way to break R13 (U18), and the ceiling
65535 with the example registry, which breaks none; a payload byte that nobody presents. -/
theorem witness_RefusedTypesConfigurationsAndPayloads :
    (start.enc = .idle ∧ start.cfg.registry.length ≤ (6 : BitVec 32).toNat) ∧
    (start.cfg.registry.length ≤ (Bits.mk 3 6).bits.toNat ∧ (Bits.mk 4 0).width ≠ typeWidth start.cfg) ∧
    (65536 > 65535 ∧
      (∃ (i j : Nat) (a b : TypeRow), i ≠ j ∧ ([⟨0x05, 0x01, 2, 0⟩, ⟨0x05, 0x01, 2, 1⟩] : List TypeRow)[i]? = some a ∧
        ([⟨0x05, 0x01, 2, 0⟩, ⟨0x05, 0x01, 2, 1⟩] : List TypeRow)[j]? = some b ∧ a.cls = b.cls ∧ a.id = b.id ∧
        a.len = b.len) ∧
      (∃ r ∈ exampleRegistry, ([0x01, 0x05] : List Byte).count r.cls ≠ 1) ∧ ¬([0x05, 0x05] : List Byte).Nodup) ∧
    (∃ s, construct 65535 .silent [0x01, 0x05, 0x06] exampleRegistry = .next s) ∧
    ∃ job, (encAt (.payload 1) Ck.zero).enc = .busy job ∧ job.phase = .payload 1 ∧ job.src = .port ∧
      PortsIn.idle.encPdata = none := by
  refine ⟨by decide, by decide, ⟨by decide, ⟨0, 1, _, _, by decide, rfl, rfl, rfl, rfl, rfl⟩, ?_, by decide⟩, ⟨_, rfl⟩, _,
    rfl, rfl, rfl, rfl⟩
  decide

/-- The cycles of V-ENC-7's emission: eleven, with the payload on `enc_pdata` in the seventh to the ninth. -/
def emissionCycles : List PortsIn :=
  List.replicate 6 PortsIn.idle ++ ([0xB5, 0x62, 0x00].map fun b => { PortsIn.idle with encPdata := some b }) ++
    List.replicate 2 PortsIn.idle

/-- A presented payload, a payload in `MSG_BUF` with no request waiting, and an empty one. -/
theorem witness_ByteSerialEmissionIsTheFrame :
    (emissionCycles.length = ([0xB5, 0x62, 0x00] : List Byte).length + 8 ∧
      (∀ c ∈ emissionCycles, c.rst = false ∧ c.cmd = 0 ∧ c.raddr = none) ∧
      emissionCycles[6]? = some { PortsIn.idle with encPdata := some 0xB5 } ∧
      emissionCycles[8]? = some { PortsIn.idle with encPdata := some 0x00 } ∧
      (encAt .sync1 Ck.zero).encCk = ⟨0x00, 0x00⟩ ∧
      (encAt .sync1 Ck.zero).enc =
        .busy { cls := 0x06, id := 0x01, len := BitVec.ofNat 16 ([0xB5, 0x62, 0x00] : List Byte).length,
                src := .port, phase := .sync1 }) ∧
    (reencoding.inputs = [] ∧ Memory.readFrom reencoding.buf 0 ([0x06] : List Byte).length = some [0x06]) ∧
    Memory.readFrom start.buf 0 ([] : List Byte).length = some [] := by decide

/-- The requests of the three clauses: `ENC.FRAME`, and `ENC.MSG` with too little and with enough capacity. -/
theorem witness_EncGoLatchesTheOperands :
    (withCycle { PortsIn.idle with cmd := 0x10, encLen := 1 } start).enc = .idle ∧
    (Bits.mk 3 0).width = typeWidth start.cfg ∧
    start.cfg.registry[(Bits.mk 3 0).bits.toNat]? = some ⟨0x05, 0x01, 2, 0⟩ ∧
    (9 : BitVec 17).toNat < (2 : Half).toNat + 8 ∧ (2 : Half).toNat + 8 ≤ (10 : BitVec 17).toNat := by decide

/-- A triple of the registry, and one whose length matches no type (V-DP-2). -/
theorem witness_DispatchSelectsTheExactTriple :
    start.cfg.registry[3]? = some ⟨0x06, 0x01, 3, 3⟩ ∧
    (3 : Half).toNat = ([0xB5, 0x62, 0x00] : List Byte).length ∧
    ∀ r ∈ start.cfg.registry, ¬(r.cls = 0x05 ∧ r.id = 0x01 ∧ r.len.toNat = ([0x06] : List Byte).length) := by decide

/-- The same two at the ports, the first with a decoder that fails. -/
theorem witness_DispatchPortsShowTheSelectedType :
    start.enc = .idle ∧ (dispatchCycle 0x05 0x01 2 true).rst = false ∧
    (dispatchCycle 0x05 0x01 2 true).raddr = none ∧ (dispatchCycle 0x05 0x01 2 true).cmd = 0x40 ∧
    start.cfg.registry[0]? = some ⟨0x05, 0x01, 2, 0⟩ ∧
    ∀ r ∈ start.cfg.registry, ¬(r.cls = (dispatchCycle 0x05 0x01 1 false).dpCls ∧
      r.id = (dispatchCycle 0x05 0x01 1 false).dpId ∧ r.len = (dispatchCycle 0x05 0x01 1 false).dpLen) := by decide

theorem witness_ConfigurationNeverChanges :
    (∃ t, exec (.ckPush 0x05) start = .next t) ∧ ∃ t, step start = .next t := ⟨⟨_, rfl⟩, _, rfl⟩

/-- An operation of each unit completes. -/
theorem witness_OperationsTouchOnlyTheirUnit :
    (∃ t, exec .ckTake start = .next t) ∧ (∃ t, exec (.dfPush 0x26) atCkb = .next t) ∧
    (∃ t, exec (.encFrame 0x05 0x01 [0x06]) start = .next t) ∧ ∃ t, exec (.dispDispatch 0x0A 0x04 []) start = .next t :=
  ⟨⟨_, rfl⟩, ⟨_, rfl⟩, ⟨_, rfl⟩, _, rfl⟩

theorem witness_OnlyTheMessageStepStores :
    ∃ t, exec (stepOfCode 5 0x06) atStale = .next t ∧ Memory.read t.buf 0 = some 0x06 := ⟨_, rfl, rfl⟩

theorem witness_EveryStepKeepsTheInvariant :
    (Inv start ∧ ∃ t, step start = .next t) ∧
    (Inv (encAt (.payload 2) Ck.zero) ∧
      ∃ t, step (withCycle { PortsIn.idle with encPdata := some 0x00 } (encAt (.payload 2) Ck.zero)) = .next t) :=
  ⟨⟨inv_start, _, rfl⟩, inv_encAt, _, rfl⟩

theorem witness_EnvelopeIsReadableAfterItsStep :
    Inv atCkb ∧ ∃ t, exec (.dfPush 0x26) atCkb = .next t ∧ outcomes t.out.df = [.envelope ⟨0x05, 0x01, [0x06]⟩] ∧
      ([0x06] : List Byte)[(0 : Half).toNat]? = some 0x06 ∧ t.enc = .idle := ⟨inv_atCkb, _, rfl, rfl, rfl, rfl⟩

/-- Seven pushes after the Envelope: its byte 1 is still there (`7 <= 6 + 1`). -/
theorem witness_EnvelopeStaysReadableUntilOverwritten :
    Inv { atCkb with df := .ckb 0x05 0x01 2 0x0D 0x26, buf := [(0, 0x06), (1, 0x01)] } ∧ ∃ t u,
      exec (.dfPush 0x26) { atCkb with df := .ckb 0x05 0x01 2 0x0D 0x26, buf := [(0, 0x06), (1, 0x01)] } = .next t ∧
      outcomes t.out.df = [.envelope ⟨0x05, 0x01, [0x06, 0x01]⟩] ∧
      exec (.dfBatch [0xB5, 0x62, 0x06, 0x01, 0x02, 0x00, 0xEE]) t = .next u ∧
      ([0x06, 0x01] : List Byte)[1]? = some 0x01 ∧ start.cfg.policy = .report ∧
      ∀ o ∈ outcomes u.out.df, o = .noOutput := by
  refine ⟨⟨by simp [Memory.wf], ?_, ⟨by decide, ?_⟩, (fun _ h => nomatch h), trivial⟩, _, _, rfl, rfl, rfl, rfl, rfl, ?_⟩
  · intro i hi
    have : 16 ≤ i := hi
    show Memory.read [(0, 0x06), (1, 0x01)] i = none
    simp only [Memory.read]
    rw [if_neg (by omega), if_neg (by omega)]
  · intro i hi
    have : i < 2 := hi
    show (Memory.read [(0, 0x06), (1, 0x01)] i).isSome = true
    match i, this with
    | 0, _ => rfl
    | 1, _ => rfl
  · decide

/-- The host's read; a re-encoding's read at an index without a value, and against another index of the host; an error. -/
theorem witness_UnspecifiedBytesCannotBeRead :
    (atCkb.enc.fetches = none ∧ Memory.read atCkb.buf (1 : Half).toNat = none) ∧
    ({ reencoding with buf := [] }.enc.fetches = some 0 ∧ Memory.read ([] : Memory) (0 : Half).toNat = none) ∧
    (reencoding.enc.fetches = some 0 ∧ (1 : Half) ≠ 0) ∧
    ∃ t e, exec (.dfPush 0x27) atCkb = .next t ∧ t.out.df = [e] ∧ endsWalk atCkb 0x27 e.outcome ∧
      ∀ env, e.outcome ≠ .envelope env :=
  ⟨⟨rfl, by decide⟩, ⟨rfl, rfl⟩, ⟨rfl, by decide⟩, _, _, rfl, rfl, .inl (by simp), (fun _ h => nomatch h)⟩

theorem witness_ReadDuringAStoreGivesTheOldValue :
    Inv atStale ∧ atStale.enc = .idle ∧ atStale.df = .message 0x05 0x01 1 0 ∧
    Memory.read atStale.buf (0 : Half).toNat = some 0xAA := ⟨inv_atStale, rfl, rfl, by decide⟩

/-- `CK.PUSH` with `DF.PUSH` and ENC emitting; `CK.TAKE` with `DF.RESET`; `ENC.FRAME`, `ENC.MSG` and `DISP.DISPATCH`. -/
theorem witness_UnitsOfOneCycleActIndependently :
    (selects { PortsIn.idle with cmd := 0x09 } .ckPush = true ∧ selects { PortsIn.idle with cmd := 0x09 } .dfPush = true ∧
      ∃ t, cycle { PortsIn.idle with cmd := 0x09 } (encAt .sync1 Ck.zero) = .next t) ∧
    (selects { PortsIn.idle with cmd := 0x06 } .ckTake = true ∧
      selects { PortsIn.idle with cmd := 0x06 } .dfReset = true ∧
      ∃ t, cycle { PortsIn.idle with cmd := 0x06 } start = .next t) ∧
    (selects { PortsIn.idle with cmd := 0x50 } .encFrame = true ∧
      selects { PortsIn.idle with cmd := 0x50 } .dispDispatch = true ∧
      ∃ t, cycle { PortsIn.idle with cmd := 0x50 } start = .next t) ∧
    (selects { PortsIn.idle with cmd := 0x30, encType := ⟨3, 0⟩ } .encMsg = true ∧
      ∃ t, cycle { PortsIn.idle with cmd := 0x30, encType := ⟨3, 0⟩ } start = .next t) :=
  ⟨⟨by decide, by decide, _, rfl⟩, ⟨by decide, by decide, _, rfl⟩, ⟨by decide, by decide, _, rfl⟩, by decide, _, rfl⟩

/-- Each outcome code occurs on the ports. -/
theorem witness_DfPortsShowTheOutcome :
    selects { PortsIn.idle with cmd := 0x08 } .dfPush = true ∧
    (∃ t, cycle { PortsIn.idle with cmd := 0x08 } start = .next t ∧ t.ports.dfKind = 0) ∧
    (∃ t, cycle { PortsIn.idle with cmd := 0x08, dfByte := 0x26 } atCkb = .next t ∧ t.ports.dfKind = 1) ∧
    (∃ t, cycle { PortsIn.idle with cmd := 0x08, dfByte := 0x27 } atCkb = .next t ∧ t.ports.dfKind = 2) ∧
    (∃ t, cycle { PortsIn.idle with cmd := 0x08 } (at_ (.lenMsb 0x05 0x01 0x11) Ck.zero) = .next t ∧
      t.ports.dfKind = 3) :=
  ⟨by decide, ⟨_, rfl, rfl⟩, ⟨_, rfl, rfl⟩, ⟨_, rfl, rfl⟩, ⟨_, rfl, rfl⟩⟩

end Sys2Proof.Tests
end

/-! PROOFS. The scope statements of `00_scope.md`: the oversize policy (R10), what one step runs (R18), and what is
refused (R13, R183). -/

namespace Sys2Proof.Machine

/-! ### The oversize policy (R10)

Running under SILENT commutes with every push: it is the run under any policy with its oversize reports erased. -/

/-- The state under another policy. -/
def State.withPolicy (p : OversizePolicy) (s : State) : State := { s with cfg := { s.cfg with policy := p } }

/-- An outcome as SILENT reports it: no oversize error (R10). -/
def DfOutcome.silence : DfOutcome → DfOutcome
  | .errOversize _ _ => .noOutput
  | .noOutput => .noOutput
  | .envelope env => .envelope env
  | .errChecksum => .errChecksum

/-- An event as SILENT reports it. -/
def DfEvent.silence (e : DfEvent) : DfEvent := { e with outcome := e.outcome.silence }

section Policy

variable (p : OversizePolicy) (s : State)

@[simp] theorem withPolicy_df : (s.withPolicy p).df = s.df := rfl
@[simp] theorem withPolicy_buf : (s.withPolicy p).buf = s.buf := rfl
@[simp] theorem withPolicy_maxLen : (s.withPolicy p).cfg.maxLen = s.cfg.maxLen := rfl

/-- What is oversize is the same under either policy (R146). -/
@[simp] theorem oversize_withPolicy (n : Half) : oversize (s.withPolicy p).cfg n = oversize s.cfg n := rfl

/-- The one place that reads the policy (R10, R147). -/
theorem oversizeOutcome_silent (n : Half) :
    oversizeOutcome (s.withPolicy .silent).cfg n = (oversizeOutcome s.cfg n).silence := by
  show DfOutcome.noOutput = _
  unfold oversizeOutcome
  cases s.cfg.policy <;> rfl

end Policy

/-- One push under SILENT (R10, R151). -/
theorem pushByte_silent (b : Byte) (s : State) :
    pushByte b (s.withPolicy .silent) =
      andThen (pushByte b s) fun r => .next (r.1.withPolicy .silent, r.2.silence) := by
  have hdf {d : DfState} (e : s.df = d) : (s.withPolicy .silent).df = d := e
  cases e : s.df with
  | sync sr =>
    rw [pushByte_sync (hdf e), pushByte_sync e]
    unfold stepSync
    split <;> rfl
  | cls => rw [pushByte_cls (hdf e), pushByte_cls e]; rfl
  | id c => rw [pushByte_id (hdf e), pushByte_id e]; rfl
  | lenLsb c m => rw [pushByte_lenLsb (hdf e), pushByte_lenLsb e]; rfl
  | lenMsb c m lo =>
    rw [pushByte_lenMsb (hdf e), pushByte_lenMsb e]
    unfold stepLenMsb
    rw [oversize_withPolicy, oversizeOutcome_silent]
    split
    · rfl
    · split <;> rfl
  | message c m len cnt =>
    rw [pushByte_message (hdf e), pushByte_message e]
    unfold stepMessage memWrite
    rw [withPolicy_maxLen]
    split
    · simp only [andThen_next]
      split <;> rfl
    · rfl
  | cka c m len ea eb =>
    rw [pushByte_cka (hdf e), pushByte_cka e]
    unfold stepCka
    split <;> rfl
  | ckb c m len ea eb =>
    rw [pushByte_ckb (hdf e), pushByte_ckb e]
    unfold stepCkb readMsg
    rw [withPolicy_buf]
    split
    · cases Memory.readFrom s.buf 0 len.toNat <;> rfl
    · rfl

/-- A byte sequence that completes does so under SILENT, with its oversize reports erased (R10, R152). -/
theorem pushAll_silent {xs : List Byte} {s t : State} {evs : List DfEvent} (h : pushAll xs s = .next (t, evs)) :
    pushAll xs (s.withPolicy .silent) = .next (t.withPolicy .silent, evs.map DfEvent.silence) := by
  induction xs generalizing s evs with
  | nil => cases h; rfl
  | cons x xs ih =>
    obtain ⟨u, o, rest, hx, hxs, rfl⟩ := pushAll_cons_eq_next.1 h
    have hx' : pushByte x (s.withPolicy .silent) = .next (u.withPolicy .silent, o.silence) := by
      rw [pushByte_silent, hx, andThen_next]
    exact pushAll_cons_of hx' (ih hxs)

theorem outcomes_map_silence (evs : List DfEvent) :
    outcomes (evs.map DfEvent.silence) = (outcomes evs).map DfOutcome.silence := by
  simp only [outcomes, List.map_map]
  rfl

/-- The policy is no part of what holds of DF's registers. -/
theorem dfInv_policy_iff {cfg : Config} {p : OversizePolicy} {m : Memory} {d : DfState} :
    dfInv { cfg with policy := p } m d ↔ dfInv cfg m d := by
  cases d <;> exact Iff.rfl

/-- The policy is no part of DF's invariant. -/
theorem dfInv_withPolicy {p : OversizePolicy} {s : State} (h : DfInv s) : DfInv (s.withPolicy p) :=
  ⟨h.wf, h.within, dfInv_policy_iff.2 h.df, h.shown⟩

/-- Settles O36: a batch completes under REPORT from every state of the invariant, and the run under SILENT is that run
with its oversize reports erased. -/
theorem oversizePolicyOnlyChangesTheReport : Obligations.OversizePolicyOnlyChangesTheReport := by
  intro s bytes hs
  obtain ⟨u, evs, hreport, -⟩ := pushAll_complete bytes (dfInv_withPolicy (p := .report) hs.toDfInv)
  have hsilent := pushAll_silent hreport
  refine ⟨_, _, consume_eq_next.2 ⟨_, _, hsilent, rfl⟩, consume_eq_next.2 ⟨_, _, hreport, rfl⟩, rfl, rfl, rfl, rfl,
    ?_⟩
  refine (outcomes_map_silence evs).trans (List.map_congr_left fun o _ => ?_)
  cases o <;> rfl

/-! ### What a step runs (R18, R68) -/

/-- The row of a step word is a push where DF has the state it names, and stops otherwise (R92, R106). -/
theorem exec_stepOfCode (code : BitVec 3) (b : Byte) (s : State) :
    exec (stepOfCode code b) s = if s.df.code = code then execDfPush b s else .refused .stepNotSelected := by
  have hcode : ∀ c : BitVec 3, c = 0#3 ∨ c = 1#3 ∨ c = 2#3 ∨ c = 3#3 ∨ c = 4#3 ∨ c = 5#3 ∨ c = 6#3 ∨ c = 7#3 := by
    decide
  obtain ⟨_, _, df, _⟩ := s
  -- the table of eight words against eight states
  rcases hcode code with rfl | rfl | rfl | rfl | rfl | rfl | rfl | rfl <;> cases df <;> rfl

section KeepsEnc

variable {s t : State} {b : Byte}

theorem execDfPush_enc (h : execDfPush b s = .next t) : t.enc = s.enc := by
  obtain ⟨u, o, hu, rfl⟩ := execDfPush_eq_next.1 h
  obtain ⟨-, -, henc, -⟩ := pushByte_frame hu
  exact henc

theorem exec_stepOfCode_enc {code : BitVec 3} (h : exec (stepOfCode code b) s = .next t) : t.enc = s.enc := by
  rw [exec_stepOfCode] at h
  split at h
  · exact execDfPush_enc h
  · cases h

theorem consume_enc {xs : List Byte} (h : consume xs s = .next t) : t.enc = s.enc := by
  obtain ⟨u, evs, hu, rfl⟩ := consume_eq_next.1 h
  obtain ⟨-, -, henc, -⟩ := pushAll_frame hu
  exact henc

/-- A row that is refused or consumes its bytes. -/
theorem ite_consume_enc {c : Bool} {xs : List Byte} {r : Refusal}
    (h : (if c = true then consume xs s else .refused r) = .next t) : t.enc = s.enc := by
  split at h
  · exact consume_enc h
  · cases h

/-- No whole operation moves the sequencer of ENC: a frame in progress is emitted by clock cycles only (R185,
assumption 9). -/
theorem exec_enc {i : Instr} (h : exec i s = .next t) : t.enc = s.enc := by
  cases i with
  | ckPush d => cases h; rfl
  | ckTake => cases h; rfl
  | dfReset => cases h; rfl
  | dfPush b => exact execDfPush_enc h
  | encFrame cls id p =>
    obtain ⟨-, -, rfl⟩ := execEncFrame_eq_next.1 h
    rfl
  | encMsg n v cap =>
    obtain ⟨-, r, -, rfl⟩ := execEncMsg_eq_next.1 h
    split <;> rfl
  | dispDispatch cls mid msg => cases h; rfl
  | dfPushSync b => exact exec_stepOfCode_enc (code := 0#3) h
  | dfPushClass b => exact exec_stepOfCode_enc (code := 1#3) h
  | dfPushId b => exact exec_stepOfCode_enc (code := 2#3) h
  | dfPushLenLsb b => exact exec_stepOfCode_enc (code := 3#3) h
  | dfPushLenMsb b => exact exec_stepOfCode_enc (code := 4#3) h
  | dfPushMessage b => exact exec_stepOfCode_enc (code := 5#3) h
  | dfPushCka b => exact exec_stepOfCode_enc (code := 6#3) h
  | dfPushCkb b => exact exec_stepOfCode_enc (code := 7#3) h
  | frame cls id p a b => exact ite_consume_enc h
  | dfBatch xs => exact consume_enc h
  | dotFrame cls id p => exact ite_consume_enc h

end KeepsEnc

/-- The guard is no more than the step where the step changes no source (R185). -/
theorem guardSource_eq_self {s : State} {r : Result State} (h : ∀ t, r = .next t → sourceChanged s t = false) :
    guardSource s r = r := by
  cases r with
  | next t => simp [guardSource, h t rfl]
  | fault e => rfl
  | refused e => rfl

/-- With no re-encoding from `MSG_BUF` in progress the guard lets every operation through (R185). -/
theorem guardSource_exec {s s' : State} (i : Instr) (henc : s'.enc = s.enc)
    (h : ∀ job, s.enc = .busy job → job.src = .port) : guardSource s (exec i s') = exec i s' := by
  refine guardSource_eq_self fun t ht => ?_
  have ht : t.enc = s.enc := (exec_enc ht).trans henc
  cases e : s.enc with
  | idle => exact sourceChanged_idle (ht.trans e)
  | busy job => exact sourceChanged_port (ht.trans e) (h job e)

/-- A step on a request of bytes. -/
theorem step_op {s : State} {fmt : Format} {bs : List Byte} {rest : List HostInput} (h : s.inputs = .op fmt bs :: rest) :
    step s = guardSource s (runOp fmt bs rest s) := by
  simp only [step, takeInput, h]

/-- Settles O5: each kind of request is run as its bytes decode, and an operation does not move ENC, so the guard can hold
back none but a re-encoding from `MSG_BUF`. -/
theorem stepRunsTheDecodedOperation : Obligations.StepRunsTheDecodedOperation := by
  intro s fmt bytes rest hin
  refine ⟨fun i more hdec => ?_, fun is more hfmt hdec => ?_, fun e hfmt hdec => ?_⟩
  · have hstep := step_of_decode hin hdec
    exact ⟨hstep, fun hport => hstep.trans (guardSource_exec i rfl hport)⟩
  · subst hfmt
    rw [step_op hin]
    simp only [runOp, hdec]
    rfl
  · subst hfmt
    rw [step_op hin]
    simp only [runOp, show decodeWire bytes = _ from hdec]
    rfl

/-! ### What is refused (R13, R183, R185) -/

section Encoder

variable {s : State} {p : PortsIn}

/-- With ENC idle `ENC.MSG` for an index outside the registry is refused, whatever the capacity (R183). -/
theorem execEncMsg_refused {n : BitVec 32} {v : Value} {cap : BitVec 17} (hidle : s.enc = .idle)
    (hn : s.cfg.registry.length ≤ n.toNat) : execEncMsg n v cap s = .refused .badTypeIndex := by
  rw [execEncMsg, hidle, encRow_refused hn]
  rfl

/-- `enc_type` selects no row when it names none or has not `TW` wires (R42, R183). -/
theorem portRow_refused {t : Bits} (h : s.cfg.registry.length ≤ t.bits.toNat ∨ t.width ≠ typeWidth s.cfg) :
    portRow t s = .refused .badTypeIndex := by
  unfold portRow
  split
  · next hw => exact encRow_refused (h.resolve_right fun hne => hne hw)
  · rfl

/-- A cycle with the strobe `enc_go` alone in mode 1 is refused when `enc_type` selects no row (R48, R183). -/
theorem cycle_encMsg_refused (hidle : s.enc = .idle) (hrst : p.rst = false) (hraddr : p.raddr = none)
    (hcmd : p.cmd = 0x30#7)
    (h : s.cfg.registry.length ≤ p.encType.bits.toNat ∨ p.encType.width ≠ typeWidth s.cfg) :
    cycle p s = .refused .badTypeIndex := by
  have hstrobes : cmdTwoStrobes (strobes p) = false := by rw [strobes, hcmd]; decide
  have hframe : selects p .encFrame = false := by rw [selects, strobes, hcmd]; decide
  have hmsg : selects p .encMsg = true := by rw [selects, strobes, hcmd]; decide
  have hport : readPort p s = .next none := by rw [readPort_idle hidle, hraddr]; rfl
  have hgo : encGoMsg p s = .refused .badTypeIndex := by rw [encGoMsg, hidle, portRow_refused h]; rfl
  have henc : encUnit p none s = .refused .badTypeIndex := by simp [encUnit, hframe, hmsg, hgo]
  simp [cycle, hrst, hstrobes, hport, runUnits, henc]

/-- An emission that does not re-encode leaves the read port to the host (R47). -/
theorem fetches_of_port {job : EncJob} (h : job.src = .port) : (EncState.busy job).fetches = none := by
  obtain ⟨cls, id, len, src, phase⟩ := job
  subst h
  rfl

/-- An emission that does not re-encode takes its payload from `enc_pdata` (R48). -/
theorem pdata_of_port {job : EncJob} {d r : Option Byte} (h : job.src = .port) : (EncState.busy job).pdata d r = d := by
  obtain ⟨cls, id, len, src, phase⟩ := job
  subst h
  rfl

/-- A quiet cycle in which `enc_paddr` asks for a byte that nobody presents is refused (R185, U17, U19). -/
theorem cycle_payload_refused {job : EncJob} {idx : Half} (hbusy : s.enc = .busy job) (hphase : job.phase = .payload idx)
    (hsrc : job.src = .port) (hrst : p.rst = false) (hcmd : p.cmd = 0#7) (hraddr : p.raddr = none)
    (hpdata : p.encPdata = none) : cycle p s = .refused .payloadSource := by
  have hport : readPort p s = .next none := by
    simp [readPort, portIndex, hbusy, fetches_of_port hsrc, hraddr, readAt]
  have htick : encTick none s = .refused .payloadSource := by simp [encTick, hbusy, tickJob, hphase, payloadByte]
  rw [cycle_quiet hrst hcmd, hport, andThen_next, hbusy, pdata_of_port hsrc, hpdata, htick]
  rfl

end Encoder

section Construction

variable {categories : List Byte} {registry : List TypeRow}

/-- R13 (a): no two indices of the registry hold one triple. -/
theorem nodup_rowTriple_iff :
    (registry.map rowTriple).Nodup ↔ ∀ (i j : Nat) (a b : TypeRow), registry[i]? = some a → registry[j]? = some b →
      a.cls = b.cls → a.id = b.id → a.len = b.len → i = j := by
  constructor
  · intro hnodup i j a b ha hb hcls hid hlen
    obtain ⟨hi, -⟩ := List.getElem?_eq_some_iff.1 ha
    refine (List.getElem?_inj (by simpa using hi) hnodup).1 ?_
    simp [ha, hb, rowTriple, hcls, hid, hlen]
  · intro htriples
    rw [List.nodup_iff_getElem?_ne_getElem?]
    intro i j hij hj heq
    rw [List.length_map] at hj
    have ha := List.getElem?_eq_getElem (hij.trans hj)
    have hb := List.getElem?_eq_getElem hj
    have htriple : rowTriple registry[i] = rowTriple registry[j] := by simpa [ha, hb] using heq
    obtain ⟨hcls, hid, hlen⟩ : _ ∧ _ ∧ _ := by simpa [rowTriple] using htriple
    exact hij.ne (htriples i j _ _ ha hb hcls hid hlen)

/-- R13 (a) to (c), in words. -/
theorem tablesWf_iff :
    tablesWf categories registry = true ↔
      (registry.map rowTriple).Nodup ∧ (∀ r ∈ registry, categories.count r.cls = 1) ∧ categories.Nodup := by
  simp [tablesWf, and_assoc]

theorem construct_refused {maxLen : Nat} {policy : OversizePolicy}
    (h : ¬(maxLen ≤ 65535 ∧ tablesWf categories registry = true)) :
    construct maxLen policy categories registry = .refused .illFormedConfig := by
  unfold construct
  split
  · next hmax => rw [dif_neg fun hwf => h ⟨hmax, hwf⟩]
  · rfl

/-- Construction with a configuration that meets R13 gives a block with exactly that configuration (R50, R261). -/
theorem construct_next {maxLen : Nat} {policy : OversizePolicy} (hmax : maxLen ≤ 65535)
    (hwf : tablesWf categories registry = true) :
    ∃ s, construct maxLen policy categories registry = .next s ∧ s.cfg.maxLen.toNat = maxLen ∧
      s.cfg.policy = policy ∧ s.cfg.categories = categories ∧ s.cfg.registry = registry := by
  unfold construct
  rw [if_pos hmax, dif_pos hwf]
  exact ⟨_, rfl, Nat.mod_eq_of_lt (by omega), rfl, rfl, rfl⟩

end Construction

/-- Settles O45: ENC refuses a type index outside the registry and a payload byte nobody presents where it asks for them, and
construction checks R13 (a) to (d) and nothing else. -/
theorem refusedTypesConfigurationsAndPayloads : Obligations.RefusedTypesConfigurationsAndPayloads := by
  refine ⟨fun s t v cap hidle ht => execEncMsg_refused hidle ht,
    fun s p hidle hrst hraddr hcmd h => cycle_encMsg_refused hidle hrst hraddr hcmd h,
    fun maxLen policy categories registry => ⟨fun h => construct_refused ?_, fun hmax htriples hclass hcats => ?_⟩,
    fun s p job idx hbusy hphase hsrc hrst hcmd hraddr hpdata =>
      cycle_payload_refused hbusy hphase hsrc hrst hcmd hraddr hpdata⟩
  · rw [tablesWf_iff, nodup_rowTriple_iff]
    rintro ⟨hmax, htriples, hclass, hcats⟩
    rcases h with hover | ⟨i, j, a, b, hne, ha, hb, hcls, hid, hlen⟩ | ⟨r, hr, hcount⟩ | hdup
    · omega
    · exact hne (htriples i j a b ha hb hcls hid hlen)
    · exact hcount (hclass r hr)
    · exact hdup hcats
  · exact construct_next hmax (tablesWf_iff.2 ⟨nodup_rowTriple_iff.2 htriples, hclass, hcats⟩)

end Sys2Proof.Machine

/-! PROOFS. The state statements of `10_state.md`: what an operation leaves to the other units (R39), the configuration
(R40), the invariant (R24, R29), reset (R50), the units of one clock cycle (R45), the tagged sum (R24), the checksum pair
(R22), and the ports of DF and DISP (R47, R49). -/

namespace Sys2Proof.Machine

/-! ### What an operation of one unit leaves to the others (R39, R41, R45) -/

/-- From `s` to `t` only unit `u` did something: the other units' state and reports, the configuration, the queue and the
recorded ports are as they were. -/
structure ActsOn (u : UnitName) (s t : State) : Prop where
  cfg : t.cfg = s.cfg
  ck : u ≠ .ck → keepsCk s t
  df : u ≠ .df → keepsDf s t
  enc : u ≠ .enc → keepsEnc s t
  disp : u ≠ .disp → keepsDisp s t
  inputs : t.inputs = s.inputs
  ports : t.ports = s.ports

section ActsOn

variable {s t : State} {u : UnitName}

theorem ActsOn.refl (u : UnitName) (s : State) : ActsOn u s s :=
  ⟨rfl, fun _ => ⟨rfl, rfl⟩, fun _ => ⟨rfl, rfl, rfl, rfl, rfl⟩, fun _ => ⟨rfl, rfl, rfl⟩, fun _ => rfl, rfl, rfl⟩

theorem actsOn_setCk (c : Ck) (o : CkOut) : ActsOn .ck s ((s.setCk c).setOutCk o) :=
  ⟨rfl, fun h => absurd rfl h, fun _ => ⟨rfl, rfl, rfl, rfl, rfl⟩, fun _ => ⟨rfl, rfl, rfl⟩, fun _ => rfl, rfl, rfl⟩

theorem actsOn_setOutDp (o : DispOut) : ActsOn .disp s (s.setOutDp o) :=
  ⟨rfl, fun _ => ⟨rfl, rfl⟩, fun _ => ⟨rfl, rfl, rfl, rfl, rfl⟩, fun _ => ⟨rfl, rfl, rfl⟩, fun h => absurd rfl h, rfl,
    rfl⟩

theorem actsOn_of_encFrame (h : encFrame s t) : ActsOn .enc s t := by
  obtain ⟨hcfg, hck, hdf, hckDf, hbuf, hshown, hports, hinputs, houtCk, houtDf, houtDp⟩ := h
  exact ⟨hcfg, fun _ => ⟨hck, houtCk⟩, fun _ => ⟨hdf, hckDf, hbuf, hshown, houtDf⟩, fun h => absurd rfl h,
    fun _ => houtDp, hinputs, hports⟩

/-- Reporting after DF's own registers moved touches no other unit. -/
theorem actsOn_of_pushFrame (h : pushFrame s t) (evs : List DfEvent) : ActsOn .df s (t.setOutDf evs) := by
  obtain ⟨hcfg, hck, henc, hencCk, hout, hports, hinputs⟩ := h
  exact ⟨hcfg, fun _ => ⟨hck, (congrArg Out.ck hout :)⟩, fun h => absurd rfl h,
    fun _ => ⟨henc, hencCk, (congrArg Out.enc hout :)⟩, fun _ => (congrArg Out.dp hout :), hinputs, hports⟩

theorem sameDf_of_keepsDf (hcfg : t.cfg = s.cfg) (h : keepsDf s t) : SameDf s t := by
  obtain ⟨hdf, hckDf, hbuf, hshown, -⟩ := h
  exact ⟨hcfg.symm, hdf.symm, hckDf.symm, hbuf.symm, hshown.symm⟩

/-- A step of another unit leaves what DF reads. -/
theorem ActsOn.sameDf (h : ActsOn u s t) (hu : u ≠ .df) : SameDf s t := sameDf_of_keepsDf h.cfg (h.df hu)

end ActsOn

/-- What DF does in one step: its reset (R140), or the pushes of a byte sequence (R141, R152). -/
inductive DfStep (s : State) : State → Prop where
  | reset : DfStep s (((abandon s).setCkDf Ck.zero).setOutDf [])
  | pushes {xs : List Byte} {t : State} {evs : List DfEvent} (h : pushAll xs s = .next (t, evs)) :
      DfStep s (t.setOutDf evs)

section DfStep

variable {s t : State} {b : Byte}

theorem dfStep_push (h : execDfPush b s = .next t) : DfStep s t := by
  obtain ⟨u, o, hu, rfl⟩ := execDfPush_eq_next.1 h
  exact .pushes (pushAll_cons_of hu (pushAll_nil u))

theorem dfStep_stepOfCode {code : BitVec 3} (h : exec (stepOfCode code b) s = .next t) : DfStep s t := by
  rw [exec_stepOfCode] at h
  split at h
  · exact dfStep_push h
  · cases h

theorem dfStep_consume {xs : List Byte} (h : consume xs s = .next t) : DfStep s t := by
  obtain ⟨u, evs, hu, rfl⟩ := consume_eq_next.1 h
  exact .pushes hu

/-- A row that consumes its bytes unless it is refused. -/
theorem dfStep_ite_consume {c : Bool} {xs : List Byte} {r : Refusal}
    (h : (if c = true then consume xs s else .refused r) = .next t) : DfStep s t := by
  split at h
  · exact dfStep_consume h
  · cases h

theorem DfStep.actsOn (h : DfStep s t) : ActsOn .df s t := by
  cases h with
  | reset =>
    have hframe : pushFrame s ((abandon s).setCkDf Ck.zero) := ⟨rfl, rfl, rfl, rfl, rfl, rfl, rfl⟩
    exact actsOn_of_pushFrame hframe []
  | pushes h => exact actsOn_of_pushFrame (pushAll_frame h) _

/-- Reports and CK_DF are no part of DF's invariant. -/
theorem DfStep.keeps (h : DfStep s t) (hs : DfInv s) : DfInv t := by
  cases h with
  | reset =>
    obtain ⟨hwf, hwithin, hdf, hshown⟩ := dfInv_abandon s
    exact ⟨hwf, hwithin, hdf, hshown⟩
  | pushes h =>
    obtain ⟨hwf, hwithin, hdf, hshown⟩ := pushAll_keeps h hs
    exact ⟨hwf, hwithin, hdf, hshown⟩

/-- Every operation of DF is a reset or a byte sequence pushed. -/
theorem exec_dfStep {i : Instr} (hu : unitOf i = .df) (h : exec i s = .next t) : DfStep s t := by
  cases i with
  | ckPush d => cases hu
  | ckTake => cases hu
  | dfReset => cases h; exact .reset
  | dfPush b => exact dfStep_push h
  | encFrame cls id p => cases hu
  | encMsg n v cap => cases hu
  | dispDispatch cls mid msg => cases hu
  | dfPushSync b => exact dfStep_stepOfCode (code := 0#3) h
  | dfPushClass b => exact dfStep_stepOfCode (code := 1#3) h
  | dfPushId b => exact dfStep_stepOfCode (code := 2#3) h
  | dfPushLenLsb b => exact dfStep_stepOfCode (code := 3#3) h
  | dfPushLenMsb b => exact dfStep_stepOfCode (code := 4#3) h
  | dfPushMessage b => exact dfStep_stepOfCode (code := 5#3) h
  | dfPushCka b => exact dfStep_stepOfCode (code := 6#3) h
  | dfPushCkb b => exact dfStep_stepOfCode (code := 7#3) h
  | frame cls id p a b => exact dfStep_ite_consume h
  | dfBatch xs => exact dfStep_consume h
  | dotFrame cls id p => exact dfStep_ite_consume h

end DfStep

section Exec

variable {s t : State} {i : Instr}

theorem writeFrame_frame (cls id : Byte) (p : List Byte) (s : State) : encFrame s (writeFrame cls id p s) :=
  ⟨rfl, rfl, rfl, rfl, rfl, rfl, rfl, rfl, rfl, rfl, rfl⟩

theorem setOutEnc_frame (o : EncOut) (s : State) : encFrame s (s.setOutEnc o) :=
  ⟨rfl, rfl, rfl, rfl, rfl, rfl, rfl, rfl, rfl, rfl, rfl⟩

/-- An operation acts on its own unit alone (R39, R23, R41). -/
theorem exec_actsOn (h : exec i s = .next t) : ActsOn (unitOf i) s t := by
  cases i with
  | ckPush d => cases h; exact actsOn_setCk _ _
  | ckTake => cases h; exact actsOn_setCk _ _
  | encFrame cls id p =>
    obtain ⟨-, -, rfl⟩ := execEncFrame_eq_next.1 h
    exact actsOn_of_encFrame (writeFrame_frame ..)
  | encMsg n v cap =>
    obtain ⟨-, r, -, rfl⟩ := execEncMsg_eq_next.1 h
    split
    · exact actsOn_of_encFrame (setOutEnc_frame ..)
    · exact actsOn_of_encFrame (writeFrame_frame ..)
  | dispDispatch cls mid msg => cases h; exact actsOn_setOutDp _
  | _ => exact (exec_dfStep rfl h).actsOn

end Exec

/-- Settles O51: every operation acts on its own unit alone. -/
theorem operationsTouchOnlyTheirUnit : Obligations.OperationsTouchOnlyTheirUnit := by
  intro i s t h
  have hacts := exec_actsOn h
  exact ⟨hacts.ck, hacts.df, hacts.enc, hacts.disp, hacts.inputs, hacts.ports⟩

/-- Settles O8: the operation starts with nothing reported, and leaves the other units' reports as they are. -/
theorem outcomesAreNotSticky : Obligations.OutcomesAreNotSticky := by
  intro s fmt bytes rest i more t hin hdec hstep
  rw [step_of_decode hin hdec, guardSource_eq_next] at hstep
  have hacts := exec_actsOn hstep.1
  refine ⟨fun hu => ?_, fun hu => ?_, fun hu => ?_, fun hu => hacts.disp hu⟩
  · obtain ⟨-, hout⟩ := hacts.ck hu
    exact hout
  · obtain ⟨-, -, -, -, hout⟩ := hacts.df hu
    exact hout
  · obtain ⟨-, -, hout⟩ := hacts.enc hu
    exact hout

/-! ### What a clock cycle does to each unit (R45, R91) -/

section Units

variable {s t : State} {p : PortsIn}

theorem encUnit_actsOn {d : Option Byte} (h : encUnit p d s = .next t) : ActsOn .enc s t :=
  actsOn_of_encFrame (encUnit_frame h)

theorem dispUnit_actsOn (h : dispUnit p s = .next t) : ActsOn .disp s t := by
  rcases dispUnit_eq_next h with rfl | ⟨o, rfl⟩
  · exact .refl _ _
  · exact actsOn_setOutDp o

theorem ckUnit_actsOn (h : ckUnit p s = .next t) : ActsOn .ck s t := by
  rcases ckUnit_eq_next h with rfl | ⟨c, o, rfl⟩
  · exact .refl _ _
  · exact actsOn_setCk c o

theorem dfUnit_dfStep (h : dfUnit p s = .next t) : t = s ∨ DfStep s t := by
  rcases dfUnit_eq_next h with rfl | rfl | h
  · exact .inl rfl
  · exact .inr .reset
  · exact .inr (dfStep_push h)

theorem dfUnit_actsOn (h : dfUnit p s = .next t) : ActsOn .df s t := by
  rcases dfUnit_dfStep h with rfl | h
  · exact .refl _ _
  · exact h.actsOn

/-! A unit looks at nothing but its own state and the configuration: strobed after another unit it does what it does
alone. -/

variable {s' t' : State}

theorem keepsCk.trans {u : State} (h : keepsCk s t) (k : keepsCk t u) : keepsCk s u :=
  ⟨k.1.trans h.1, k.2.trans h.2⟩

theorem keepsDisp.trans {u : State} (h : keepsDisp s t) (k : keepsDisp t u) : keepsDisp s u := Eq.trans k h

theorem keepsEnc.trans {u : State} (h : keepsEnc s t) (k : keepsEnc t u) : keepsEnc s u := by
  obtain ⟨henc, hencCk, hout⟩ := h
  obtain ⟨kenc, kencCk, kout⟩ := k
  exact ⟨kenc.trans henc, kencCk.trans hencCk, kout.trans hout⟩

theorem keepsDf.trans {u : State} (h : keepsDf s t) (k : keepsDf t u) : keepsDf s u := by
  obtain ⟨hdf, hckDf, hbuf, hshown, hout⟩ := h
  obtain ⟨kdf, kckDf, kbuf, kshown, kout⟩ := k
  exact ⟨kdf.trans hdf, kckDf.trans hckDf, kbuf.trans hbuf, kshown.trans hshown, kout.trans hout⟩

theorem dispUnit_local (hcfg : s'.cfg = s.cfg) (hkeep : keepsDisp s s') (h : dispUnit p s' = .next t') :
    ∃ t, dispUnit p s = .next t ∧ keepsDisp t t' := by
  unfold dispUnit at h ⊢
  split at h <;> rename_i hsel
  · rw [if_pos hsel]
    cases h
    refine ⟨_, rfl, ?_⟩
    simp [keepsDisp, hcfg]
  · rw [if_neg hsel]
    cases h
    exact ⟨s, rfl, hkeep⟩

theorem ckUnit_local (hkeep : keepsCk s s') (h : ckUnit p s' = .next t') :
    ∃ t, ckUnit p s = .next t ∧ keepsCk t t' := by
  obtain ⟨hck, -⟩ := id hkeep
  unfold ckUnit at h ⊢
  split at h <;> rename_i hpush
  · rw [if_pos hpush]
    cases h
    refine ⟨_, rfl, ?_⟩
    simp [keepsCk, hck]
  · rw [if_neg hpush]
    split at h <;> rename_i htake
    · rw [if_pos htake]
      cases h
      refine ⟨_, rfl, ?_⟩
      simp [keepsCk, hck]
    · rw [if_neg htake]
      cases h
      exact ⟨s, rfl, hkeep⟩

theorem execDfPush_local {b : Byte} (hcfg : s'.cfg = s.cfg) (hkeep : keepsDf s s') (h : execDfPush b s' = .next t') :
    ∃ t, execDfPush b s = .next t ∧ keepsDf t t' := by
  obtain ⟨v', o, hpush, rfl⟩ := execDfPush_eq_next.1 h
  obtain ⟨hcfg', hdf', hckDf', hbuf', hshown'⟩ := sameDf_of_keepsDf hcfg hkeep
  obtain ⟨v, hv, hsame⟩ := pushByte_local ⟨hcfg'.symm, hdf'.symm, hckDf'.symm, hbuf'.symm, hshown'.symm⟩ hpush
  refine ⟨_, execDfPush_eq_next.2 ⟨v, o, hv, rfl⟩, hsame.df, hsame.ckDf, hsame.buf, hsame.shown, ?_⟩
  simp [hdf']

theorem dfUnit_local (hcfg : s'.cfg = s.cfg) (hkeep : keepsDf s s') (h : dfUnit p s' = .next t') :
    ∃ t, dfUnit p s = .next t ∧ keepsDf t t' := by
  unfold dfUnit at h ⊢
  split at h <;> rename_i hreset
  · rw [if_pos hreset]
    cases h
    exact ⟨_, rfl, rfl, rfl, rfl, rfl, rfl⟩
  · rw [if_neg hreset]
    split at h <;> rename_i hpush
    · rw [if_pos hpush]
      exact execDfPush_local hcfg hkeep h
    · rw [if_neg hpush]
      cases h
      exact ⟨s, rfl, hkeep⟩

end Units

/-- After a cycle without `rst` each unit stands as its strobe alone leaves it on the state before the edge, and the ports
show that state and the outcomes. -/
structure UnitsAlone (p : PortsIn) (rdata : Option Byte) (s t : State) : Prop where
  cfg : t.cfg = s.cfg
  enc : ∃ a, encUnit p rdata s = .next a ∧ keepsEnc a t
  disp : ∃ a, dispUnit p s = .next a ∧ keepsDisp a t
  ck : ∃ a, ckUnit p s = .next a ∧ keepsCk a t
  df : ∃ a, dfUnit p s = .next a ∧ keepsDf a t
  ports : t.ports = portsOf p rdata s t.out

section Cycle

variable {s t : State} {p : PortsIn}

/-- R45: the units share no state, so their order in the model does not show. -/
theorem cycle_unitsAlone (hrst : p.rst = false) (h : cycle p s = .next t) :
    ∃ rdata, readPort p s = .next rdata ∧ UnitsAlone p rdata s t := by
  obtain ⟨-, rdata, a, b, c, u, hread, henc, hdisp, hck, hdf, rfl⟩ := (cycle_eq_next hrst).1 h
  have enc := encUnit_actsOn henc
  have disp := dispUnit_actsOn hdisp
  have ck := ckUnit_actsOn hck
  have df := dfUnit_actsOn hdf
  refine ⟨rdata, hread, df.cfg.trans (ck.cfg.trans (disp.cfg.trans enc.cfg)), ⟨a, henc, ?_⟩, ?_, ?_, ?_, rfl⟩
  · exact ((disp.enc (by decide)).trans (ck.enc (by decide))).trans (df.enc (by decide))
  · obtain ⟨b', hb', hkeep⟩ := dispUnit_local enc.cfg (enc.disp (by decide)) hdisp
    exact ⟨b', hb', (hkeep.trans (ck.disp (by decide))).trans (df.disp (by decide))⟩
  · obtain ⟨c', hc', hkeep⟩ := ckUnit_local ((enc.ck (by decide)).trans (disp.ck (by decide))) hck
    exact ⟨c', hc', hkeep.trans (df.ck (by decide))⟩
  · obtain ⟨u', hu', hkeep⟩ := dfUnit_local (ck.cfg.trans (disp.cfg.trans enc.cfg))
      (((enc.df (by decide)).trans (disp.df (by decide))).trans (ck.df (by decide))) hdf
    exact ⟨u', hu', hkeep⟩

/-! ### The invariant (R24, R26, R29, R185) -/

/-- DF's invariant is about what DF reads. -/
theorem DfInv.of_sameDf (hsame : SameDf s t) (h : DfInv s) : DfInv t := by
  obtain ⟨hcfg, hdf, -, hbuf, hshown⟩ := hsame
  obtain ⟨kwf, kwithin, kdf, kshown⟩ := h
  rw [hcfg, hbuf] at kwithin
  rw [hcfg, hbuf, hdf] at kdf
  rw [hcfg, hbuf, hshown] at kshown
  exact ⟨hbuf ▸ kwf, kwithin, kdf, kshown⟩

theorem exec_keeps {i : Instr} (h : exec i s = .next t) (hs : Inv s) : Inv t := by
  refine DfInv.toInv ?_ ((exec_enc h).symm ▸ hs.enc)
  by_cases hu : unitOf i = .df
  · exact (exec_dfStep hu h).keeps hs.toDfInv
  · exact hs.toDfInv.of_sameDf ((exec_actsOn h).sameDf hu)

/-- A frame starts outside the payload phase, and an emission stays inside its payload (R185). -/
theorem encUnit_keeps {d : Option Byte} (h : encUnit p d s = .next t) (hs : encInv s.enc) : encInv t.enc := by
  unfold encUnit at h
  split at h
  · obtain ⟨-, rfl⟩ := encGoFrame_eq_next.1 h
    trivial
  · split at h
    · obtain ⟨-, r, -, rfl⟩ := encGoMsg_eq_next.1 h
      split
      · exact hs
      · trivial
    · unfold encTick at h
      split at h
      · cases h; exact hs
      · exact tickJob_keeps h

/-- R50, R51: after reset nothing is readable and nothing is going on. -/
theorem inv_resetAll (s : State) : Inv (resetAll s) :=
  ⟨Memory.nil_wf, bufWithin_nil _, trivial, fun _ hlen => (Option.some_ne_none _ hlen.symm).elim, trivial⟩

/-- What a cycle reports on the ports is no part of the invariant. -/
theorem Inv.setPorts (h : Inv s) (v : PortsOut) : Inv (s.setPorts v) := ⟨h.wf, h.within, h.df, h.shown, h.enc⟩

theorem inv_taken (h : Inv s) (rest : List HostInput) : Inv (taken rest s) := ⟨h.wf, h.within, h.df, h.shown, h.enc⟩

theorem cycle_keeps (h : cycle p s = .next t) (hs : Inv s) : Inv t := by
  cases hrst : p.rst with
  | true =>
    obtain ⟨rdata, -, rfl⟩ := (cycle_rst_eq_next hrst).1 h
    exact (inv_resetAll s).setPorts _
  | false =>
    obtain ⟨rdata, -, hunits⟩ := cycle_unitsAlone hrst h
    obtain ⟨a, ha, henc, -⟩ := hunits.enc
    obtain ⟨u, hu, hkeep⟩ := hunits.df
    refine DfInv.toInv ?_ (henc ▸ encUnit_keeps ha hs.enc)
    have hu_inv : DfInv u := by
      rcases dfUnit_dfStep hu with rfl | hstep
      · exact hs.toDfInv
      · exact hstep.keeps hs.toDfInv
    exact hu_inv.of_sameDf (sameDf_of_keepsDf (hunits.cfg.trans (dfUnit_actsOn hu).cfg.symm) hkeep)

theorem cycle_cfg (h : cycle p s = .next t) : t.cfg = s.cfg := by
  cases hrst : p.rst with
  | true =>
    obtain ⟨rdata, -, rfl⟩ := (cycle_rst_eq_next hrst).1 h
    rfl
  | false =>
    obtain ⟨rdata, -, hunits⟩ := cycle_unitsAlone hrst h
    exact hunits.cfg

end Cycle

section Step

variable {s t : State}

/-- A request of bytes runs a list of operations: those of its vector, the one it decodes to, or a batch of its bytes. -/
theorem runOp_eq_next {fmt : Format} {bytes : List Byte} {rest : List HostInput} (h : runOp fmt bytes rest s = .next t) :
    ∃ is rest', execAll is (taken rest' s) = .next t := by
  unfold runOp at h
  split at h
  · split at h
    · exact ⟨_, _, h⟩
    · cases h
  · split at h
    · next i more _ => exact ⟨[i], _, (execAll_one _ _).trans h⟩
    · exact ⟨[.dfBatch bytes], _, (execAll_one _ _).trans h⟩
  · split at h
    · next i more _ => exact ⟨[i], _, (execAll_one _ _).trans h⟩
    · cases h

/-- Everything a step can do: operations, or one clock cycle, in the state with the request taken. -/
theorem step_cases (h : step s = .next t) :
    (∃ is rest, execAll is (taken rest s) = .next t) ∨ ∃ p rest, cycle p (taken rest s) = .next t := by
  cases hin : s.inputs with
  | nil => exact .inr ⟨_, _, (step_nil hin).symm.trans h⟩
  | cons req rest =>
    cases req with
    | op fmt bytes =>
      rw [step_op hin, guardSource_eq_next] at h
      exact .inl (runOp_eq_next h.1)
    | cycle p =>
      rw [step_cycle hin, guardSource_eq_next] at h
      exact .inr ⟨p, rest, h.1⟩

/-- What every operation keeps, a list of operations keeps. -/
theorem execAll_keeps {P : State → Prop} (hexec : ∀ {i : Instr} {s t : State}, exec i s = .next t → P s → P t)
    {is : List Instr} (h : execAll is s = .next t) (hs : P s) : P t := by
  induction is generalizing s with
  | nil => cases h; exact hs
  | cons i is ih =>
    obtain ⟨u, hi, his⟩ := andThen_eq_next.1 h
    exact ih his (hexec hi hs)

/-- What every operation and every clock cycle keeps, a step keeps, from the state with the request taken. -/
theorem step_keeps {P : State → Prop} (hexec : ∀ {i : Instr} {s t : State}, exec i s = .next t → P s → P t)
    (hcycle : ∀ {p : PortsIn} {s t : State}, cycle p s = .next t → P s → P t)
    (hs : ∀ rest, P (taken rest s)) (h : step s = .next t) : P t := by
  rcases step_cases h with ⟨is, rest, h⟩ | ⟨p, rest, h⟩
  · exact execAll_keeps hexec h (hs rest)
  · exact hcycle h (hs rest)

end Step

/-- Settles O54: operations keep the invariant unit by unit, and so do the units of a clock cycle. -/
theorem everyStepKeepsTheInvariant : Obligations.EveryStepKeepsTheInvariant := fun _ _ hs h =>
  step_keeps exec_keeps cycle_keeps (inv_taken hs) h

/-- Settles O53: the reset state is the one a cycle with `rst` leaves. -/
theorem resetMeetsTheInvariant : Obligations.ResetMeetsTheInvariant := inv_resetAll State.reset

/-- Settles O50: having this configuration is kept by every operation and every cycle. -/
theorem configurationNeverChanges : Obligations.ConfigurationNeverChanges := by
  refine ⟨fun i s t h => (exec_actsOn h).cfg, fun s t h => ?_⟩
  exact step_keeps (P := fun u => u.cfg = s.cfg) (fun h hu => (exec_actsOn h).cfg.trans hu)
    (fun h hu => (cycle_cfg h).trans hu) (fun _ => rfl) h

/-! ### Which operations a cycle performs (R91) -/

/-- The bits of the command vector that the rows of an operation's unit look at (R91). -/
def opMask : CmdOp → BitVec 7
  | .ckPush | .ckTake => 0x03
  | .dfReset | .dfPush => 0x0C
  | .encFrame | .encMsg => 0x30
  | .dispDispatch => 0x40

/-- What these bits are when the operation is performed (R91). -/
def opPattern : CmdOp → BitVec 7
  | .ckPush => 0x01
  | .ckTake => 0x02
  | .dfReset => 0x04
  | .dfPush => 0x08
  | .encFrame => 0x10
  | .encMsg => 0x30
  | .dispDispatch => 0x40

section Selects

variable {p : PortsIn} {op op' : CmdOp}

/-- The table of R91, one row for each operation. -/
theorem selects_iff (p : PortsIn) (op : CmdOp) : selects p op = true ↔ p.cmd &&& opMask op = opPattern op := by
  have hrows : ∀ c : BitVec 7, ∀ op ∈ [CmdOp.ckPush, .ckTake, .dfReset, .dfPush, .encFrame, .encMsg, .dispDispatch],
      (cmdSelects (c.setWidth 8)).contains op = true ↔ c &&& opMask op = opPattern op := by decide
  exact hrows p.cmd op (by cases op <;> decide)

/-- An operation is not performed when the bits its row needs are 0. -/
theorem selects_eq_false {m : BitVec 7} (hcmd : p.cmd &&& m = 0) (hop : opPattern op &&& m ≠ 0) :
    selects p op = false := by
  rw [Bool.eq_false_iff]
  intro hsel
  refine hop ?_
  calc opPattern op &&& m = p.cmd &&& opMask op &&& m := by rw [(selects_iff p op).1 hsel]
    _ = p.cmd &&& m &&& opMask op := by ac_rfl
    _ = 0 := by rw [hcmd]; exact BitVec.zero_and

/-- Of two operations of one unit a cycle performs at most one. -/
theorem selects_exclusive (hsel : selects p op = true) (hop : opMask op = opMask op' ∧ opPattern op ≠ opPattern op') :
    selects p op' = false := by
  obtain ⟨hmask, hpattern⟩ := hop
  rw [Bool.eq_false_iff]
  intro hsel'
  rw [selects_iff] at hsel hsel'
  exact hpattern (by rw [← hsel, hmask, hsel'])

/-! What each unit does, by its strobes. -/

variable {s t : State}

theorem ckUnit_push (h : selects p .ckPush = true) : ckUnit p s = execCkPush p.ckDin s := if_pos h

theorem ckUnit_take (h : selects p .ckTake = true) : ckUnit p s = execCkTake s := by
  have hpush : selects p .ckPush = false := selects_exclusive h (by decide)
  simp [ckUnit, hpush, h]

theorem ckUnit_none (h : p.cmd &&& 0x03 = 0) : ckUnit p s = .next s := by
  have hpush : selects p .ckPush = false := selects_eq_false h (by decide)
  have htake : selects p .ckTake = false := selects_eq_false h (by decide)
  simp [ckUnit, hpush, htake]

theorem dfUnit_reset (h : selects p .dfReset = true) : dfUnit p s = execDfReset s := if_pos h

theorem dfUnit_push (h : selects p .dfPush = true) : dfUnit p s = execDfPush p.dfByte s := by
  have hreset : selects p .dfReset = false := selects_exclusive h (by decide)
  simp [dfUnit, hreset, h]

theorem dfUnit_none (h : p.cmd &&& 0x0C = 0) : dfUnit p s = .next s := by
  have hreset : selects p .dfReset = false := selects_eq_false h (by decide)
  have hpush : selects p .dfPush = false := selects_eq_false h (by decide)
  simp [dfUnit, hreset, hpush]

theorem encUnit_encFrame {d : Option Byte} (h : selects p .encFrame = true) : encUnit p d s = encGoFrame p s := if_pos h

theorem encUnit_encMsg {d : Option Byte} (h : selects p .encMsg = true) : encUnit p d s = encGoMsg p s := by
  have hframe : selects p .encFrame = false := selects_exclusive h (by decide)
  simp [encUnit, hframe, h]

theorem encUnit_none {d : Option Byte} (h : p.cmd &&& 0x10 = 0) :
    encUnit p d s = encTick (s.enc.pdata p.encPdata d) s := by
  have hframe : selects p .encFrame = false := selects_eq_false h (by decide)
  have hmsg : selects p .encMsg = false := selects_eq_false h (by decide)
  simp [encUnit, hframe, hmsg]

theorem dispUnit_go (h : selects p .dispDispatch = true) : dispUnit p s = dispGo p s := if_pos h

theorem dispUnit_none (h : p.cmd &&& 0x40 = 0) : dispUnit p s = .next s := by
  have hgo : selects p .dispDispatch = false := selects_eq_false h (by decide)
  simp [dispUnit, hgo]

/-- Only a push stores in `MSG_BUF`: a cycle without one keeps it, or drops every byte (R62, R140). -/
theorem cycle_buf_of_no_push (hcmd : p.cmd &&& 0x08 = 0) (h : cycle p s = .next t) : t.buf = s.buf ∨ t.buf = [] := by
  cases hrst : p.rst with
  | true =>
    obtain ⟨rdata, -, rfl⟩ := (cycle_rst_eq_next hrst).1 h
    exact .inr rfl
  | false =>
    obtain ⟨rdata, -, hunits⟩ := cycle_unitsAlone hrst h
    obtain ⟨a, ha, -, -, hbuf, -⟩ := hunits.df
    have hpush : selects p .dfPush = false := selects_eq_false hcmd (by decide)
    unfold dfUnit at ha
    rw [hpush] at ha
    split at ha
    · cases ha; exact .inr hbuf
    · cases ha; exact .inl hbuf

end Selects

theorem taken_eq (rest : List HostInput) (s : State) :
    taken rest s = { s with inputs := rest, out := Out.idle, ports := PortsOut.idle s.cfg.maxLen } := rfl

/-- Settles O6: without a push no byte of `MSG_BUF` gets another value, so the guard lets the cycle through. -/
theorem stepRunsTheNextCycle : Obligations.StepRunsTheNextCycle := by
  refine ⟨fun s p rest hin => ?_, fun s hin => by rw [step_nil hin, taken_eq]⟩
  rw [← taken_eq]
  refine ⟨step_cycle hin, fun hcmd => (step_cycle hin).trans (guardSource_eq_self fun t ht => ?_)⟩
  rcases cycle_buf_of_no_push hcmd ht with hbuf | hbuf
  · exact sourceChanged_same hbuf
  · exact sourceChanged_nil hbuf

/-- Settles O59: each clause is the part of its unit, which stands as its strobe alone leaves it. -/
theorem unitsOfOneCycleActIndependently : Obligations.UnitsOfOneCycleActIndependently := by
  intro s t p hrst h
  obtain ⟨rdata, hread, hunits⟩ := cycle_unitsAlone hrst h
  obtain ⟨c, hc, hck⟩ := hunits.ck
  obtain ⟨d, hd, hdf⟩ := hunits.df
  obtain ⟨e, he, hkeepEnc⟩ := hunits.enc
  obtain ⟨hpair, hckOut⟩ := id hck
  obtain ⟨henc, hencCk, hencOut⟩ := id hkeepEnc
  obtain ⟨g, hg, hdp⟩ := hunits.disp
  have hports := hunits.ports
  refine ⟨fun hsel => ?_, fun hsel => ?_, fun hsel => ?_, fun hsel => ?_, fun hsel => ?_, fun hsel => ?_, fun hcmd => ?_,
    fun hsel => ?_, fun hcmd => ?_, fun hcmd => ?_, fun hcmd => ?_⟩
  · rw [ckUnit_push hsel] at hc
    cases hc
    exact ⟨hpair, hckOut, by rw [hports]; rfl⟩
  · rw [ckUnit_take hsel] at hc
    cases hc
    exact ⟨hpair, hckOut, by rw [hports]; rfl, by rw [hports]; rfl⟩
  · rw [dfUnit_push hsel] at hd
    exact ⟨d, hd, hdf⟩
  · rw [dfUnit_reset hsel] at hd
    cases hd
    exact ⟨_, rfl, hdf⟩
  · rw [encUnit_encFrame hsel] at he
    exact ⟨e, he, hkeepEnc⟩
  · rw [encUnit_encMsg hsel] at he
    exact ⟨e, he, henc, hencCk, hencOut, by rw [hports, ← hencOut]; rfl⟩
  · rw [encUnit_none hcmd] at he
    exact ⟨rdata, e, hread, he, henc, hencCk, hencOut, by rw [hports, ← hencOut]; rfl⟩
  · rw [dispUnit_go hsel] at hg
    exact ⟨g, hg, hdp, by rw [hports, ← hdp]; rfl, by rw [hports, ← hdp]; rfl⟩
  · rw [ckUnit_none hcmd] at hc
    cases hc
    exact hck
  · rw [dfUnit_none hcmd] at hd
    cases hd
    exact hdf
  · rw [dispUnit_none hcmd] at hg
    cases hg
    exact hdp

/-! ### Reset (R50) -/

/-- What construction answers is the reset state but for the configuration and the ports, which show its ceiling. -/
theorem construct_eq_next {maxLen : Nat} {policy : OversizePolicy} {categories : List Byte} {registry : List TypeRow}
    {r : State} (h : construct maxLen policy categories registry = .next r) :
    ∃ cfg ports, r = { State.reset with cfg := cfg, ports := ports } := by
  unfold construct at h
  split at h
  · split at h
    · cases h; exact ⟨_, _, rfl⟩
    · cases h
  · cases h

/-- A step with `rst` leaves the reset state but for the configuration, the ports and the waiting requests (R50, R229). -/
theorem step_rst_eq_next {s r : State} {p : PortsIn} {rest : List HostInput} (hin : s.inputs = .cycle p :: rest)
    (hrst : p.rst = true) (h : step s = .next r) :
    ∃ cfg ports, r = { State.reset with cfg := cfg, ports := ports, inputs := rest } := by
  rw [step_cycle hin, guardSource_eq_next] at h
  obtain ⟨rdata, -, rfl⟩ := (cycle_rst_eq_next hrst).1 h.1
  exact ⟨_, _, rfl⟩

/-- Settles O9: all three states are State.reset in every register the statement names. -/
theorem resetLeavesTheSpecsValues : Obligations.ResetLeavesTheSpecsValues := by
  rintro r (rfl | ⟨maxLen, policy, categories, registry, h⟩ | ⟨s, p, rest, hin, hrst, h⟩)
  · exact ⟨rfl, rfl, rfl, rfl, rfl, rfl, rfl, rfl⟩
  · obtain ⟨cfg, ports, rfl⟩ := construct_eq_next h
    exact ⟨rfl, rfl, rfl, rfl, rfl, rfl, rfl, rfl⟩
  · obtain ⟨cfg, ports, rfl⟩ := step_rst_eq_next hin hrst h
    exact ⟨rfl, rfl, rfl, rfl, rfl, rfl, rfl, rfl⟩

/-! ### The outcome of a push (R33, R47, R37) -/

section Outcome

variable {s t : State} {b : Byte} {o : DfOutcome}

/-- Everything a push can report: nothing, an error, or in CKB the Envelope it presents (R147, R149, R150). -/
theorem pushByte_outcome (h : pushByte b s = .next (t, o)) :
    o = .noOutput ∨ o = .errChecksum ∨ (∃ n, o = .errOversize n s.cfg.maxLen) ∨
      ∃ c m len msg, Memory.readFrom s.buf 0 len.toNat = some msg ∧ t = present c m len s ∧
        o = .envelope { cls := c, mid := m, msg := msg } := by
  cases e : s.df with
  | sync sr =>
    rw [pushByte_sync e, stepSync] at h
    split at h <;> cases h <;> exact .inl rfl
  | cls => rw [pushByte_cls e] at h; cases h; exact .inl rfl
  | id c => rw [pushByte_id e] at h; cases h; exact .inl rfl
  | lenLsb c m => rw [pushByte_lenLsb e] at h; cases h; exact .inl rfl
  | lenMsb c m lo =>
    rw [pushByte_lenMsb e, stepLenMsb] at h
    split at h
    · cases h
      unfold oversizeOutcome
      split
      · exact .inr (.inr (.inl ⟨_, rfl⟩))
      · exact .inl rfl
    · split at h <;> cases h <;> exact .inl rfl
  | message c m len cnt =>
    rw [pushByte_message e] at h
    obtain ⟨-, rfl, -⟩ := stepMessage_eq_next.1 h
    exact .inl rfl
  | cka c m len ea eb =>
    rw [pushByte_cka e, stepCka] at h
    split at h
    · cases h; exact .inl rfl
    · cases h; exact .inr (.inl rfl)
  | ckb c m len ea eb =>
    rw [pushByte_ckb e] at h
    rcases stepCkb_eq_next.1 h with ⟨-, msg, hmsg, rfl, rfl⟩ | ⟨-, -, rfl⟩
    · exact .inr (.inr (.inr ⟨c, m, len, msg, hmsg, rfl, rfl⟩))
    · exact .inr (.inl rfl)

/-- An oversize error reports the ceiling (R222). -/
theorem pushByte_errOversize {n cap : Half} (h : pushByte b s = .next (t, .errOversize n cap)) : cap = s.cfg.maxLen := by
  rcases pushByte_outcome h with h | h | ⟨n', h⟩ | ⟨c, m, len, msg, -, -, h⟩ <;> cases h
  rfl

/-- An Envelope is presented with the bytes read (R150). -/
theorem pushByte_envelope {env : Envelope} (h : pushByte b s = .next (t, .envelope env)) :
    ∃ len, Memory.readFrom s.buf 0 len.toNat = some env.msg ∧ t = present env.cls env.mid len s := by
  rcases pushByte_outcome h with h | h | ⟨n', h⟩ | ⟨c, m, len, msg, hmsg, ht, h⟩ <;> cases h
  exact ⟨len, hmsg, ht⟩

/-- The host's read with ENC idle and no strobe gives the byte and nothing else (R63). -/
theorem cycle_read {k : Half} {v : Byte} (hidle : s.enc = .idle) (hread : Memory.read s.buf k.toNat = some v) :
    ∃ u, cycle { PortsIn.idle with raddr := some k } s = .next u ∧ u.ports.dfRdata = some v := by
  have hport : readPort { PortsIn.idle with raddr := some k } s = .next (some v) := by
    rw [readPort_idle hidle, readAt_some, hread]
  rw [cycle_quiet rfl rfl, hport, andThen_next, encTick, hidle, andThen_next]
  exact ⟨_, rfl, rfl⟩

end Outcome

/-- Settles O55: the Envelope comes from CKB, which presents the bytes it read out of `MSG_BUF`. -/
theorem envelopeIsReadableAfterItsStep : Obligations.EnvelopeIsReadableAfterItsStep := by
  intro s t b env _ hexec hout
  obtain ⟨u, o, hpush, rfl⟩ := execDfPush_eq_next.1 hexec
  obtain rfl : o = .envelope env := List.head_eq_of_cons_eq hout
  obtain ⟨len, hmsg, rfl⟩ := pushByte_envelope hpush
  obtain ⟨hlength, hbytes⟩ := Memory.readFrom_get hmsg
  have hlen : some len = some (BitVec.ofNat 16 env.msg.length) := by rw [hlength, BitVec.ofNat_toNat, BitVec.setWidth_eq]
  refine ⟨rfl, rfl, hlen, fun k v hv hidle => cycle_read hidle ?_⟩
  obtain ⟨hk, -⟩ := List.getElem?_eq_some_iff.1 hv
  rw [hlength] at hk
  have hread := hbytes k.toNat hk
  rw [Nat.zero_add, hv] at hread
  show Memory.read (Memory.below s.buf len.toNat) k.toNat = some v
  rw [Memory.read_below, if_pos hk, hread]

/-- Settles O60: with one push in the cycle the ports of DF are functions of its outcome and of the presented Envelope. -/
theorem dfPortsShowTheOutcome : Obligations.DfPortsShowTheOutcome := by
  intro s t p hrst hsel h
  obtain ⟨rdata, -, hunits⟩ := cycle_unitsAlone hrst h
  obtain ⟨u, hu, -, -, -, -, hout⟩ := hunits.df
  rw [dfUnit_push hsel] at hu
  obtain ⟨v, o, hpush, rfl⟩ := execDfPush_eq_next.1 hu
  have hdf : t.out.df = [{ st := s.df.code, byte := p.dfByte, outcome := o }] := hout
  have hkind : t.ports.dfKind = o.kind := by rw [hunits.ports, portsOf, hdf]; rfl
  have hcls : t.ports.dfCls = envOr o Envelope.cls s.shown.cls := by rw [hunits.ports, portsOf, hdf]; rfl
  have hid : t.ports.dfId = envOr o Envelope.mid s.shown.mid := by rw [hunits.ports, portsOf, hdf]; rfl
  have hlen : t.ports.dfLen = lenOr o s.shown.len := by rw [hunits.ports, portsOf, hdf]; rfl
  refine ⟨by rw [hunits.ports]; rfl, by rw [hunits.ports]; rfl, o, by rw [hdf]; rfl, ?_⟩
  rw [hkind, hcls, hid, hlen]
  cases o with
  | noOutput => simp [DfOutcome.kind, envOr, lenOr, DfOutcome.lenShown]
  | errChecksum => simp [DfOutcome.kind, envOr, lenOr, DfOutcome.lenShown]
  | envelope env => simp [DfOutcome.kind, envOr, lenOr, DfOutcome.lenShown, lenField]
  | errOversize n cap =>
    obtain rfl := pushByte_errOversize hpush
    simp [DfOutcome.kind, envOr, lenOr, DfOutcome.lenShown]

/-! ### The dispatcher's tables at the ports (R201, R49) -/

section Dispatch

variable {cfg : Config} {cls mid : Byte} {c n t : Nat} {r : TypeRow}

/-- Level 1 finds a category of the class (R201). -/
theorem catOf_eq_some (h : catOf cfg cls = some c) : cfg.categories[c]? = some cls := by
  obtain ⟨hc, hcls, -⟩ := List.findIdx?_eq_some_iff_getElem.1 h
  rw [List.getElem?_eq_getElem hc, beq_iff_eq.1 hcls]

/-- Every type's class is that of a category (R13 (b)). -/
theorem exists_catOf (hr : r ∈ cfg.registry) : ∃ c, catOf cfg r.cls = some c := by
  obtain ⟨-, hcount, -⟩ := tablesWf_iff.1 cfg.wf
  have hmem : r.cls ∈ cfg.categories := List.count_pos_iff.1 (by rw [hcount r hr]; exact Nat.one_pos)
  have hany : (cfg.categories.any fun k => k == r.cls) = true := List.any_eq_true.2 ⟨r.cls, hmem, beq_self_eq_true _⟩
  exact Option.isSome_iff_exists.1 (List.findIdx?_isSome.trans hany)

/-- Level 2 finds a type by its own triple: no other type has it (R13 (a), R202). -/
theorem findType_self (ht : cfg.registry[t]? = some r) (hc : catOf cfg r.cls = some c) :
    findType cfg c r.cls r.id r.len.toNat = some t := by
  obtain ⟨hlt, rfl⟩ := List.getElem?_eq_some_iff.1 ht
  refine List.findIdx?_eq_some_iff_getElem.2 ⟨hlt, by simp [hc], fun j hj hmatch => ?_⟩
  obtain ⟨-, hcls, hid, hlen⟩ : _ ∧ _ ∧ _ ∧ _ := by simpa using hmatch
  have hnodup := nodup_rowTriple_iff.1 (tablesWf_iff.1 cfg.wf).1
  have hjt := List.getElem?_eq_getElem (hj.trans hlt)
  exact hj.ne (hnodup j t _ _ hjt ht hcls hid (BitVec.eq_of_toNat_eq hlen))

/-- The two levels select the type whose triple is presented, and a category of its class (R201). -/
theorem selectType_self (ht : cfg.registry[t]? = some r) :
    ∃ c, cfg.categories[c]? = some r.cls ∧ selectType cfg r.cls r.id r.len.toNat = some (c, t) := by
  obtain ⟨c, hc⟩ := exists_catOf (List.mem_of_getElem? ht)
  refine ⟨c, catOf_eq_some hc, ?_⟩
  simp [selectType, hc, findType_self ht hc]

/-- A triple of no type selects nothing (R205). -/
theorem selectType_eq_none (h : ∀ r ∈ cfg.registry, ¬(r.cls = cls ∧ r.id = mid ∧ r.len.toNat = n)) :
    selectType cfg cls mid n = none := by
  have hfind : ∀ c, findType cfg c cls mid n = none := fun c =>
    List.findIdx?_eq_none_iff.2 fun r hr => by
      rw [Bool.eq_false_iff]
      intro hmatch
      obtain ⟨-, htriple⟩ : _ ∧ _ := by simpa using hmatch
      exact h r hr htriple
  unfold selectType
  cases catOf cfg cls with
  | none => rfl
  | some c => simp [hfind c]

/-- A cycle with `dp_go` alone reports the dispatch and shows it on the ports (R49). -/
theorem cycle_dispatch {s : State} {p : PortsIn} (hidle : s.enc = .idle) (hrst : p.rst = false) (hraddr : p.raddr = none)
    (hcmd : p.cmd = 0x40) : ∃ u, cycle p s = .next u ∧ u.ports = portsOf p none s u.out ∧
      u.out.dp = dispatchOutcome s.cfg p.dpCls p.dpId p.dpLen.toNat fun _ =>
        if p.dpFail then none else some .external := by
  have hread : readPort p s = .next none := by rw [readPort_idle hidle, hraddr]; rfl
  have henc : encUnit p none s = .next s := by
    rw [encUnit_none (by rw [hcmd]; decide), encTick, hidle]
  have hgo : selects p .dispDispatch = true := (selects_iff _ _).2 (by rw [hcmd]; decide)
  have hstrobes : cmdTwoStrobes (strobes p) = false := by rw [strobes, hcmd]; decide
  exact ⟨_, (cycle_eq_next hrst).2 ⟨hstrobes, none, s, _, _, _, hread, henc, dispUnit_go hgo,
    ckUnit_none (by rw [hcmd]; decide), dfUnit_none (by rw [hcmd]; decide), rfl⟩, rfl, rfl⟩

/-- An index into a table stands on its wires as it is (R42). -/
theorem onWires_toNat {i n : Nat} (h : i < n) : (BitVec.ofNat (indexWidth n) i).toNat = i := by
  rw [BitVec.toNat_ofNat, Nat.mod_eq_of_lt (lt_indexWidth h)]

end Dispatch

/-- Settles O49: the tables select exactly the type of the presented triple, and the ports show what they select. -/
theorem dispatchPortsShowTheSelectedType : Obligations.DispatchPortsShowTheSelectedType := by
  intro s p hidle hrst hraddr hcmd
  obtain ⟨u, hcycle, hports, hdp⟩ := cycle_dispatch hidle hrst hraddr hcmd
  constructor
  · rintro t r ht hcls hid hlen
    obtain ⟨c, hcat, hsel⟩ := selectType_self ht
    rw [hcls] at hcat
    rw [hcls, hid, hlen] at hsel
    obtain ⟨hlt, -⟩ := List.getElem?_eq_some_iff.1 ht
    obtain ⟨hclt, -⟩ := List.getElem?_eq_some_iff.1 hcat
    have hhit : u.out.dp.hit = some (c, t) ∧ u.out.dp.kind = if p.dpFail then 2 else 1 := by
      rw [hdp, dispatchOutcome, hsel]
      cases p.dpFail <;> exact ⟨rfl, rfl⟩
    obtain ⟨hhit, hkind⟩ := hhit
    refine ⟨u, hcycle, ?_, ?_, ⟨BitVec.ofNat _ t, ?_, onWires_toNat hlt⟩, ⟨BitVec.ofNat _ c, ?_, ?_⟩⟩
    · rw [hports, portsOf, hhit]; rfl
    · rw [hports]; exact hkind
    · rw [hports, portsOf, hhit]; rfl
    · rw [hports, portsOf, hhit]; rfl
    · rw [catWidth, onWires_toNat hclt, hcat]
  · intro hnone
    have hsel : selectType s.cfg p.dpCls p.dpId p.dpLen.toNat = none := by
      refine selectType_eq_none fun r hr htriple => hnone r hr ?_
      obtain ⟨hcls, hid, hlen⟩ := htriple
      exact ⟨hcls, hid, BitVec.eq_of_toNat_eq hlen⟩
    have hunrec : u.out.dp = .unrecognized := by rw [hdp, dispatchOutcome, hsel]
    refine ⟨u, hcycle, ?_, ?_, ?_, ?_, hunrec⟩ <;> rw [hports, portsOf, hunrec] <;> rfl

/-! ### The normative tagged sum (R24, R151) -/

section View

variable {s : State} {b : Byte} {v : DfView}

/-- Storing the byte after the last one read extends what is read (R148). -/
theorem readFrom_write_next {m : Memory} {n : Nat} {msg : List Byte} (h : Memory.readFrom m 0 n = some msg) (b : Byte) :
    Memory.readFrom (Memory.write m n b) 0 (n + 1) = some (msg ++ [b]) := by
  refine Memory.readFrom_succ_last ?_ (by rw [Nat.zero_add]; exact Memory.read_write_same m n b)
  rw [← h]
  exact Memory.readFrom_congr fun i hi => Memory.read_write_other m b (by omega)

theorem half_eq_zero_iff {n : Half} : n = 0#16 ↔ n.toNat = 0 :=
  ⟨fun h => by rw [h]; rfl, fun h => BitVec.eq_of_toNat_eq h⟩

/-- One push is one step of the transition table (R151). -/
theorem pushByte_refines (hs : dfInv s.cfg s.buf s.df) (hv : viewOf s = some v) :
    ∃ t, pushByte b s = .next (t, (viewPush s.cfg b v).2) ∧ viewOf t = some (viewPush s.cfg b v).1 := by
  unfold viewOf at hv
  cases e : s.df with
  | sync sr =>
    rw [e] at hv
    cases hv
    rw [pushByte_sync e, stepSync, viewPush]
    split
    · exact ⟨_, rfl, rfl⟩
    · exact ⟨_, rfl, rfl⟩
  | cls =>
    rw [e] at hv
    cases hv
    exact ⟨_, pushByte_cls e, rfl⟩
  | id c =>
    rw [e] at hv
    cases hv
    exact ⟨_, pushByte_id e, rfl⟩
  | lenLsb c m =>
    rw [e] at hv
    cases hv
    exact ⟨_, pushByte_lenLsb e, rfl⟩
  | lenMsb c m lo =>
    rw [e] at hv
    cases hv
    simp only [pushByte_lenMsb e, stepLenMsb, viewPush, oversize_iff, half_eq_zero_iff]
    split
    · exact ⟨_, rfl, rfl⟩
    · split
      · exact ⟨_, rfl, rfl⟩
      · exact ⟨_, rfl, rfl⟩
  | message c m len cnt =>
    rw [e] at hv hs
    obtain ⟨hcnt, hlen, -⟩ := hs
    obtain ⟨msg, hmsg, rfl⟩ := Option.map_eq_some_iff.1 hv
    obtain ⟨hlength, -⟩ := Memory.readFrom_get hmsg
    have hstored := readFrom_write_next hmsg b
    refine ⟨_, (pushByte_message e).trans (stepMessage_eq_next.2 ⟨by omega, ?_, rfl⟩), ?_⟩
    · rw [viewPush]
      split <;> rfl
    · simp only [viewPush, hlength, cnt_succ_eq_iff hcnt]
      split
      · next hlast =>
        rw [hlast] at hstored
        exact congrArg (Option.map _) hstored
      · rw [← cnt_succ_toNat hcnt] at hstored
        exact congrArg (Option.map _) hstored
  | cka c m len ea eb =>
    rw [e] at hv
    obtain ⟨msg, hmsg, rfl⟩ := Option.map_eq_some_iff.1 hv
    rw [pushByte_cka e, stepCka, viewPush]
    split
    · exact ⟨_, rfl, congrArg (Option.map _) hmsg⟩
    · exact ⟨_, rfl, rfl⟩
  | ckb c m len ea eb =>
    rw [e] at hv
    obtain ⟨msg, hmsg, rfl⟩ := Option.map_eq_some_iff.1 hv
    rw [pushByte_ckb e, viewPush]
    split
    · next hb => exact ⟨_, stepCkb_eq_next.2 (.inl ⟨hb, msg, hmsg, rfl, rfl⟩), rfl⟩
    · next hb => exact ⟨_, stepCkb_eq_next.2 (.inr ⟨hb, rfl, rfl⟩), rfl⟩

end View

/-- Settles O41: reporting a push does not change the value its state stands for. -/
theorem pushRefinesTheNormativeView : Obligations.PushRefinesTheNormativeView := by
  intro s b v hs hv
  obtain ⟨t, hpush, hview⟩ := pushByte_refines hs.df hv
  exact ⟨_, _, execDfPush_eq_next.2 ⟨t, _, hpush, rfl⟩, rfl, hview, rfl⟩

/-! ### The checksum pair (R22, R123) -/

section Checksum

theorem push_toNat (c : Ck) (d : Byte) : (c.push d).a.toNat = (c.a.toNat + d.toNat) % 256 ∧
    (c.push d).b.toNat = (c.b.toNat + (c.a.toNat + d.toNat)) % 256 := by
  simp [Ck.push, BitVec.toNat_add]

/-- `a` of a run of pushes advances by the sum of the bytes (R22). -/
theorem pushAll_a_toNat (c : Ck) (s : List Byte) :
    (c.pushAll s).a.toNat = (c.a.toNat + (s.map BitVec.toNat).sum) % 256 := by
  induction s generalizing c with
  | nil => exact (Nat.mod_eq_of_lt c.a.isLt).symm
  | cons d s ih =>
    rw [Ck.pushAll_cons, ih, (push_toNat c d).1, List.map_cons, List.sum_cons]
    omega

/-- `b` of a run of pushes advances by `a` for each byte, and by each byte as often as there are bytes from it on (R22). -/
theorem pushAll_b_toNat (c : Ck) (s : List Byte) :
    (c.pushAll s).b.toNat =
      (c.b.toNat + s.length * c.a.toNat + (s.mapIdx fun i d => (s.length - i) * d.toNat).sum) % 256 := by
  induction s generalizing c with
  | nil => simpa using (Nat.mod_eq_of_lt c.b.isLt).symm
  | cons d s ih =>
    obtain ⟨ha, hb⟩ := push_toNat c d
    have htail : (s.mapIdx fun i d => (s.length + 1 - (i + 1)) * d.toNat) = s.mapIdx fun i d => (s.length - i) * d.toNat := by
      simp only [Nat.add_sub_add_right]
    rw [Ck.pushAll_cons, ih, ha, hb, List.length_cons, List.mapIdx_cons, List.sum_cons, htail, Nat.sub_zero]
    -- a remainder may be dropped under the last one
    refine Nat.ModEq.trans (((Nat.mod_modEq _ 256).add ((Nat.mod_modEq _ 256).mul_left _)).add_right _) ?_
    exact congrArg (· % 256) (by ring)

end Checksum

/-- Settles O14: CK.PUSH and CK.TAKE are the recursion, and the closed form is that of a run of pushes from (0, 0). -/
theorem checksumHasTheClosedForm : Obligations.ChecksumHasTheClosedForm := by
  refine ⟨fun st s hst => ⟨fun d => ⟨_, rfl, ?_⟩, _, rfl, ?_, rfl⟩, rfl, cksum_append_one, fun s => ⟨?_, ?_⟩⟩
  · rw [cksum_append_one, ← hst]
    rfl
  · rw [← hst]
    rfl
  · rw [cksum, pushAll_a_toNat]
    simp [Ck.zero]
  · rw [cksum, pushAll_b_toNat]
    simp [Ck.zero]
end Sys2Proof.Machine

/-! PROOFS. The memory statements of `20_memory.md`: what stores in `MSG_BUF` (R60, R62), what the read port answers where
nothing is specified (R63, R231), and a read in the cycle of a store (R80). -/

namespace Sys2Proof.Machine

/-! ### What stores in MSG_BUF (R60, R62, R148) -/

section Push

variable {s t : State} {b : Byte} {o : DfOutcome}

/-- `DF.PUSH` and each of its step words run one push (R92). -/
theorem execDfPush_of_exec {i : Instr} (hi : i = .dfPush b ∨ ∃ code, i = stepOfCode code b) (h : exec i s = .next t) :
    execDfPush b s = .next t := by
  rcases hi with rfl | ⟨code, rfl⟩
  · exact h
  · rw [exec_stepOfCode] at h
    split at h
    · exact h
    · cases h

/-- In MESSAGE a push leaves the old contents with its byte at `cnt`, whether or not it was the last one (R148). -/
theorem pushByte_message_buf {c m : Byte} {len cnt : Half} (hdf : s.df = .message c m len cnt)
    (h : pushByte b s = .next (t, o)) : t.buf = Memory.write s.buf cnt.toNat b := by
  rw [pushByte_message hdf] at h
  obtain ⟨-, -, rfl⟩ := stepMessage_eq_next.1 h
  split <;> rfl

/-! ### What a push leaves that ends a walk without an Envelope (R26, R231) -/

/-- Only in LEN_MSB can a push that reports nothing end the walk: there the length may be over the ceiling (R147). -/
theorem not_endsWalk_noOutput (h : ∀ c m lo, s.df ≠ .lenMsb c m lo) : ¬endsWalk s b .noOutput := by
  rintro (hne | ⟨c, m, lo, hdf, -⟩)
  · exact hne rfl
  · exact h c m lo hdf

/-- A push goes on with the walk, presents an Envelope, or returns to SYNC with every value given up (R153, R231). -/
theorem pushByte_abandons (h : pushByte b s = .next (t, o)) :
    ¬endsWalk s b o ∨ (∃ env, o = .envelope env) ∨ ∃ u, t = abandon u := by
  cases e : s.df with
  | sync sr =>
    rw [pushByte_sync e, stepSync] at h
    split at h <;> cases h <;> exact .inl (not_endsWalk_noOutput (by simp [e]))
  | cls => rw [pushByte_cls e] at h; cases h; exact .inl (not_endsWalk_noOutput (by simp [e]))
  | id c => rw [pushByte_id e] at h; cases h; exact .inl (not_endsWalk_noOutput (by simp [e]))
  | lenLsb c m => rw [pushByte_lenLsb e] at h; cases h; exact .inl (not_endsWalk_noOutput (by simp [e]))
  | lenMsb c m lo =>
    rw [pushByte_lenMsb e, stepLenMsb] at h
    split at h
    · cases h; exact .inr (.inr ⟨_, rfl⟩)
    · next hfits =>
      obtain rfl : o = .noOutput := by split at h <;> cases h <;> rfl
      refine .inl ?_
      rintro (hne | ⟨c', m', lo', hdf, hover⟩)
      · exact hne rfl
      · cases e.symm.trans hdf
        rw [oversize_iff, lenOf_toNat] at hfits
        omega
  | message c m len cnt =>
    rw [pushByte_message e] at h
    obtain ⟨-, rfl, -⟩ := stepMessage_eq_next.1 h
    exact .inl (not_endsWalk_noOutput (by simp [e]))
  | cka c m len ea eb =>
    rw [pushByte_cka e, stepCka] at h
    split at h
    · cases h; exact .inl (not_endsWalk_noOutput (by simp [e]))
    · cases h; exact .inr (.inr ⟨_, rfl⟩)
  | ckb c m len ea eb =>
    rw [pushByte_ckb e] at h
    rcases stepCkb_eq_next.1 h with ⟨-, msg, -, -, rfl⟩ | ⟨-, rfl, -⟩
    · exact .inr (.inl ⟨_, rfl⟩)
    · exact .inr (.inr ⟨s, rfl⟩)

end Push

/-! ### The read port (R47, R60, R63) -/

section ReadPort

variable {s : State} {p : PortsIn}

/-- A vector that doubles no unit with two strobes is admitted (R91). -/
theorem strobes_admitted (hck : ¬(p.cmd &&& 0x03 = 0x03)) (hdf : ¬(p.cmd &&& 0x0C = 0x0C)) :
    cmdTwoStrobes (strobes p) = false := by
  have hvector : ∀ c : BitVec 7, ¬(c &&& 0x03 = 0x03) → ¬(c &&& 0x0C = 0x0C) → cmdTwoStrobes (c.setWidth 8) = false := by
    decide
  exact hvector p.cmd hck hdf

/-- Where ENC fetches nothing the index is the host's (R47). -/
theorem portIndex_host (h : s.enc.fetches = none) : portIndex p s = .next p.raddr := by
  simp [portIndex, h]

/-- Where ENC fetches and the host names no other index, the index is ENC's (R60). -/
theorem portIndex_fetch {i : Half} (h : s.enc.fetches = some i) (hraddr : p.raddr = none ∨ p.raddr = some i) :
    portIndex p s = .next (some i) := by
  rcases hraddr with hraddr | hraddr <;> simp [portIndex, h, hraddr]

/-- An admitted cycle that reads an index without a specified value faults, whoever names the index (R63, U13). -/
theorem cycle_read_unspecified {k : Half} (hrst : p.rst = false) (hstrobes : cmdTwoStrobes (strobes p) = false)
    (hport : portIndex p s = .next (some k)) (hnone : Memory.read s.buf k.toNat = none) :
    cycle p s = .fault .bufUnspecified := by
  have hread : readPort p s = .fault .bufUnspecified := by rw [readPort, hport, andThen_next, readAt_some, hnone]
  simp [cycle, hrst, hstrobes, hread]

/-- An admitted cycle in which ENC and the host name two indices is refused (R60, assumption 20). -/
theorem cycle_read_conflict {i k : Half} (hrst : p.rst = false) (hstrobes : cmdTwoStrobes (strobes p) = false)
    (hfetch : s.enc.fetches = some i) (hraddr : p.raddr = some k) (hne : k ≠ i) :
    cycle p s = .refused .readPortTaken := by
  have hport : readPort p s = .refused .readPortTaken := by simp [readPort, portIndex, hfetch, hraddr, hne.symm]
  simp [cycle, hrst, hstrobes, hport]

/-- With ENC idle a cycle whose one strobe is `DF.PUSH` is that push, with the host's read served before the edge
(R45, R80). -/
theorem cycle_dfPush {u : State} {v : Option Byte} (hidle : s.enc = .idle) (hrst : p.rst = false) (hcmd : p.cmd = 0x08)
    (hread : readAt p.raddr s = .next v) (hpush : execDfPush p.dfByte s = .next u) :
    cycle p s = .next (u.setPorts (portsOf p v s u.out)) := by
  have hstrobes : cmdTwoStrobes (strobes p) = false := strobes_admitted (by rw [hcmd]; decide) (by rw [hcmd]; decide)
  have hsel : selects p .dfPush = true := by rw [selects_iff, hcmd]; rfl
  have henc : encUnit p v s = .next s := by rw [encUnit_none (by rw [hcmd]; rfl), encTick, hidle]
  refine (cycle_eq_next hrst).2 ⟨hstrobes, v, s, s, s, u, ?_, henc, dispUnit_none ?_, ckUnit_none ?_, ?_, rfl⟩
  · rw [readPort_idle hidle, hread]
  · rw [hcmd]; rfl
  · rw [hcmd]; rfl
  · rw [dfUnit_push hsel, hpush]

end ReadPort

/-- Settles O52: every push is the push of its state, and of the states' steps only MESSAGE stores. -/
theorem onlyTheMessageStepStores : Obligations.OnlyTheMessageStepStores := by
  intro i s t b hi hexec a v hv
  obtain ⟨u, o, hpush, rfl⟩ := execDfPush_eq_next.1 (execDfPush_of_exec hi hexec)
  exact pushByte_read hpush hv

/-- Settles O57: the port's index is the host's or ENC's and has no value there, or two indices compete; a walk that ends
without an Envelope is abandoned. -/
theorem unspecifiedBytesCannotBeRead : Obligations.UnspecifiedBytesCannotBeRead := by
  refine ⟨fun s p k hrst hfetch hraddr hck hdf hnone => ?_, fun s p i hrst hfetch hck hdf => ⟨?_, ?_⟩, ?_⟩
  · have hport : portIndex p s = .next (some k) := by rw [portIndex_host hfetch, hraddr]
    exact cycle_read_unspecified hrst (strobes_admitted hck hdf) hport hnone
  · exact fun hraddr => cycle_read_unspecified hrst (strobes_admitted hck hdf) (portIndex_fetch hfetch hraddr)
  · exact fun k => cycle_read_conflict hrst (strobes_admitted hck hdf) hfetch
  · intro s t b e hexec hout hend henv
    obtain ⟨u, o, hpush, rfl⟩ := execDfPush_eq_next.1 hexec
    cases hout
    rcases pushByte_abandons hpush with hgo | ⟨env, rfl⟩ | ⟨w, rfl⟩
    · exact absurd hend hgo
    · exact absurd rfl (henv env)
    · exact ⟨fun _ => rfl, rfl, rfl, rfl⟩

/-- Settles O58: the port reads the state before the edge, and the push of MESSAGE writes at `cnt`. -/
theorem readDuringAStoreGivesTheOldValue : Obligations.ReadDuringAStoreGivesTheOldValue := by
  intro s p c m len cnt v hs hidle hdf hrst hcmd hraddr hv
  obtain ⟨u, o, hpush, -⟩ := pushByte_complete p.dfByte hs.toDfInv
  have hread : readAt p.raddr s = .next (some v) := by rw [hraddr, readAt_some, hv]
  refine ⟨_, cycle_dfPush hidle hrst hcmd hread (execDfPush_eq_next.2 ⟨u, o, hpush, rfl⟩), rfl, ?_⟩
  show Memory.read u.buf cnt.toNat = some p.dfByte
  rw [pushByte_message_buf hdf hpush, Memory.read_write_same]

end Sys2Proof.Machine

/-! PROOFS. The encoding statements of `30_encoding.md`: the decoder against the encoder (R91 to R97, R105), the command
vector (R91, R45), the step word (R92, R106), and the byte-sequence rows (R93, R105). -/

namespace Sys2Proof.Machine

/-! ### What the encoder writes is read back (R91 to R97, R105) -/

/-- The selection byte of a `CMD` row with no other unit's strobe (R91). -/
def cmdWord : CmdOp → Byte
  | .ckPush => 0x01
  | .ckTake => 0x02
  | .dfReset => 0x04
  | .dfPush => 0x08
  | .encFrame => 0x10
  | .encMsg => 0x30
  | .dispDispatch => 0x40

/-- A row's own word selects that row alone: what follows is read as its operands (R91). -/
theorem decodeCmd_cmdWord (op : CmdOp) (bs : List Byte) : decodeCmd (cmdWord op :: bs) = decodeOperands op bs := by
  cases op <;> rfl

/-- A step word is the rule its code names (R92). -/
theorem decodeStep_code (code : BitVec 3) (b : Byte) :
    decodeStep [b, code.setWidth 8] = .ok (stepOfCode code b, []) := by
  have hword : ∀ c : BitVec 3, c.setWidth 8 &&& 0xF8#8 = 0#8 ∧ (c.setWidth 8).extractLsb' 0 3 = c := by decide
  obtain ⟨hhigh, hlow⟩ := hword code
  simp [decodeStep, hhigh, hlow]

/-- A counted byte sequence that is the last operand is read back. -/
theorem takeCounted_counted16_nil {s : List Byte} (h : counted s = true) :
    takeCounted (counted16 s) = .ok (s, []) := by
  simpa using takeCounted_counted16 [] ((counted_iff s).1 h)

theorem decodeOperands_encFrame (cls id : Byte) {p : List Byte} (h : counted p = true) :
    decodeOperands .encFrame (cls :: id :: counted16 p) = .ok (.encFrame cls id p, []) := by
  rw [decodeOperands, takeCounted_counted16_nil h]
  rfl

theorem decodeOperands_dispDispatch (cls mid : Byte) {msg : List Byte} (h : counted msg = true) :
    decodeOperands .dispDispatch (cls :: mid :: counted16 msg) = .ok (.dispDispatch cls mid msg, []) := by
  rw [decodeOperands, takeCounted_counted16_nil h]
  rfl

/-- The type index and the capacity are read back from their four and three bytes (R48). -/
theorem decodeOperands_encMsg (t : BitVec 32) {v : List Byte} (cap : BitVec 17) (h : counted v = true) :
    decodeOperands .encMsg (bytes32 t ++ (bytes17 cap ++ counted16 v)) = .ok (.encMsg t v cap, []) := by
  simp only [bytes32, bytes17, List.cons_append, List.nil_append, decodeOperands]
  rw [if_pos (bytes17_top cap), takeCounted_counted16_nil h, bytes32_join, bytes17_join]
  rfl

/-- A wire image is read back with the checksum bytes it carries (R93). -/
theorem decodeWire_encode (cls id : Byte) {p : List Byte} (a b : Byte) (h : counted p = true) :
    decodeWire (encode (.frame cls id p a b)) = .ok (.frame cls id p a b, []) := by
  simp [encode, decodeWire, takeCounted_counted16 [a, b] ((counted_iff p).1 h)]

theorem decodePseudo_encode_dotFrame (cls id : Byte) {p : List Byte} (h : counted p = true) :
    decodePseudo (encode (.dotFrame cls id p)) = .ok (.dotFrame cls id p, []) := by
  simp [encode, decodePseudo, takeCounted_counted16_nil h, Except.map]

/-- Settles O2: the selection byte leads back to the row, and each row's operand bytes to its operands. -/
theorem decodeOfEncodeIsTheOperation : Obligations.DecodeOfEncodeIsTheOperation := by
  intro i hi
  cases i with
  | ckPush d => exact decodeCmd_cmdWord .ckPush [d]
  | ckTake => exact decodeCmd_cmdWord .ckTake []
  | dfReset => exact decodeCmd_cmdWord .dfReset []
  | dfPush b => exact decodeCmd_cmdWord .dfPush [b]
  | encFrame cls id p => exact (decodeCmd_cmdWord .encFrame _).trans (decodeOperands_encFrame cls id hi)
  | encMsg t v cap => exact (decodeCmd_cmdWord .encMsg _).trans (decodeOperands_encMsg t cap hi)
  | dispDispatch cls mid msg => exact (decodeCmd_cmdWord .dispDispatch _).trans (decodeOperands_dispDispatch cls mid hi)
  | dfPushSync b => exact decodeStep_code 0#3 b
  | dfPushClass b => exact decodeStep_code 1#3 b
  | dfPushId b => exact decodeStep_code 2#3 b
  | dfPushLenLsb b => exact decodeStep_code 3#3 b
  | dfPushLenMsb b => exact decodeStep_code 4#3 b
  | dfPushMessage b => exact decodeStep_code 5#3 b
  | dfPushCka b => exact decodeStep_code 6#3 b
  | dfPushCkb b => exact decodeStep_code 7#3 b
  | frame cls id p a b => exact decodeWire_encode cls id a b hi
  | dfBatch bytes => rfl
  | dotFrame cls id p => exact decodePseudo_encode_dotFrame cls id hi

/-- Settles O1: the words are the encodings of their operations; the vectors are read operation by operation. -/
theorem wordsOfTheSpecDecode : Obligations.WordsOfTheSpecDecode := by
  have hword := decodeOfEncodeIsTheOperation
  exact ⟨hword (.ckPush 0x05) rfl, hword .ckTake rfl, hword .dfReset rfl, hword (.dfPush 0xB5) rfl,
    hword (.encFrame 0x05 0x01 [0x06]) rfl, hword (.dispDispatch 0x05 0x01 [0x06, 0x01]) rfl, rfl, rfl, rfl,
    hword (.dfPushSync 0xB5) rfl, hword (.dfPushCkb 0x26) rfl, hword (.frame 0x05 0x01 [0x06] 0x0D 0x26) rfl⟩

/-! ### What is read can be presented (R97, R106, R182) -/

/-- What reading an operation in a format promises of it. -/
def PresentableIn (fmt : Format) (i : Instr) : Prop := i.WellFormed ∧ i.format = fmt

section Read

variable {fmt : Format} {bs rest : List Byte} {i : Instr}

/-- An operation whose last operand is a counted byte sequence can be presented if it can with every sequence the length
field counts. -/
theorem presentable_of_takeCounted {f : List Byte → Instr} (hf : ∀ p, counted p = true → PresentableIn fmt (f p))
    (h : ((takeCounted bs).map fun (p, rest) => (f p, rest)) = .ok (i, rest)) : PresentableIn fmt i := by
  cases hread : takeCounted bs with
  | error e => rw [hread] at h; cases h
  | ok r =>
    rw [hread] at h
    cases h
    exact hf _ ((counted_iff _).2 (takeCounted_ok hread))

theorem decodeOperands_presentable {op : CmdOp} (h : decodeOperands op bs = .ok (i, rest)) : PresentableIn .cmd i := by
  cases op with
  | ckPush =>
    simp only [decodeOperands] at h
    split at h <;> cases h
    exact ⟨rfl, rfl⟩
  | ckTake => cases h; exact ⟨rfl, rfl⟩
  | dfReset => cases h; exact ⟨rfl, rfl⟩
  | dfPush =>
    simp only [decodeOperands] at h
    split at h <;> cases h
    exact ⟨rfl, rfl⟩
  | encFrame =>
    simp only [decodeOperands] at h
    split at h
    · exact presentable_of_takeCounted (f := .encFrame _ _) (fun _ hp => ⟨hp, rfl⟩) h
    · cases h
  | encMsg =>
    simp only [decodeOperands] at h
    split at h
    · split at h
      · exact presentable_of_takeCounted (f := fun v => .encMsg _ v _) (fun _ hp => ⟨hp, rfl⟩) h
      · cases h
    · cases h
  | dispDispatch =>
    simp only [decodeOperands] at h
    split at h
    · exact presentable_of_takeCounted (f := .dispDispatch _ _) (fun _ hp => ⟨hp, rfl⟩) h
    · cases h

theorem decodeCmd_presentable (h : decodeCmd bs = .ok (i, rest)) : PresentableIn .cmd i := by
  unfold decodeCmd at h
  split at h
  · cases h
  · split at h
    · cases h
    · split at h
      · cases h
      · split at h
        · cases h
        · exact decodeOperands_presentable h
        · cases h

theorem stepOfCode_presentable (code : BitVec 3) (b : Byte) : PresentableIn .dfStep (stepOfCode code b) := by
  unfold stepOfCode
  split <;> exact ⟨rfl, rfl⟩

theorem decodeStep_presentable (h : decodeStep bs = .ok (i, rest)) : PresentableIn .dfStep i := by
  unfold decodeStep at h
  split at h
  · split at h <;> cases h
    exact stepOfCode_presentable _ _
  · cases h

theorem decodeWire_presentable (h : decodeWire bs = .ok (i, rest)) : PresentableIn .wire i := by
  unfold decodeWire at h
  split at h
  · split at h
    · split at h
      · next hread =>
        cases h
        exact ⟨(counted_iff _).2 (takeCounted_ok hread), rfl⟩
      · cases h
      · cases h
    · cases h
  · cases h

theorem decodePseudo_presentable (h : decodePseudo bs = .ok (i, rest)) : PresentableIn .pseudo i := by
  unfold decodePseudo at h
  split at h
  · cases h
  · split at h
    · cases h; exact ⟨rfl, rfl⟩
    · split at h
      · split at h
        · exact presentable_of_takeCounted (f := .dotFrame _ _) (fun _ hp => ⟨hp, rfl⟩) h
        · cases h
      · cases h

end Read

/-- Settles O3: format by format, only operations of that format are read, with sequences a length field counted. -/
theorem decodedOperationsAreWellFormed : Obligations.DecodedOperationsAreWellFormed := by
  intro fmt bs i rest h
  cases fmt with
  | cmd => exact decodeCmd_presentable h
  | dfStep => exact decodeStep_presentable h
  | wire => exact decodeWire_presentable h
  | pseudo => exact decodePseudo_presentable h

/-! ### The command vector and the step word (R45, R91, R92) -/

/-- Two strobes of one unit (R45, R91). -/
theorem cmdTwoStrobes_iff {c : Byte} : cmdTwoStrobes c = true ↔ c &&& 0x03 = 0x03 ∨ c &&& 0x0C = 0x0C := by
  simp [cmdTwoStrobes]

theorem decodeCmd_twoStrobes {c : Byte} (bs : List Byte) (hreserved : c &&& 0x80#8 = 0#8) (h : cmdTwoStrobes c = true) :
    decodeCmd (c :: bs) = .error .twoStrobes := by
  rw [decodeCmd, if_neg (not_not_intro hreserved), if_pos h]

/-- The seven strobes of a cycle double one of a unit where the vector does (R45, R91). -/
theorem strobes_twoStrobes {p : PortsIn} (h : p.cmd &&& 0x03 = 0x03 ∨ p.cmd &&& 0x0C = 0x0C) :
    cmdTwoStrobes (strobes p) = true := by
  have hvector : ∀ c : BitVec 7, c &&& 0x03 = 0x03 ∨ c &&& 0x0C = 0x0C → cmdTwoStrobes (c.setWidth 8) = true := by
    decide
  exact hvector p.cmd h

theorem cycle_twoStrobes {p : PortsIn} {s : State} (hrst : p.rst = false) (h : cmdTwoStrobes (strobes p) = true) :
    cycle p s = .refused .twoStrobes := by
  simp [cycle, hrst, h]

/-- Settles O4: a cycle performs the rows of its vector, and a vector that doubles a unit's strobe is turned back before
any row is looked at. -/
theorem commandVectorSelectsByUnit : Obligations.CommandVectorSelectsByUnit :=
  ⟨fun p => ⟨selects_iff p .ckPush, selects_iff p .ckTake, selects_iff p .dfReset, selects_iff p .dfPush,
      selects_iff p .encFrame, selects_iff p .encMsg, selects_iff p .dispDispatch⟩,
    fun _ rest hreserved h => decodeCmd_twoStrobes rest hreserved (cmdTwoStrobes_iff.2 h),
    fun _ _ hrst h => cycle_twoStrobes hrst (strobes_twoStrobes h)⟩

/-- Settles O24: the row of a step word is the push exactly in the state its code names. -/
theorem stateCodeSelectsTheStepRule : Obligations.StateCodeSelectsTheStepRule := by
  intro code b s
  rw [exec_stepOfCode]
  exact ⟨fun h => if_pos h, fun h => if_neg h⟩

/-! ### Wire frames as batches (R93, R105, R182) -/

/-- The wire image, byte by byte: the length goes low byte first (R93, R97). -/
theorem wireBytes_eq (cls id : Byte) (p : List Byte) (a b : Byte) :
    wireBytes cls id p a b =
      [0xB5, 0x62, cls, id, BitVec.ofNat 8 p.length, BitVec.ofNat 8 (p.length / 256)] ++ p ++ [a, b] := by
  simp [wireBytes, frameBody, counted16, lenField, lenLo_ofNat, lenHi_ofNat, sync1, sync2]

/-- A wire frame is consumed as its wire image, unless the length field cannot count its payload (R93, R182). -/
theorem exec_frame (cls id : Byte) (p : List Byte) (a b : Byte) (s : State) :
    exec (.frame cls id p a b) s =
      if p.length ≤ 65535 then exec (.dfBatch (wireBytes cls id p a b)) s else .refused .payloadTooLong := by
  simp only [← counted_iff]
  rfl

/-- `.frame` is the wire frame with the checksum of its header and payload (R105). -/
theorem exec_dotFrame (cls id : Byte) (p : List Byte) (s : State) :
    exec (.dotFrame cls id p) s =
      exec (.frame cls id p (cksum (frameBody cls id p)).a (cksum (frameBody cls id p)).b) s := rfl

/-- Settles O39: both rows are the wire frame's, which is the batch of its image or refused. -/
theorem wireFramesAreBatchesOfTheirBytes : Obligations.WireFramesAreBatchesOfTheirBytes := by
  intro s cls id p a b
  refine ⟨fun h => ⟨?_, exec_dotFrame cls id p s⟩, fun h => ⟨?_, ?_⟩⟩
  · rw [exec_frame, if_pos h, wireBytes_eq]
  · rw [exec_frame, if_neg (by omega)]
  · rw [exec_dotFrame, exec_frame, if_neg (by omega)]

end Sys2Proof.Machine

/-! PROOFS. The checksum statements of `40_checksum.md`: CK.PUSH and CK.TAKE (R121, R122), and what the pair does and does
not tell apart (R124). -/

namespace Sys2Proof.Machine

/-! ### What the pair tells apart (R124) -/

section Collisions

variable {c : Ck} {x y x' y' : Byte}

/-- R124's collision, from any accumulator: the three bytes advance `a` by `x + y + z` and `b` by
`3a + 3x + 2y + z`, and neither sum sees the change. -/
theorem push_three_collide (c : Ck) (x y z : Byte) :
    ((c.push x).push y).push z = ((c.push (x + 1)).push (y - 2)).push (z + 1) := by
  have ha : c.a + x + y + z = c.a + (x + 1) + (y - 2) + (z + 1) := by ring
  have hb : c.b + (c.a + x) + (c.a + x + y) + (c.a + x + y + z) =
      c.b + (c.a + (x + 1)) + (c.a + (x + 1) + (y - 2)) + (c.a + (x + 1) + (y - 2) + (z + 1)) := by ring
  exact congrArg₂ Ck.mk ha hb

theorem pushAll_three_collide (c : Ck) (x y z : Byte) (rest : List Byte) :
    c.pushAll (x :: y :: z :: rest) = c.pushAll ((x + 1) :: (y - 2) :: (z + 1) :: rest) := by
  simp only [Ck.pushAll_cons, push_three_collide c x y z]

/-- `a` alone determines the last byte. -/
theorem push_injective (c : Ck) : Function.Injective c.push := fun _ _ h =>
  BitVec.add_right_inj c.a |>.1 (congrArg Ck.a h)

/-- The last `a`, taken off the last `b`, leaves the `b` between the two pushes, which determines the first byte. -/
theorem eq_of_push_push_eq (h : (c.push x).push y = (c.push x').push y') : x = x' := by
  have ha : c.a + x + y = c.a + x' + y' := congrArg Ck.a h
  have hb : c.b + (c.a + x) + (c.a + x + y) = c.b + (c.a + x') + (c.a + x' + y') := congrArg Ck.b h
  rwa [ha, BitVec.add_left_inj, BitVec.add_right_inj, BitVec.add_right_inj] at hb

/-- Up to two bytes, the accumulator after them determines them. -/
theorem pushAll_injective_of_length_le_two {s t : List Byte} (hlen : s.length = t.length) (hs : s.length ≤ 2)
    (h : c.pushAll s = c.pushAll t) : s = t := by
  match s, t with
  | [], [] => rfl
  | [x], [x'] => rw [push_injective c h]
  | [x, y], [x', y'] =>
    obtain rfl : x = x' := eq_of_push_push_eq h
    rw [push_injective _ h]

/-- `a` is a sum, so it does not depend on the order of the bytes. -/
theorem pushAll_a_of_perm (c : Ck) {s t : List Byte} (h : s.Perm t) : (c.pushAll s).a = (c.pushAll t).a := by
  rw [Ck.pushAll_a, Ck.pushAll_a, h.sum_eq]

end Collisions

/-- Settles O15: R124's change of three bytes collides, one or two bytes are recovered from the pair, `a` is a sum, and
`b` tells `[0, 1]` from `[1, 0]`. -/
theorem checksumCollidesFromThreeBytesOn : Obligations.ChecksumCollidesFromThreeBytesOn := by
  refine ⟨fun x y z rest => ⟨pushAll_three_collide _ x y z rest, fun h => ?_⟩,
    fun s t => pushAll_injective_of_length_le_two, fun s t => pushAll_a_of_perm _,
    [0x00, 0x01], [0x01, 0x00], List.Perm.swap _ _ _, by decide⟩
  have hx : x = x + 1 := List.head_eq_of_cons_eq h
  bv_omega

/-! ### The operations (R121, R122) -/

theorem exec_ckPush (d : Byte) (s : State) :
    exec (.ckPush d) s = .next { s with ck := s.ck.push d, out := { s.out with ck := .pushed d } } := rfl

theorem exec_ckTake (s : State) :
    exec .ckTake s = .next { s with ck := Ck.zero, out := { s.out with ck := .taken s.ck.a s.ck.b } } := rfl

/-- Settles O12: the pair is that of `Ck.push`, whose `b` adds the `a` just updated. -/
theorem ckPushSumsModulo256 : Obligations.CkPushSumsModulo256 := by
  intro d s
  refine ⟨(s.ck.push d).a, (s.ck.push d).b, (push_toNat s.ck d).1, ?_, exec_ckPush d s⟩
  exact BitVec.toNat_add s.ck.b (s.ck.a + d)

/-- Settles O13: a take of any accumulator, and of the cleared one. -/
theorem ckTakeAnswersAndClears : Obligations.CkTakeAnswersAndClears := fun s =>
  ⟨exec_ckTake s, exec_ckTake { s with ck := Ck.zero }⟩

end Sys2Proof.Machine

/-! PROOFS. The deframer statements of `41_deframer.md`: the step rules (R142 to R150), batches (R152), where DF can go and
what each step can report (R151 to R157, R162), and whole frames through DF (R158 to R161, R163). -/

namespace Sys2Proof.Machine

/-! ### The step rules (R140 to R150) -/

section Rules

variable {s t : State} {b : Byte} {o : DfOutcome}

/-- What one push answers, `DF.PUSH` and the step word of the state's code report (R92). -/
theorem exec_of_pushByte {code : BitVec 3} {i : Instr} (hcode : s.df.code = code)
    (hi : i ∈ [Instr.dfPush b, stepOfCode code b]) (h : pushByte b s = .next (t, o)) :
    exec i s = .next (t.setOutDf [{ st := code, byte := b, outcome := o }]) := by
  have hpush : execDfPush b s = .next (t.setOutDf [{ st := code, byte := b, outcome := o }]) :=
    execDfPush_eq_next.2 ⟨t, o, h, by rw [hcode]⟩
  rcases List.mem_pair.1 hi with rfl | rfl
  · exact hpush
  · rw [exec_stepOfCode, if_pos hcode, hpush]

/-- What a push reports and leaves, read off `DF.PUSH`. -/
theorem pushByte_of_exec {e : DfEvent} (h : exec (.dfPush b) s = .next t) (hout : t.out.df = [e]) :
    ∃ u, pushByte b s = .next (u, e.outcome) ∧ t.df = u.df := by
  obtain ⟨u, o, hpush, rfl⟩ := execDfPush_eq_next.1 h
  obtain rfl := List.head_eq_of_cons_eq hout
  exact ⟨u, hpush, rfl⟩

theorem shiftIn_eq_ofNat (sr : Half) (b : Byte) : shiftIn sr b = BitVec.ofNat 16 (sr.toNat % 256 * 256 + b.toNat) := by
  rw [← shiftIn_toNat, BitVec.ofNat_toNat, BitVec.setWidth_eq]

/-- A byte taken in the initial SYNC state is absorbed, whatever it is (R154). -/
theorem pushByte_initialSync (h : inInitialSync s) (b : Byte) :
    pushByte b s = .next (s.setDf (.sync (BitVec.ofNat 16 b.toNat)), .noOutput) := by
  have hnone : ¬shiftIn 0x0000#16 b = syncWord := by
    rw [shiftIn_eq_syncWord]
    rintro ⟨h, -⟩
    exact absurd h (by decide)
  rw [pushByte_sync h, stepSync, if_neg hnone, shiftIn_eq_ofNat]
  simp

theorem lenOf_eq_ofNat (lo hi : Byte) : lenOf lo hi = BitVec.ofNat 16 (256 * hi.toNat + lo.toNat) := by
  rw [← lenOf_toNat, BitVec.ofNat_toNat, BitVec.setWidth_eq]

theorem oversizeOutcome_eq (cfg : Config) (n : Half) :
    oversizeOutcome cfg n = if cfg.policy = .report then .errOversize n cfg.maxLen else .noOutput := by
  unfold oversizeOutcome
  cases cfg.policy <;> rfl

section LenMsb

variable {c m lo : Byte}

/-- A length over the ceiling: the frame is abandoned (R147). -/
theorem pushByte_oversize (h : s.df = .lenMsb c m lo) (hover : s.cfg.maxLen.toNat < 256 * b.toNat + lo.toNat) :
    pushByte b s = .next (abandon (pushCkDf b s), oversizeOutcome s.cfg (lenOf lo b)) := by
  have hov : oversize s.cfg (lenOf lo b) = true := by rwa [oversize_iff, lenOf_toNat]
  rw [pushByte_lenMsb h, stepLenMsb, if_pos hov, raiseDf_eq]

/-- A length within the ceiling: the payload begins, unless it is empty (R147). -/
theorem pushByte_length (h : s.df = .lenMsb c m lo) (hfits : 256 * b.toNat + lo.toNat ≤ s.cfg.maxLen.toNat) :
    pushByte b s =
      if 256 * b.toNat + lo.toNat = 0 then .next (finishPayload c m 0#16 (pushCkDf b s), .noOutput)
      else .next ((pushCkDf b s).setDf (.message c m (lenOf lo b) 0#16), .noOutput) := by
  have hov : ¬oversize s.cfg (lenOf lo b) = true := by rw [oversize_iff, lenOf_toNat]; omega
  rw [pushByte_lenMsb h, stepLenMsb, if_neg hov]
  simp only [half_eq_zero_iff, lenOf_toNat]

end LenMsb

theorem pushByte_cka_match {c m ea eb : Byte} {len : Half} (h : s.df = .cka c m len ea eb) :
    pushByte ea s = .next (s.setDf (.ckb c m len ea eb), .noOutput) := by rw [pushByte_cka h, stepCka, if_pos rfl]

theorem pushByte_cka_mismatch {c m ea eb : Byte} {len : Half} (h : s.df = .cka c m len ea eb) (hb : b ≠ ea) :
    pushByte b s = .next (abandon s, .errChecksum) := by rw [pushByte_cka h, stepCka, if_neg hb, raiseDf_eq]

theorem pushByte_ckb_match {c m ea eb : Byte} {len : Half} {msg : List Byte} (h : s.df = .ckb c m len ea eb)
    (hmsg : Memory.readFrom s.buf 0 len.toNat = some msg) :
    pushByte eb s = .next (present c m len s, .envelope { cls := c, mid := m, msg := msg }) := by
  rw [pushByte_ckb h]
  exact stepCkb_eq_next.2 (.inl ⟨rfl, msg, hmsg, rfl, rfl⟩)

theorem pushByte_ckb_mismatch {c m ea eb : Byte} {len : Half} (h : s.df = .ckb c m len ea eb) (hb : b ≠ eb) :
    pushByte b s = .next (abandon s, .errChecksum) := by
  rw [pushByte_ckb h]
  exact stepCkb_eq_next.2 (.inr ⟨hb, rfl, rfl⟩)

end Rules

/-- Settles O11: a reset is an abandoned frame with CK_DF cleared. -/
theorem dfResetRestoresDfAlone : Obligations.DfResetRestoresDfAlone := fun s =>
  ⟨((abandon s).setCkDf Ck.zero).setOutDf [], rfl, rfl, rfl, rfl, rfl, rfl, rfl, rfl, rfl, rfl, rfl, rfl, rfl, rfl, rfl,
    rfl, fun _ => rfl⟩

/-- Settles O16: the shift register takes the byte, unless that makes the sync word. -/
theorem syncStepSearchesForTheSyncWord : Obligations.SyncStepSearchesForTheSyncWord := by
  intro s sr b hdf i hi
  have hcode : s.df.code = 0#3 := by rw [hdf]; rfl
  have hpush := pushByte_sync (b := b) hdf
  rw [stepSync] at hpush
  simp only [shiftIn_eq_syncWord] at hpush
  split at hpush
  · next hfound =>
    rw [if_pos hfound]
    exact exec_of_pushByte hcode hi hpush
  · next hnone =>
    rw [if_neg hnone, ← shiftIn_eq_ofNat]
    exact exec_of_pushByte hcode hi hpush

/-- Settles O17: the accumulator is cleared before it takes the class byte. -/
theorem classStepSeedsTheChecksum : Obligations.ClassStepSeedsTheChecksum := by
  intro s b hdf i hi
  rw [exec_of_pushByte (code := 1#3) (by rw [hdf]; rfl) hi (pushByte_cls hdf), Ck.zero_push]
  rfl

/-- Settles O18: the step always completes, with the checksum of the id byte pushed. -/
theorem idStepKeepsTheId : Obligations.IdStepKeepsTheId := fun _ _ _ hdf _ hi =>
  exec_of_pushByte (code := 2#3) (by rw [hdf]; rfl) hi (pushByte_id hdf)

/-- Settles O19: the step does not read `MAX_LEN`. -/
theorem lenLsbStepKeepsTheLowByte : Obligations.LenLsbStepKeepsTheLowByte := fun _ _ _ _ hdf _ hi =>
  exec_of_pushByte (code := 3#3) (by rw [hdf]; rfl) hi (pushByte_lenLsb hdf)

/-- Settles O20: the three cases of the length, and the first of them at the ports. -/
theorem lenMsbStepChecksTheLength : Obligations.LenMsbStepChecksTheLength := by
  intro s c m lo b hdf
  have hcode : s.df.code = 4#3 := by rw [hdf]; rfl
  refine ⟨fun i hi => ⟨fun hover => ?_, fun hfits hzero => ?_, fun hfits hpos => ?_⟩,
    fun hover hpolicy hidle p hrst hraddr hcmd hbyte => ?_⟩
  · rw [exec_of_pushByte hcode hi (pushByte_oversize hdf hover), oversizeOutcome_eq, lenOf_eq_ofNat]
    rfl
  · have hpush := pushByte_length hdf hfits
    rw [if_pos hzero] at hpush
    exact exec_of_pushByte hcode hi hpush
  · have hpush := pushByte_length hdf hfits
    rw [if_neg hpos, lenOf_eq_ofNat] at hpush
    exact exec_of_pushByte hcode hi hpush
  · subst hbyte
    have hpush := pushByte_oversize hdf hover
    rw [oversizeOutcome_eq, if_pos hpolicy, lenOf_eq_ofNat] at hpush
    have hread : readAt p.raddr s = .next none := by rw [hraddr]; rfl
    exact ⟨_, cycle_dfPush hidle hrst hcmd hread (execDfPush_eq_next.2 ⟨_, _, hpush, rfl⟩), rfl, rfl, rfl⟩

/-- Settles O21: `cnt + 1` does not wrap below `len`. -/
theorem messageStepStoresOneByte : Obligations.MessageStepStoresOneByte := by
  intro s c m len cnt b hdf hcnt hlen i hi
  have hcode : s.df.code = 5#3 := by rw [hdf]; rfl
  have hpush := (pushByte_message (b := b) hdf).trans (stepMessage_eq_next.2 ⟨by omega, rfl, rfl⟩)
  have hbuf := pushByte_message_buf hdf hpush
  refine ⟨_, exec_of_pushByte hcode hi hpush, ?_, fun a ha => ?_, ?_⟩
  · rw [setOutDf_buf, hbuf, Memory.read_write_same]
  · rw [setOutDf_buf, hbuf, Memory.read_write_other _ _ ha]
  · have hnext : cnt + 1#16 = BitVec.ofNat 16 (cnt.toNat + 1) := by
      rw [← cnt_succ_toNat hcnt, BitVec.ofNat_toNat, BitVec.setWidth_eq]
    simp only [cnt_succ_eq_iff hcnt]
    split
    · rfl
    · rw [hnext]
      rfl

/-- Settles O22: the two cases of the comparison. -/
theorem ckaStepComparesByteA : Obligations.CkaStepComparesByteA := by
  intro s c m len ea eb b hdf i hi
  have hcode : s.df.code = 6#3 := by rw [hdf]; rfl
  refine ⟨fun hb => ?_, fun hb => ?_⟩
  · subst hb
    exact exec_of_pushByte hcode hi (pushByte_cka_match hdf)
  · exact exec_of_pushByte hcode hi (pushByte_cka_mismatch hdf hb)

/-- What stays of `MSG_BUF` is the message read out of it (R37, R63, R150). -/
theorem read_below_of_readFrom {mem : Memory} {n : Nat} {msg : List Byte} (h : Memory.readFrom mem 0 n = some msg) (k : Nat) :
    Memory.read (Memory.below mem n) k = msg[k]? := by
  obtain ⟨hlen, hget⟩ := Memory.readFrom_get h
  rw [Memory.read_below]
  split
  · next hk => rw [← hget k hk, Nat.zero_add]
  · next hk => rw [List.getElem?_eq_none (by omega)]

/-- Settles O23: the stored bytes are the Envelope's message, and all that stays of `MSG_BUF`. -/
theorem ckbStepEmitsTheEnvelope : Obligations.CkbStepEmitsTheEnvelope := by
  intro s c m len ea eb b hdf i hi
  have hcode : s.df.code = 7#3 := by rw [hdf]; rfl
  refine ⟨fun hb hstored => ?_, fun hb => ?_⟩
  · subst hb
    obtain ⟨msg, hmsg⟩ := Memory.readFrom_of_holds hstored
    obtain ⟨hlen, hget⟩ := Memory.readFrom_get hmsg
    refine ⟨_, msg, exec_of_pushByte hcode hi (pushByte_ckb_match hdf hmsg), hlen, fun k hk => ?_,
      read_below_of_readFrom hmsg, rfl⟩
    rw [← hget k hk, Nat.zero_add]
  · exact exec_of_pushByte hcode hi (pushByte_ckb_mismatch hdf hb)

/-- Settles O25: a push completes from every state of the invariant. -/
theorem pushAlwaysCompletesWithOneOutcome : Obligations.PushAlwaysCompletesWithOneOutcome := by
  intro s b hs
  obtain ⟨t, o, hpush, -⟩ := pushByte_complete b hs.toDfInv
  have hexec : exec (.dfPush b) s = .next (t.setOutDf _) := execDfPush_eq_next.2 ⟨t, o, hpush, rfl⟩
  exact ⟨_, o, hexec, rfl, exec_keeps hexec hs⟩

/-! ### Byte sequences (R152) -/

section Sequences

variable {s t u : State} {b : Byte} {o : DfOutcome} {xs ys : List Byte} {evs es : List DfEvent}

theorem exec_dfBatch_of_pushAll (h : pushAll xs s = .next (t, evs)) : exec (.dfBatch xs) s = .next (t.setOutDf evs) :=
  consume_eq_next.2 ⟨t, evs, h, rfl⟩

theorem exec_dfBatch_eq_next {v : State} :
    exec (.dfBatch xs) s = .next v ↔ ∃ t evs, pushAll xs s = .next (t, evs) ∧ v = t.setOutDf evs := consume_eq_next

/-- A sequence looks at nothing but DF's own state, `MSG_BUF` and the configuration (R39, R151). -/
theorem pushAll_local (hsame : SameDf s u) (h : pushAll xs s = .next (t, evs)) :
    ∃ v, pushAll xs u = .next (v, evs) ∧ SameDf t v := by
  induction xs generalizing s u evs with
  | nil => cases h; exact ⟨u, rfl, hsame⟩
  | cons x xs ih =>
    obtain ⟨w, o, rest, hx, hxs, rfl⟩ := pushAll_cons_eq_next.1 h
    obtain ⟨w', hx', hsame'⟩ := pushByte_local hsame hx
    obtain ⟨v, hxs', hv⟩ := ih hsame' hxs
    exact ⟨v, hsame.df ▸ pushAll_cons_of hx' hxs', hv⟩

/-- What DF moves, and what no push moves, make up the state. -/
theorem eq_setOutDf_of_sameDf {v : State} (hsame : SameDf t v) (ht : pushFrame s t) (hv : pushFrame (s.setOutDf es) v) :
    v = t.setOutDf es := by
  obtain ⟨hcfg, hdf, hckDf, hbuf, hshown⟩ := hsame
  obtain ⟨-, hck, henc, hencCk, hout, hports, hinputs⟩ := ht
  obtain ⟨-, kck, kenc, kencCk, kout, kports, kinputs⟩ := hv
  cases v
  cases t
  simp_all [State.setOutDf]

theorem sameDf_setOutDf (s : State) (es : List DfEvent) : SameDf s (s.setOutDf es) := ⟨rfl, rfl, rfl, rfl, rfl⟩

theorem SameDf.symm (h : SameDf s u) : SameDf u s := ⟨h.cfg.symm, h.df.symm, h.ckDf.symm, h.buf.symm, h.shown.symm⟩

/-- What was reported before is no part of what the pushes do (R34). -/
theorem pushAll_setOutDf (es : List DfEvent) (h : pushAll xs s = .next (t, evs)) :
    pushAll xs (s.setOutDf es) = .next (t.setOutDf es, evs) := by
  obtain ⟨v, hv, hsame⟩ := pushAll_local (sameDf_setOutDf s es) h
  rw [hv, eq_setOutDf_of_sameDf hsame (pushAll_frame h) (pushAll_frame hv)]

theorem pushAll_setOutDf_eq_next :
    pushAll xs (s.setOutDf es) = .next (t, evs) ↔ ∃ u, pushAll xs s = .next (u, evs) ∧ t = u.setOutDf es := by
  refine ⟨fun h => ?_, ?_⟩
  · obtain ⟨u, hu, -⟩ := pushAll_local (sameDf_setOutDf s es).symm h
    have hu' := pushAll_setOutDf es hu
    rw [h] at hu'
    cases hu'
    exact ⟨u, hu, rfl⟩
  · rintro ⟨u, hu, rfl⟩
    exact pushAll_setOutDf es hu

/-- Any split of a batch is two batches, with both reports (R152). -/
theorem exec_dfBatch_append {v : State} :
    exec (.dfBatch (xs ++ ys)) s = .next v ↔
      ∃ t u : State, exec (.dfBatch xs) s = .next t ∧ exec (.dfBatch ys) t = .next u ∧
        v = u.setOutDf (t.out.df ++ u.out.df) := by
  simp only [exec_dfBatch_eq_next, pushAll_append_eq_next]
  constructor
  · rintro ⟨w, _, ⟨t, e1, e2, hxs, hys, rfl⟩, rfl⟩
    exact ⟨_, _, ⟨t, e1, hxs, rfl⟩, ⟨_, e2, pushAll_setOutDf e1 hys, rfl⟩, rfl⟩
  · rintro ⟨_, _, ⟨t, e1, hxs, rfl⟩, ⟨u, e2, hys, rfl⟩, rfl⟩
    obtain ⟨w, hw, rfl⟩ := pushAll_setOutDf_eq_next.1 hys
    exact ⟨w, _, ⟨t, e1, e2, hxs, hw, rfl⟩, rfl⟩

theorem exec_dfBatch_singleton (b : Byte) (s : State) : exec (.dfBatch [b]) s = exec (.dfPush b) s := by
  show andThen (andThen (pushByte b s) _) _ = andThen (pushByte b s) _
  cases pushByte b s <;> rfl

/-- A byte in `MSG_BUF` after a sequence was there before or is one of the sequence (R60). -/
theorem pushAll_read {a : Nat} {v : Byte} (h : pushAll xs s = .next (t, evs)) (hv : Memory.read t.buf a = some v) :
    Memory.read s.buf a = some v ∨ v ∈ xs := by
  induction xs generalizing s evs with
  | nil => cases h; exact .inl hv
  | cons x xs ih =>
    obtain ⟨u, o, rest, hx, hxs, -⟩ := pushAll_cons_eq_next.1 h
    rcases ih hxs with hu | hmem
    · rcases pushByte_read hx hu with hs | ⟨-, -, -, -, -, -, rfl⟩
      · exact .inl hs
      · exact .inr List.mem_cons_self
    · exact .inr (List.mem_cons_of_mem x hmem)

end Sequences

/-- Settles O37: what an earlier batch reported is no part of what the next one does. -/
theorem batchesAreTheirPushesInOrder : Obligations.BatchesAreTheirPushesInOrder :=
  ⟨fun _ => rfl, fun s b => exec_dfBatch_singleton b s, fun _ _ _ _ => exec_dfBatch_append⟩

/-- Settles O38: a sequence completes from every state of the invariant. -/
theorem batchAlwaysCompletes : Obligations.BatchAlwaysCompletes := by
  intro s bytes hs
  obtain ⟨t, evs, hpush, -⟩ := pushAll_complete bytes hs.toDfInv
  have hexec := exec_dfBatch_of_pushAll hpush
  exact ⟨_, hexec, exec_keeps hexec hs, pushAll_bytes hpush, fun a v hv => pushAll_read hpush hv⟩

/-! ### Where DF can go (R151, R155, R157, R162) -/

/-- What one push can do to the DF state, with what it reports (R142 to R150). -/
inductive DfMove (cfg : Config) (b : Byte) : DfState → DfState → DfOutcome → Prop where
  | search {sr : Half} (h : ¬shiftIn sr b = syncWord) : DfMove cfg b (.sync sr) (.sync (shiftIn sr b)) .noOutput
  | found {sr : Half} (h : shiftIn sr b = syncWord) : DfMove cfg b (.sync sr) .cls .noOutput
  | cls : DfMove cfg b .cls (.id b) .noOutput
  | id {c : Byte} : DfMove cfg b (.id c) (.lenLsb c b) .noOutput
  | lenLsb {c m : Byte} : DfMove cfg b (.lenLsb c m) (.lenMsb c m b) .noOutput
  | oversize {c m lo : Byte} (h : cfg.maxLen.toNat < lo.toNat + 256 * b.toNat) :
      DfMove cfg b (.lenMsb c m lo) (.sync 0x0000) (oversizeOutcome cfg (lenOf lo b))
  | empty {c m lo ea eb : Byte} (h : lo.toNat + 256 * b.toNat = 0) :
      DfMove cfg b (.lenMsb c m lo) (.cka c m 0#16 ea eb) .noOutput
  | payload {c m lo : Byte} (h : lo.toNat + 256 * b.toNat ≤ cfg.maxLen.toNat) :
      DfMove cfg b (.lenMsb c m lo) (.message c m (lenOf lo b) 0#16) .noOutput
  | store {c m : Byte} {len cnt : Half} : DfMove cfg b (.message c m len cnt) (.message c m len (cnt + 1#16)) .noOutput
  | lastByte {c m ea eb : Byte} {len cnt : Half} : DfMove cfg b (.message c m len cnt) (.cka c m len ea eb) .noOutput
  | byteA {c m ea eb : Byte} {len : Half} : DfMove cfg b (.cka c m len ea eb) (.ckb c m len ea eb) .noOutput
  | wrongA {c m ea eb : Byte} {len : Half} : DfMove cfg b (.cka c m len ea eb) (.sync 0x0000) .errChecksum
  | byteB {c m ea eb : Byte} {len : Half} {msg : List Byte} :
      DfMove cfg b (.ckb c m len ea eb) (.sync 0x0000) (.envelope { cls := c, mid := m, msg := msg })
  | wrongB {c m ea eb : Byte} {len : Half} : DfMove cfg b (.ckb c m len ea eb) (.sync 0x0000) .errChecksum

section Moves

variable {s t : State} {b : Byte} {o : DfOutcome} {cfg : Config} {d d' : DfState}

theorem pushByte_move (h : pushByte b s = .next (t, o)) : DfMove s.cfg b s.df t.df o := by
  cases e : s.df with
  | sync sr =>
    rw [pushByte_sync e, stepSync] at h
    split at h
    · next hfound => cases h; exact .found hfound
    · next hnone => cases h; exact .search hnone
  | cls => rw [pushByte_cls e] at h; cases h; exact .cls
  | id c => rw [pushByte_id e] at h; cases h; exact .id
  | lenLsb c m => rw [pushByte_lenLsb e] at h; cases h; exact .lenLsb
  | lenMsb c m lo =>
    rcases Nat.lt_or_ge s.cfg.maxLen.toNat (256 * b.toNat + lo.toNat) with hover | hfits
    · rw [pushByte_oversize e hover] at h
      cases h
      exact .oversize (by omega)
    · rw [pushByte_length e hfits] at h
      split at h
      · next hzero => cases h; exact .empty (by omega)
      · cases h; exact .payload (by omega)
  | message c m len cnt =>
    rw [pushByte_message e] at h
    obtain ⟨-, rfl, rfl⟩ := stepMessage_eq_next.1 h
    split
    · exact .lastByte
    · exact .store
  | cka c m len ea eb =>
    by_cases hb : b = ea
    · subst hb; rw [pushByte_cka_match e] at h; cases h; exact .byteA
    · rw [pushByte_cka_mismatch e hb] at h; cases h; exact .wrongA
  | ckb c m len ea eb =>
    rw [pushByte_ckb e] at h
    rcases stepCkb_eq_next.1 h with ⟨-, msg, -, rfl, rfl⟩ | ⟨-, rfl, rfl⟩
    · exact .byteB
    · exact .wrongB

theorem searching_iff : searching s ↔ s.df.code = 0 := by
  unfold searching
  cases s.df <;> simp [DfState.code]

/-- A walk ends exactly where a push leads from one of its states back to SYNC (R153, R155). -/
theorem endsWalk_iff_code (h : DfMove s.cfg b s.df d' o) : endsWalk s b o ↔ s.df.code ≠ 0 ∧ d'.code = 0 := by
  unfold endsWalk
  generalize s.df = d at h
  cases h with
  | oversize hover => simpa [DfState.code] using .inr hover
  | empty hzero => simp [DfState.code, hzero]
  | payload hfits => simpa [DfState.code] using hfits
  | _ => simp [DfState.code]

/-- From a state of a walk DF goes on by one state, stays in MESSAGE, skips it, or is back in the initial SYNC state
(R151). -/
theorem DfMove.code_cases (h : DfMove cfg b d d' o) (hd : d.code ≠ 0) :
    d' = .sync 0x0000 ∨
      (d'.code ≠ 0 ∧ (d'.code = d.code + 1 ∨ (d.code = 5 ∧ d'.code = 5) ∨ (d.code = 4 ∧ d'.code = 6))) := by
  cases h <;> simp [DfState.code] at hd ⊢

/-- `df_kind` other than NONE comes from the states R162 names. -/
theorem DfMove.outcome_code (h : DfMove cfg b d d' o) :
    (∀ env, o = .envelope env → d.code = 7) ∧ (o = .errChecksum → d.code = 6 ∨ d.code = 7) ∧
      (∀ n k, o = .errOversize n k → d.code = 4 ∧ cfg.policy = .report) ∧
      (d.code ≠ 4 ∧ d.code ≠ 6 ∧ d.code ≠ 7 → o = .noOutput) := by
  cases h with
  | oversize hover =>
    rw [oversizeOutcome_eq]
    split
    · next hreport => simp [DfState.code, hreport]
    · simp [DfState.code]
  | _ => simp [DfState.code]

end Moves

/-- Settles O26: of the moves of DF only those from LENMSB, CKA and CKB report. -/
theorem outcomesComeFromTheirSteps : Obligations.OutcomesComeFromTheirSteps := by
  intro s t b e hexec hout
  obtain ⟨u, hpush, -⟩ := pushByte_of_exec hexec hout
  obtain ⟨henv, hck, hover, hnone⟩ := (pushByte_move hpush).outcome_code
  refine ⟨henv, hck, hover, fun hcode => hnone ?_⟩
  rcases hcode with h | h | h | h | h <;> simp [h]

/-- Settles O30: a push ends the walk exactly where its move is one to SYNC, and the other moves are R151's. -/
theorem syncWordInsideAFrameIsData : Obligations.SyncWordInsideAFrameIsData := by
  intro s t b e hexec hout hwalk
  obtain ⟨u, hpush, hdf⟩ := pushByte_of_exec hexec hout
  have hmove := hdf ▸ pushByte_move hpush
  rw [searching_iff] at hwalk
  have hends : endsWalk s b e.outcome ↔ t.df.code = 0 := by rw [endsWalk_iff_code hmove]; exact and_iff_right hwalk
  refine ⟨searching_iff.trans hends.symm, fun hgo => ?_⟩
  rcases hmove.code_cases hwalk with hsync | ⟨-, hcases⟩
  · exact absurd (hends.2 (by rw [hsync]; rfl)) hgo
  · exact hcases

/-- The push that ends a walk leaves DF in the initial SYNC state (R153). -/
theorem inInitialSync_of_endsWalk {s t : State} {b : Byte} {o : DfOutcome} (h : pushByte b s = .next (t, o))
    (hend : endsWalk s b o) : inInitialSync t := by
  have hmove := pushByte_move h
  obtain ⟨hwalk, hsync⟩ := (endsWalk_iff_code hmove).1 hend
  rcases hmove.code_cases hwalk with hd | ⟨hne, -⟩
  · exact hd
  · exact absurd hsync hne

/-- Settles O29: a `0x62` after the empty shift register makes no sync word. -/
theorem endingByteIsNotASyncByte : Obligations.EndingByteIsNotASyncByte := by
  intro s t b e hexec hout hend
  obtain ⟨u, hpush, hdf⟩ := pushByte_of_exec hexec hout
  have hsync : t.df = .sync 0x0000#16 := hdf.trans (inInitialSync_of_endsWalk hpush hend)
  exact ⟨_, execDfPush_eq_next.2 ⟨_, _, pushByte_initialSync hsync 0x62, rfl⟩, rfl⟩

/-! ### The earliest positions (R162) -/

/-- How many bytes have to be taken from the initial SYNC state to be here, at least. -/
def DfState.depth : DfState → Nat
  | .sync sr => if sr.toNat % 256 = 0xB5 then 1 else 0
  | .cls => 2
  | .id _ => 3
  | .lenLsb _ _ => 4
  | .lenMsb _ _ _ => 5
  | .message _ _ _ _ => 6
  | .cka _ _ _ _ _ => 6
  | .ckb _ _ _ _ _ => 7

/-- The least depth an outcome comes from. -/
def DfOutcome.depth : DfOutcome → Nat
  | .noOutput => 0
  | .errOversize _ _ => 5
  | .errChecksum => 6
  | .envelope _ => 7

/-- A move goes at most one byte deeper, and reports nothing that comes from deeper down. -/
theorem DfMove.depth_le {cfg : Config} {b : Byte} {d d' : DfState} {o : DfOutcome} (h : DfMove cfg b d d' o) :
    o.depth ≤ d.depth ∧ d'.depth ≤ d.depth + 1 := by
  cases h with
  | @search sr =>
    refine ⟨Nat.zero_le _, ?_⟩
    simp only [DfState.depth]
    split <;> omega
  | found hfound => simp [DfState.depth, DfOutcome.depth, ((shiftIn_eq_syncWord _ _).1 hfound).1]
  | oversize hover =>
    rw [oversizeOutcome_eq]
    split <;> simp [DfState.depth, DfOutcome.depth]
  | _ => simp [DfState.depth, DfOutcome.depth]

/-- The `k`-th outcome of a sequence comes from at most `k` bytes deeper than its start. -/
theorem depth_le_of_pushAll {xs : List Byte} {s t : State} {evs : List DfEvent} {k : Nat} {o : DfOutcome}
    (h : pushAll xs s = .next (t, evs)) (hk : (outcomes evs)[k]? = some o) : o.depth ≤ s.df.depth + k := by
  induction xs generalizing s evs k with
  | nil => cases h; simp at hk
  | cons x xs ih =>
    obtain ⟨u, o', rest, hx, hxs, rfl⟩ := pushAll_cons_eq_next.1 h
    obtain ⟨hout, hdf⟩ := (pushByte_move hx).depth_le
    cases k with
    | zero =>
      obtain rfl : o' = o := by simpa using hk
      exact hout
    | succ k =>
      have htail := ih hxs (by simpa using hk)
      omega

/-! ### How long a walk can take (R157) -/

/-- How many bytes DF takes at most before it is back in SYNC, under a ceiling. -/
def DfState.bytesLeft (maxLen : Nat) : DfState → Nat
  | .sync _ => 0
  | .cls => 4 + maxLen + 2
  | .id _ => 3 + maxLen + 2
  | .lenLsb _ _ => 2 + maxLen + 2
  | .lenMsb _ _ _ => 1 + maxLen + 2
  | .message _ _ len cnt => len.toNat - cnt.toNat + 2
  | .cka _ _ _ _ _ => 2
  | .ckb _ _ _ _ _ => 1

theorem bytesLeft_le {cfg : Config} {m : Memory} {d : DfState} (h : dfInv cfg m d) :
    d.bytesLeft cfg.maxLen.toNat ≤ 4 + cfg.maxLen.toNat + 2 := by
  cases d with
  | message c m len cnt =>
    obtain ⟨-, hlen, -⟩ := h
    simp only [DfState.bytesLeft]
    omega
  | _ => simp only [DfState.bytesLeft]; omega

theorem code_eq_zero_of_bytesLeft {maxLen : Nat} {d : DfState} (h : d.bytesLeft maxLen = 0) : d.code = 0 := by
  cases d <;> simp [DfState.bytesLeft, DfState.code] at h ⊢

/-- From a state of a walk every move is the return to the initial SYNC state or brings it one byte closer. -/
theorem DfMove.bytesLeft_lt {cfg : Config} {m : Memory} {b : Byte} {d d' : DfState} {o : DfOutcome}
    (h : DfMove cfg b d d' o) (hd : d.code ≠ 0) (hinv : dfInv cfg m d) :
    d' = .sync 0x0000 ∨ (d'.code ≠ 0 ∧ d'.bytesLeft cfg.maxLen.toNat < d.bytesLeft cfg.maxLen.toNat) := by
  cases h with
  | search => simp [DfState.code] at hd
  | found => simp [DfState.code] at hd
  | payload hfits =>
    refine .inr ⟨by simp [DfState.code], ?_⟩
    simp only [DfState.bytesLeft, lenOf_toNat, BitVec.toNat_ofNat]
    omega
  | store =>
    obtain ⟨hcnt, -, -⟩ := hinv
    refine .inr ⟨by simp [DfState.code], ?_⟩
    simp only [DfState.bytesLeft, cnt_succ_toNat hcnt]
    omega
  | lastByte =>
    obtain ⟨hcnt, -, -⟩ := hinv
    refine .inr ⟨by simp [DfState.code], ?_⟩
    simp only [DfState.bytesLeft]
    omega
  | oversize => exact .inl rfl
  | wrongA => exact .inl rfl
  | byteB => exact .inl rfl
  | wrongB => exact .inl rfl
  | _ =>
    refine .inr ⟨by simp [DfState.code], ?_⟩
    simp only [DfState.bytesLeft]
    omega

/-- A walk is over after as many bytes as it has left, or sooner. -/
theorem pushAll_take_inInitialSync {xs : List Byte} {s : State} {n : Nat} (hs : DfInv s) (hd : s.df.code ≠ 0)
    (hn : s.df.bytesLeft s.cfg.maxLen.toNat ≤ n) (hxs : n ≤ xs.length) :
    ∃ k t evs, k ≤ n ∧ pushAll (xs.take k) s = .next (t, evs) ∧ inInitialSync t := by
  induction xs generalizing s n with
  | nil => exact absurd (code_eq_zero_of_bytesLeft (by simpa using hn.trans hxs)) hd
  | cons x xs ih =>
    obtain ⟨u, o, hx, hu⟩ := pushByte_complete x hs
    obtain ⟨hcfg, -⟩ := pushByte_frame hx
    have hpos : s.df.bytesLeft s.cfg.maxLen.toNat ≠ 0 := fun h => hd (code_eq_zero_of_bytesLeft h)
    rcases (pushByte_move hx).bytesLeft_lt hd hs.df with hsync | ⟨hcode, hlt⟩
    · refine ⟨1, u, _, by omega, pushAll_cons_of hx (pushAll_nil u), hsync⟩
    · obtain ⟨k, t, evs, hk, hpush, ht⟩ :=
        ih (n := n - 1) hu hcode (by rw [hcfg]; omega) (by simp at hxs; omega)
      exact ⟨k + 1, t, _, by omega, pushAll_cons_of hx hpush, ht⟩

/-- Settles O40: the longest walk is the one from CLASS. -/
theorem everyWalkEndsInBoundedTime : Obligations.EveryWalkEndsInBoundedTime := by
  intro s bytes hs hwalk hlen
  rw [searching_iff] at hwalk
  obtain ⟨k, t, evs, hk, hpush, ht⟩ := pushAll_take_inInitialSync hs.toDfInv hwalk (bytesLeft_le hs.df) hlen
  exact ⟨k, _, hk, exec_dfBatch_of_pushAll hpush, ht⟩

/-! ### DF's behaviour is a function of the tagged sum (R24, R151, R153) -/

/-- The table of R151 over a byte sequence, with the outcomes in order. -/
def viewRun (cfg : Config) : List Byte → DfView → DfView × List DfOutcome
  | [], v => (v, [])
  | b :: bs, v =>
    let r := viewPush cfg b v
    let q := viewRun cfg bs r.1
    (q.1, r.2 :: q.2)

/-- The state a value of the tagged sum stands in. -/
def DfView.toDf : DfView → DfState
  | .sync sr => .sync sr
  | .cls => .cls
  | .id c _ => .id c
  | .lenLsb c m _ => .lenLsb c m
  | .lenMsb c m lo _ => .lenMsb c m lo
  | .message c m len msg _ => .message c m len (lenField msg)
  | .cka c m msg ea eb => .cka c m (lenField msg) ea eb
  | .ckb c m msg ea eb => .ckb c m (lenField msg) ea eb

theorem lenField_of_readFrom {m : Memory} {n : Half} {msg : List Byte} (h : Memory.readFrom m 0 n.toNat = some msg) :
    lenField msg = n := by
  obtain ⟨hlen, -⟩ := Memory.readFrom_get h
  rw [lenField, hlen, BitVec.ofNat_toNat, BitVec.setWidth_eq]

theorem toDf_of_viewOf {s : State} {v : DfView} (h : viewOf s = some v) : v.toDf = s.df := by
  unfold viewOf at h
  cases e : s.df with
  | message c m len cnt =>
    rw [e] at h
    obtain ⟨msg, hmsg, rfl⟩ := Option.map_eq_some_iff.1 h
    rw [DfView.toDf, lenField_of_readFrom hmsg]
  | cka c m len ea eb =>
    rw [e] at h
    obtain ⟨msg, hmsg, rfl⟩ := Option.map_eq_some_iff.1 h
    rw [DfView.toDf, lenField_of_readFrom hmsg]
  | ckb c m len ea eb =>
    rw [e] at h
    obtain ⟨msg, hmsg, rfl⟩ := Option.map_eq_some_iff.1 h
    rw [DfView.toDf, lenField_of_readFrom hmsg]
  | _ =>
    rw [e] at h
    cases h
    rfl

/-- A byte sequence is a run of the table (R151, R152). -/
theorem pushAll_refines (xs : List Byte) {s : State} {v : DfView} (hs : DfInv s) (hv : viewOf s = some v) :
    ∃ t evs, pushAll xs s = .next (t, evs) ∧ viewOf t = some (viewRun s.cfg xs v).1 ∧
      outcomes evs = (viewRun s.cfg xs v).2 := by
  induction xs generalizing s v with
  | nil => exact ⟨s, [], rfl, hv, rfl⟩
  | cons x xs ih =>
    obtain ⟨u, hx, hu⟩ := pushByte_refines (b := x) hs.df hv
    obtain ⟨hcfg, -⟩ := pushByte_frame hx
    obtain ⟨t, evs, hxs, ht, hout⟩ := ih (pushByte_keeps hx hs) hu
    rw [hcfg] at ht hout
    exact ⟨t, _, pushAll_cons_of hx hxs, ht, by rw [outcomes_cons, hout]; rfl⟩

/-- Settles O28: a value of the tagged sum in SYNC holds nothing but the shift register, so after the reset the table
runs from the same value. -/
theorem afterATerminalOutcomeDfActsAsReset : Obligations.AfterATerminalOutcomeDfActsAsReset := by
  intro s t b e hs hexec hout hend
  obtain ⟨u, hpush, hdf⟩ := pushByte_of_exec hexec hout
  have hsync : inInitialSync t := hdf.trans (inInitialSync_of_endsWalk hpush hend)
  have ht := exec_keeps hexec hs
  have hreset : exec .dfReset t = .next (((abandon t).setCkDf Ck.zero).setOutDf []) := rfl
  have hr := exec_keeps hreset ht
  have hview : viewOf t = some (.sync 0x0000#16) := by simp only [viewOf, hsync]
  refine ⟨hsync, fun bytes => ?_⟩
  obtain ⟨t', evs, hrun, hview', hout'⟩ := pushAll_refines bytes ht.toDfInv hview
  obtain ⟨r', evs', hrun', hview'', hout''⟩ := pushAll_refines (v := .sync 0x0000) bytes hr.toDfInv rfl
  refine ⟨_, _, _, hreset, exec_dfBatch_of_pushAll hrun, exec_dfBatch_of_pushAll hrun', hout'.trans hout''.symm, ?_⟩
  exact (toDf_of_viewOf hview').symm.trans (toDf_of_viewOf hview'')

/-! ### Whole frames (R158 to R161, R163) -/

section Frames

variable {s t : State} {cls id a b : Byte} {p : List Byte}

/-- The two checksum bytes after CKA, both right: the Envelope (R149, R150). -/
theorem pushAll_checksum_right {c m ea eb : Byte} {len : Half} {msg : List Byte} (h : s.df = .cka c m len ea eb)
    (hmsg : Memory.readFrom s.buf 0 len.toNat = some msg) :
    ∃ evs, pushAll [ea, eb] s = .next (present c m len (s.setDf (.ckb c m len ea eb)), evs) ∧
      outcomes evs = [.noOutput, .envelope { cls := c, mid := m, msg := msg }] :=
  ⟨_, pushAll_cons_of (pushByte_cka_match h) (pushAll_cons_of (pushByte_ckb_match rfl hmsg) (pushAll_nil _)), rfl⟩

/-- Byte B alone wrong: the error is on it (R150). -/
theorem pushAll_checksum_wrongB {c m ea eb : Byte} {len : Half} (h : s.df = .cka c m len ea eb) (hb : b ≠ eb) :
    ∃ t evs, pushAll [ea, b] s = .next (t, evs) ∧ t.df = .sync 0x0000 ∧ outcomes evs = [.noOutput, .errChecksum] :=
  ⟨_, _, pushAll_cons_of (pushByte_cka_match h) (pushAll_cons_of (pushByte_ckb_mismatch rfl hb) (pushAll_nil _)), rfl, rfl⟩

/-- Byte A wrong: the error is on it, and the last byte is absorbed (R149, R161). -/
theorem pushAll_checksum_wrongA {c m ea eb : Byte} {len : Half} (h : s.df = .cka c m len ea eb) (ha : a ≠ ea) :
    ∃ t evs, pushAll [a, b] s = .next (t, evs) ∧ t.df = .sync (BitVec.ofNat 16 b.toNat) ∧
      outcomes evs = [.errChecksum, .noOutput] :=
  ⟨_, _, pushAll_cons_of (pushByte_cka_mismatch h ha)
    (pushAll_cons_of (pushByte_initialSync (abandon_df s) b) (pushAll_nil _)), rfl, rfl⟩

/-- A wire frame is its bytes up to the payload, and then its two checksum bytes (R93). -/
theorem wireBytes_split (cls id : Byte) (p : List Byte) (a b : Byte) :
    wireBytes cls id p a b = (sync1 :: sync2 :: frameBody cls id p) ++ [a, b] := rfl

/-- What a wire frame comes to, from what its checksum bytes come to where DF awaits them. -/
theorem pushAll_wireBytes {u : State} {e1 e2 : List DfEvent}
    (hbody : pushAll (sync1 :: sync2 :: frameBody cls id p) s = .next (u, e1))
    (hck : pushAll [a, b] u = .next (t, e2)) : pushAll (wireBytes cls id p a b) s = .next (t, e1 ++ e2) :=
  pushAll_append_eq_next.2 ⟨u, e1, e2, hbody, hck, rfl⟩

theorem replicate_noOutput_append_two (n : Nat) (o : DfOutcome) :
    List.replicate (n + 6) DfOutcome.noOutput ++ [.noOutput, o] = List.replicate (n + 7) .noOutput ++ [o] := by
  rw [List.replicate_succ' (n := n + 6), List.append_assoc]
  rfl

/-- A frame with the right checksum gives its Envelope and leaves its payload readable (R158, R159, R187). -/
theorem walk_frame (h : searching s) (hp : p.length ≤ s.cfg.maxLen.toNat) :
    ∃ t evs, pushAll (frameBytes cls id p) s = .next (t, evs) ∧ inInitialSync t ∧
      (∀ k, Memory.read t.buf k = p[k]?) ∧
      t.shown = { cls := some cls, mid := some id, len := some (lenField p) } ∧
      outcomes evs = frameOutcomes cls id p := by
  have hmax := s.cfg.maxLen.isLt
  obtain ⟨u, e1, hbody, hdf, -, hmsg, -, hout⟩ := walk_to_cka h cls id p hp
  rw [← lenField_toNat (s := p) (by omega)] at hmsg
  obtain ⟨e2, hck, hout2⟩ := pushAll_checksum_right hdf hmsg
  refine ⟨_, _, pushAll_wireBytes hbody hck, rfl, read_below_of_readFrom hmsg, rfl, ?_⟩
  rw [outcomes_append, hout, hout2, replicate_noOutput_append_two]
  rfl

/-- A frame whose byte B alone is wrong (R161). -/
theorem walk_frame_wrongB (h : searching s) (hp : p.length ≤ s.cfg.maxLen.toNat)
    (hb : b ≠ (cksum (frameBody cls id p)).b) :
    ∃ t evs, pushAll (wireBytes cls id p (cksum (frameBody cls id p)).a b) s = .next (t, evs) ∧ t.df = .sync 0x0000 ∧
      outcomes evs = List.replicate (p.length + 7) .noOutput ++ [.errChecksum] := by
  obtain ⟨u, e1, hbody, hdf, -, -, -, hout⟩ := walk_to_cka h cls id p hp
  obtain ⟨t, e2, hck, ht, hout2⟩ := pushAll_checksum_wrongB hdf hb
  refine ⟨t, _, pushAll_wireBytes hbody hck, ht, ?_⟩
  rw [outcomes_append, hout, hout2, replicate_noOutput_append_two]

/-- A frame whose byte A is wrong (R161). -/
theorem walk_frame_wrongA (h : searching s) (hp : p.length ≤ s.cfg.maxLen.toNat)
    (ha : a ≠ (cksum (frameBody cls id p)).a) :
    ∃ t evs, pushAll (wireBytes cls id p a b) s = .next (t, evs) ∧ t.df = .sync (BitVec.ofNat 16 b.toNat) ∧
      outcomes evs = List.replicate (p.length + 6) .noOutput ++ [.errChecksum, .noOutput] := by
  obtain ⟨u, e1, hbody, hdf, -, -, -, hout⟩ := walk_to_cka h cls id p hp
  obtain ⟨t, e2, hck, ht, hout2⟩ := pushAll_checksum_wrongA hdf ha
  exact ⟨t, _, pushAll_wireBytes hbody hck, ht, by rw [outcomes_append, hout, hout2]⟩

/-- Six header bytes whose length is over the ceiling (R147, R156). -/
theorem walk_oversize {lo hi : Byte} (h : searching s) (hover : s.cfg.maxLen.toNat < 256 * hi.toNat + lo.toNat) :
    ∃ u evs, pushAll [0xB5, 0x62, cls, id, lo, hi] s = .next (abandon u, evs) ∧
      outcomes evs = List.replicate 5 .noOutput ++
        [if s.cfg.policy = .report then .errOversize (BitVec.ofNat 16 (256 * hi.toNat + lo.toNat)) s.cfg.maxLen
         else .noOutput] := by
  obtain ⟨t, e1, hheader, hdf, -, -, -, hout⟩ := walk_header h cls id lo
  obtain ⟨hcfg, -⟩ := pushAll_frame hheader
  have hpush := pushByte_oversize hdf (hcfg ▸ hover)
  rw [oversizeOutcome_eq, lenOf_eq_ofNat, hcfg] at hpush
  refine ⟨_, _, pushAll_append_eq_next.2 ⟨t, e1, _, hheader, pushAll_cons_of hpush (pushAll_nil _), rfl⟩, ?_⟩
  rw [outcomes_append, hout]
  rfl

/-- Noise in the sync search: with the last byte seen before it, it holds no sync word (R160). -/
theorem pushAll_noise {noise : List Byte} {sr : Half} {x : Byte} (h : s.df = .sync sr) (hx : sr.toNat % 256 = x.toNat)
    (hnoise : noSyncWord (x :: noise)) :
    ∃ t evs, pushAll noise s = .next (t, evs) ∧ searching t ∧
      outcomes evs = List.replicate noise.length .noOutput := by
  induction noise generalizing s sr x with
  | nil => exact ⟨s, [], rfl, ⟨sr, h⟩, rfl⟩
  | cons y noise ih =>
    obtain ⟨hxy, hrest⟩ := hnoise
    have hnone : ¬shiftIn sr y = syncWord := by
      rw [shiftIn_eq_syncWord, hx]
      rintro ⟨hx5, rfl⟩
      exact hxy ⟨BitVec.eq_of_toNat_eq hx5, rfl⟩
    have hpush : pushByte y s = .next (s.setDf (.sync (shiftIn sr y)), .noOutput) := by
      rw [pushByte_sync h, stepSync, if_neg hnone]
    have hy : (shiftIn sr y).toNat % 256 = y.toNat := by
      have := y.isLt
      rw [shiftIn_toNat]
      omega
    obtain ⟨t, evs, hxs, ht, hout⟩ := ih (s := s.setDf (.sync (shiftIn sr y))) rfl hy hrest
    refine ⟨t, _, pushAll_cons_of hpush hxs, ht, ?_⟩
    rw [outcomes_cons, hout]
    rfl

end Frames

/-- Settles O27: lower bounds by depth; the positions are reached by an empty frame, right and with byte A wrong, and by
an oversize header. -/
theorem earliestOutcomesAfterReset : Obligations.EarliestOutcomesAfterReset := by
  intro s hs hsync
  have hsearch : searching s := ⟨_, hsync⟩
  refine ⟨fun bytes t hexec k o hk => ?_, ?_, ?_, fun hpolicy hmax => ?_⟩
  · obtain ⟨u, evs, hpush, rfl⟩ := exec_dfBatch_eq_next.1 hexec
    have hdepth := depth_le_of_pushAll hpush hk
    rw [show s.df.depth = 0 by rw [hsync]; rfl, Nat.zero_add] at hdepth
    refine ⟨?_, ?_, ?_⟩
    · rintro env rfl; exact hdepth
    · rintro rfl; exact hdepth
    · rintro n c rfl; exact hdepth
  · obtain ⟨t, evs, hpush, -, -, -, hout⟩ := walk_frame (cls := 0) (id := 0) (p := []) hsearch (Nat.zero_le _)
    exact ⟨_, exec_dfBatch_of_pushAll hpush, by rw [setOutDf_out_df, hout]; rfl⟩
  · obtain ⟨t, evs, hpush, hdf, -, -, -, hout⟩ := walk_to_cka hsearch 0 0 [] (Nat.zero_le _)
    have hwrong := pushByte_cka_mismatch (b := 1) hdf (by decide)
    have hall := pushAll_append_eq_next.2 ⟨t, evs, _, hpush, pushAll_cons_of hwrong (pushAll_nil _), rfl⟩
    exact ⟨_, exec_dfBatch_of_pushAll hall, by rw [setOutDf_out_df, outcomes_append, hout]; rfl⟩
  · obtain ⟨t, evs, hpush, hout⟩ := walk_oversize (cls := 0) (id := 0) (lo := 0xFF) (hi := 0xFF) hsearch hmax
    rw [if_pos hpolicy] at hout
    exact ⟨_, exec_dfBatch_of_pushAll hpush, by rw [setOutDf_out_df, hout]; rfl⟩

/-- Settles O31: `.frame` is the wire frame, and that the batch of the frame's bytes. -/
theorem framesRoundTripThroughTheDeframer : Obligations.FramesRoundTripThroughTheDeframer := by
  intro s cls id p hs hsearch hp i hi
  have hmax := s.cfg.maxLen.isLt
  obtain ⟨t, evs, hpush, hdf, hbuf, hshown, hout⟩ := walk_frame (cls := cls) (id := id) hsearch hp
  have hframe : exec (.frame cls id p (cksum (frameBody cls id p)).a (cksum (frameBody cls id p)).b) s =
      .next (t.setOutDf evs) := by
    rw [exec_frame, if_pos (by omega)]
    exact exec_dfBatch_of_pushAll hpush
  have hexec : exec i s = .next (t.setOutDf evs) := by
    rcases List.mem_pair.1 hi with rfl | rfl
    · exact (exec_dotFrame cls id p s).trans hframe
    · exact hframe
  refine ⟨_, hexec, hout, hdf, hbuf, ?_, ?_, ?_⟩
  · simp [regCls, hdf, hshown]
  · simp [regMid, hdf, hshown]
  · simp [regLen, hdf, hshown, lenField]

/-- An Envelope in the outcomes of a wire frame is the frame's own, and its checksum bytes are right (R158). -/
theorem envelope_of_wireBytes {s t : State} {cls id a b : Byte} {p : List Byte} {evs : List DfEvent} {env : Envelope}
    (h : searching s) (hp : p.length ≤ s.cfg.maxLen.toNat) (hpush : pushAll (wireBytes cls id p a b) s = .next (t, evs))
    (henv : .envelope env ∈ outcomes evs) :
    wireBytes cls id p a b = frameBytes cls id p ∧ env = { cls := cls, mid := id, msg := p } := by
  by_cases ha : a = (cksum (frameBody cls id p)).a
  · subst ha
    by_cases hb : b = (cksum (frameBody cls id p)).b
    · subst hb
      obtain ⟨t', evs', hpush', -, -, -, hout⟩ := walk_frame (cls := cls) (id := id) h hp
      cases hpush.symm.trans hpush'
      rw [hout] at henv
      exact ⟨rfl, by simpa [frameOutcomes, List.mem_replicate] using henv⟩
    · obtain ⟨t', evs', hpush', -, hout⟩ := walk_frame_wrongB h hp hb
      cases hpush.symm.trans hpush'
      rw [hout] at henv
      simp [List.mem_replicate] at henv
  · obtain ⟨t', evs', hpush', -, hout⟩ := walk_frame_wrongA (b := b) h hp ha
    cases hpush.symm.trans hpush'
    rw [hout] at henv
    simp [List.mem_replicate] at henv

/-- Settles O32: the Envelope is the frame's own and its checksum right, so what ENC writes is the frame. -/
theorem reencodingAnEnvelopeGivesItsFrame : Obligations.ReencodingAnEnvelopeGivesItsFrame := by
  intro s t cls id p a b env hs hsearch hp hidle hexec henv
  have hmax := s.cfg.maxLen.isLt
  have hidle' : t.enc.isBusy = false := by rw [exec_enc hexec, hidle]; rfl
  rw [exec_frame, if_pos (by omega), exec_dfBatch_eq_next] at hexec
  obtain ⟨u, evs, hpush, rfl⟩ := hexec
  obtain ⟨hbytes, rfl⟩ := envelope_of_wireBytes hsearch hp hpush henv
  refine ⟨_, execEncFrame_eq_next.2 ⟨hidle', by dsimp only; omega, rfl⟩, ?_⟩
  have hcount : wireLen (lenField p) = BitVec.ofNat 17 (p.length + 8) := by
    apply BitVec.eq_of_toNat_eq
    rw [wireLen_toNat, lenField_toNat (by omega), BitVec.toNat_ofNat]
    omega
  rw [encode_frame, hbytes, ← hcount]
  rfl

/-- Settles O33: after the noise DF still searches, and a frame is delivered from every state of the search. -/
theorem noiseBeforeAFrameIsAbsorbed : Obligations.NoiseBeforeAFrameIsAbsorbed := by
  intro s noise cls id p hs hsync hnoise hp
  have hstart : noSyncWord (0x00 :: noise) := by
    cases noise with
    | nil => trivial
    | cons y noise => exact ⟨fun h => absurd h.1 (by decide), hnoise⟩
  obtain ⟨u, e1, hpush1, hsearch, hout1⟩ := pushAll_noise hsync rfl hstart
  obtain ⟨hcfg, -⟩ := pushAll_frame hpush1
  obtain ⟨t, e2, hpush2, ht, -, -, hout2⟩ := walk_frame (cls := cls) (id := id) hsearch (hcfg ▸ hp)
  have hall := pushAll_append_eq_next.2 ⟨u, e1, e2, hpush1, hpush2, rfl⟩
  exact ⟨_, exec_dfBatch_of_pushAll hall, by rw [setOutDf_out_df, outcomes_append, hout1, hout2], ht⟩

/-- With no reset a frame is delivered after a batch that leaves DF searching (R161). -/
theorem exec_frameBytes_after {s t : State} {xs : List Byte} (h : exec (.dfBatch xs) s = .next t) (hsearch : searching t)
    (cls id : Byte) (p : List Byte) (hp : p.length ≤ s.cfg.maxLen.toNat) :
    ∃ u, exec (.dfBatch (frameBytes cls id p)) t = .next u ∧ outcomes u.out.df = frameOutcomes cls id p := by
  rw [← (exec_actsOn h).cfg] at hp
  obtain ⟨u, evs, hpush, -, -, -, hout⟩ := walk_frame (cls := cls) (id := id) hsearch hp
  exact ⟨_, exec_dfBatch_of_pushAll hpush, hout⟩

/-- Settles O34: where DF is after either error it searches again. -/
theorem corruptedChecksumsAreRejected : Obligations.CorruptedChecksumsAreRejected := by
  intro s cls id p a b hs hsearch hp hwrong
  by_cases ha : a = (cksum (frameBody cls id p)).a
  · subst ha
    have hb : b ≠ (cksum (frameBody cls id p)).b := fun hb => hwrong (by rw [hb])
    obtain ⟨t, evs, hpush, hdf, hout⟩ := walk_frame_wrongB hsearch hp hb
    have hexec := exec_dfBatch_of_pushAll hpush
    exact ⟨_, hexec, fun _ => ⟨hout, hdf⟩, fun hne => absurd rfl hne, exec_frameBytes_after hexec ⟨_, hdf⟩⟩
  · obtain ⟨t, evs, hpush, hdf, hout⟩ := walk_frame_wrongA (b := b) hsearch hp ha
    have hexec := exec_dfBatch_of_pushAll hpush
    exact ⟨_, hexec, fun heq => absurd heq ha, fun _ => ⟨hout, hdf⟩, exec_frameBytes_after hexec ⟨_, hdf⟩⟩

/-- Settles O35: the sixth byte abandons the frame, and any batch that follows completes. -/
theorem oversizeFramesAreAbandonedAtTheLength : Obligations.OversizeFramesAreAbandonedAtTheLength := by
  intro s cls id lo hi rest hs hsearch hover
  obtain ⟨w, evs, hpush, hout⟩ := walk_oversize (cls := cls) (id := id) hsearch hover
  have hexec := exec_dfBatch_of_pushAll hpush
  obtain ⟨u, evs', hpush', -⟩ := pushAll_complete rest (exec_keeps hexec hs).toDfInv
  have hexec' := exec_dfBatch_of_pushAll hpush'
  exact ⟨_, _, hexec, hout, rfl, fun _ => rfl, hexec', _, exec_dfBatch_append.2 ⟨_, _, hexec, hexec', rfl⟩,
    outcomes_append _ _, rfl⟩

end Sys2Proof.Machine

/-! PROOFS. The encoder statements of `42_encoder.md`: ENC.FRAME and ENC.MSG as operations (R181 to R183), what ENC
refuses (R182, R185, R186), `enc_go` at the ports (R48, R185), and the byte-serial emission (R185). -/

namespace Sys2Proof.Machine

/-! ### The written frame (R181, R183) -/

/-- The checksummed bytes of a frame: class, id, length low byte first, payload (R93, R97). -/
theorem frameBody_eq (cls id : Byte) (p : List Byte) :
    frameBody cls id p = [cls, id, BitVec.ofNat 8 p.length, BitVec.ofNat 8 (p.length / 256)] ++ p := by
  simp [frameBody, counted16, lenField, lenLo_ofNat, lenHi_ofNat]

/-- Settles O42: the answer of ENC.FRAME, with its body written out. -/
theorem encFrameWritesTheWireImage : Obligations.EncFrameWritesTheWireImage := by
  intro s cls id p hidle hp
  have hfree : s.enc.isBusy = false := by rw [hidle]; rfl
  refine ⟨_, wireLen (lenField p), rfl, by rw [wireLen_toNat, lenField_toNat hp], ?_⟩
  rw [← frameBody_eq]
  exact execEncFrame_eq_next.2 ⟨hfree, hp, rfl⟩

/-- Settles O44: the capacity decides between the two answers of ENC.MSG. -/
theorem encMsgWritesOrReportsCapacity : Obligations.EncMsgWritesOrReportsCapacity := by
  intro s t r v cap hidle hrow
  have hfree : s.enc.isBusy = false := by rw [hidle]; rfl
  have hrow : encRow t.toNat s = .next r := encRow_eq_next.2 hrow
  refine ⟨fun hless => execEncMsg_eq_next.2 ⟨hfree, r, hrow, (if_pos hless).symm⟩, fun hroom => ?_⟩
  refine ⟨wireLen r.len, _, wireLen_toNat _, by rw [frameBytes_length, Vector.length_toList], rfl, ?_⟩
  refine execEncMsg_eq_next.2 ⟨hfree, r, hrow, ?_⟩
  rw [if_neg (by omega), writeFrame, lenField, Vector.length_toList, BitVec.ofNat_toNat, BitVec.setWidth_eq]
  rfl

/-! ### What ENC refuses (R182, R185, R186) -/

section Refuses

variable {s t : State}

/-- A cycle with `enc_go` performs one of ENC's two operations (R91). -/
theorem selects_enc_of_go {p : PortsIn} (h : p.cmd &&& 0x10 = 0x10) :
    selects p .encFrame = true ∨ selects p .encMsg = true := by
  have hvector : ∀ c : BitVec 7, c &&& 0x10 = 0x10 → c &&& 0x30 = 0x10 ∨ c &&& 0x30 = 0x30 := by decide
  exact (hvector p.cmd h).imp (selects_iff p .encFrame).2 (selects_iff p .encMsg).2

/-- No frame starts while one is being emitted (R186). -/
theorem encUnit_refused {p : PortsIn} {d : Option Byte} (hbusy : s.enc.isBusy = true) (hgo : p.cmd &&& 0x10 = 0x10) :
    encUnit p d s = .refused .encBusy := by
  rcases selects_enc_of_go hgo with hframe | hmsg
  · rw [encUnit_encFrame hframe, encGoFrame, if_pos hbusy]
  · rw [encUnit_encMsg hmsg, encGoMsg, if_pos hbusy]

/-- A byte that can be read is one of the listed cells. -/
theorem Memory.mem_of_read {m : Memory} {a : Nat} {v : Byte} (h : Memory.read m a = some v) : (a, v) ∈ m := by
  induction m with
  | nil => cases h
  | cons c rest ih =>
    obtain ⟨b, w⟩ := c
    unfold Memory.read at h
    split at h
    · next hb => cases h; subst hb; exact List.mem_cons_self
    · exact List.mem_cons_of_mem _ (ih h)

/-- A step that leaves another byte where a re-encoding has still to read changes its source (R185). -/
theorem sourceChanged_of_read {job : EncJob} {a : Nat} {v : Byte} (hbusy : t.enc = .busy job) (hsrc : job.src = .msgBuf)
    (hunsent : job.unsent ≤ a) (hlen : a < job.len.toNat) (hafter : Memory.read t.buf a = some v)
    (hbefore : Memory.read s.buf a ≠ some v) : sourceChanged s t = true := by
  have hne : Memory.read t.buf a ≠ Memory.read s.buf a := by rw [hafter]; exact hbefore.symm
  simp only [sourceChanged, hbusy, hsrc, Bool.and_eq_true, List.any_eq_true]
  exact ⟨rfl, (a, v), Memory.mem_of_read hafter, decide_eq_true ⟨hunsent, hlen⟩, bne_iff_ne.2 hne⟩

/-- The guard holds back a step that changes the source (R185, U17). -/
theorem guardSource_refused {r : Result State} (hr : r = .next t) (hchanged : sourceChanged s t = true) :
    guardSource s r = .refused .payloadChanged := by
  simp [guardSource, hr, hchanged]

/-- A push stores in MESSAGE where a re-encoding has still to read (R185, R271). -/
theorem step_dfPush_refused {job : EncJob} {rest : List HostInput} {c m b : Byte} {len cnt : Half}
    (hbusy : s.enc = .busy job) (hin : s.inputs = .op .cmd [0x08, b] :: rest) (hs : Inv s) (hsrc : job.src = .msgBuf)
    (hdf : s.df = .message c m len cnt) (hunsent : job.unsent ≤ cnt.toNat) (hlen : cnt.toNat < job.len.toNat)
    (hbefore : Memory.read s.buf cnt.toNat ≠ some b) : step s = .refused .payloadChanged := by
  obtain ⟨u, o, hpush, -⟩ := pushByte_complete b (inv_taken hs rest).toDfInv
  have hexec : exec (.dfPush b) (taken rest s) = .next _ := execDfPush_eq_next.2 ⟨u, o, hpush, rfl⟩
  have hafter : Memory.read u.buf cnt.toNat = some b := by
    rw [pushByte_message_buf (s := taken rest s) hdf hpush, Memory.read_write_same]
  rw [step_of_decode hin (i := .dfPush b) (more := []) rfl]
  exact guardSource_refused hexec
    (sourceChanged_of_read ((exec_enc hexec).trans hbusy) hsrc hunsent hlen hafter hbefore)

end Refuses

/-- Settles O43: a busy ENC turns both operations away, as an operation and in a cycle, and the guard a store into its
source. -/
theorem encRefusesWhatCannotBePresented : Obligations.EncRefusesWhatCannotBePresented := by
  refine ⟨fun s cls id p hidle hp => ?_, fun s job hbusy => ?_⟩
  · have hcounted : ¬counted p = true := by rw [counted_iff]; omega
    have hfree : ¬s.enc.isBusy = true := by rw [hidle]; decide
    show execEncFrame cls id p s = _
    rw [execEncFrame, if_neg hfree, if_neg hcounted]
  · have hisBusy : s.enc.isBusy = true := by rw [hbusy]; rfl
    refine ⟨fun cls id p => if_pos hisBusy, fun t v cap => if_pos hisBusy, fun p rdata hrst hread hgo hck hdf => ?_,
      fun rest c m b len cnt hin hs hsrc hdf hunsent hlen hbefore =>
        step_dfPush_refused hbusy hin hs hsrc hdf hunsent hlen hbefore⟩
    simp [cycle, hrst, strobes_admitted hck hdf, hread, runUnits, encUnit_refused hisBusy hgo]

/-! ### A frame is started at the ports (R48, R185) -/

section Go

variable {s u : State} {p : PortsIn} {rest : List HostInput}

/-- A step on a cycle with no strobe but ENC's is what ENC does in it, and the ports that show it (R45, R91). -/
theorem step_encUnit {rdata : Option Byte} (hin : s.inputs = .cycle p :: rest) (hrst : p.rst = false)
    (hcmd : p.cmd &&& 0x4F = 0) (hread : readPort p (taken rest s) = .next rdata)
    (henc : encUnit p rdata (taken rest s) = .next u) :
    step s = .next (u.setPorts (portsOf p rdata (taken rest s) u.out)) := by
  have hvector : ∀ c : BitVec 7, c &&& 0x4F = 0 →
      c &&& 0x40 = 0 ∧ c &&& 0x03 = 0 ∧ c &&& 0x0C = 0 ∧ c &&& 0x08 = 0 := by decide
  obtain ⟨hdisp, hck, hdf, hpush⟩ := hvector p.cmd hcmd
  have hstrobes : cmdTwoStrobes (strobes p) = false :=
    strobes_admitted (by rw [hck]; decide) (by rw [hdf]; decide)
  rw [((stepRunsTheNextCycle.1 s p rest hin).2 hpush), ← taken_eq]
  exact (cycle_eq_next hrst).2 ⟨hstrobes, rdata, u, u, u, u, hread, henc, dispUnit_none hdisp, ckUnit_none hck,
    dfUnit_none hdf, rfl⟩

variable (hin : s.inputs = .cycle p :: rest) (hidle : s.enc = .idle) (hrst : p.rst = false) (hraddr : p.raddr = none)
include hin hidle hrst hraddr

theorem step_encGoFrame (hcmd : p.cmd = 0x10) :
    ∃ v, step s = .next ((startJob p.encCls p.encId p.encLen p.encSrc (taken rest s)).setPorts v) ∧
      v.encErr = false ∧ v.encValid = false := by
  have hsel : selects p .encFrame = true := (selects_iff p .encFrame).2 (by rw [hcmd]; rfl)
  have hread : readPort p (taken rest s) = .next none := by
    rw [readPort_idle (s := taken rest s) hidle, hraddr]; rfl
  have hfree : (taken rest s).enc.isBusy = false := by rw [taken_enc, hidle]; rfl
  refine ⟨_, step_encUnit hin hrst (by rw [hcmd]; rfl) hread ?_, rfl, rfl⟩
  rw [encUnit_encFrame hsel]
  exact encGoFrame_eq_next.2 ⟨hfree, rfl⟩

theorem step_encGoMsg (hcmd : p.cmd = 0x30) {r : TypeRow} (hwidth : p.encType.width = typeWidth s.cfg)
    (hrow : s.cfg.registry[p.encType.bits.toNat]? = some r) :
    (p.encCap.toNat < r.len.toNat + 8 → ∃ v, step s = .next (((taken rest s).setOutEnc .errCapacity).setPorts v) ∧
      v.encErr = true ∧ v.encValid = false) ∧
    (r.len.toNat + 8 ≤ p.encCap.toNat →
      ∃ v, step s = .next ((startJob r.cls r.id r.len p.encSrc (taken rest s)).setPorts v) ∧
        v.encErr = false ∧ v.encValid = false) := by
  have hsel : selects p .encMsg = true := (selects_iff p .encMsg).2 (by rw [hcmd]; rfl)
  have hread : readPort p (taken rest s) = .next none := by
    rw [readPort_idle (s := taken rest s) hidle, hraddr]; rfl
  have hfree : (taken rest s).enc.isBusy = false := by rw [taken_enc, hidle]; rfl
  have hportRow : portRow p.encType (taken rest s) = .next r := portRow_eq_next.2 ⟨hwidth, hrow⟩
  refine ⟨fun hless => ⟨_, step_encUnit hin hrst (by rw [hcmd]; rfl) hread ?_, rfl, rfl⟩,
    fun hroom => ⟨_, step_encUnit hin hrst (by rw [hcmd]; rfl) hread ?_, rfl, rfl⟩⟩
  · rw [encUnit_encMsg hsel]
    exact encGoMsg_eq_next.2 ⟨hfree, r, hportRow, (if_pos hless).symm⟩
  · rw [encUnit_encMsg hsel]
    exact encGoMsg_eq_next.2 ⟨hfree, r, hportRow, (if_neg (by omega)).symm⟩

end Go

/-- Settles O47: what the two operations leave when they are asked for in a cycle. -/
theorem encGoLatchesTheOperands : Obligations.EncGoLatchesTheOperands := by
  intro s p rest hin hidle hrst hraddr
  refine ⟨fun hcmd => ?_, fun hcmd hwidth r hrow => ?_⟩
  · obtain ⟨v, hstep, hports⟩ := step_encGoFrame hin hidle hrst hraddr hcmd
    obtain ⟨-, hck, hdf, hckDf, hbuf, -⟩ := startJob_frame p.encCls p.encId p.encLen p.encSrc (taken rest s)
    exact ⟨_, hstep, rfl, rfl, hdf, hckDf, hbuf, hck, hports⟩
  · obtain ⟨hless, hroom⟩ := step_encGoMsg hin hidle hrst hraddr hcmd hwidth hrow
    refine ⟨fun hcap => ?_, fun hcap => ?_⟩
    · obtain ⟨v, hstep, hports⟩ := hless hcap
      exact ⟨_, hstep, by simpa using ⟨hidle, hports⟩⟩
    · obtain ⟨v, hstep, hports⟩ := hroom hcap
      obtain ⟨-, hck, hdf, hckDf, hbuf, -⟩ := startJob_frame r.cls r.id r.len p.encSrc (taken rest s)
      exact ⟨_, hstep, rfl, rfl, hdf, hckDf, hbuf, hck, hports⟩

/-! ### The byte-serial emission (R185) -/

/-- A cycle in which the host only lets the emission go on: no `rst`, no strobe, no read. -/
def PortsIn.Quiet (c : PortsIn) : Prop := c.rst = false ∧ c.cmd = 0 ∧ c.raddr = none

/-- A frame is being emitted, with `ck` in CK_ENC and `m` in `MSG_BUF`, and the next cycles are `cs`: requests of the
host, or the steps of a block with no request waiting. -/
structure Emitting (m : Memory) (s : State) (cs : List PortsIn) (job : EncJob) (ck : Ck) : Prop where
  enc : s.enc = .busy job
  encCk : s.encCk = ck
  buf : s.buf = m
  quiet : ∀ c ∈ cs, c.Quiet
  inputs : s.inputs = cs.map HostInput.cycle ∨ (s.inputs = [] ∧ ∀ c ∈ cs, c = PortsIn.idle)

/-- The cycles `cs` report `outs` on ENC, after which ENC is idle, CK_ENC cleared, and DF, `MSG_BUF` and CK as
before. -/
def Emits (s : State) (cs : List PortsIn) (outs : List EncOut) : Prop :=
  ∃ t, encRun cs.length s = .next (t, outs) ∧ t.enc = .idle ∧ t.encCk = Ck.zero ∧ t.df = s.df ∧ t.buf = s.buf ∧
    t.ck = s.ck

/-- The cycles `cs` have the payload bytes `xs`, from index `n` on, ready: one on `enc_pdata` in each, or all in
`MSG_BUF`. -/
def Supplied (m : Memory) (src : PayloadSrc) (n : Nat) (xs : List Byte) (cs : List PortsIn) : Prop :=
  (src = .port ∧ ∀ (i : Nat) (v : Byte), xs[i]? = some v → ∃ c, cs[i]? = some c ∧ c.encPdata = some v) ∨
    (src = .msgBuf ∧ ∀ (i : Nat) (v : Byte), xs[i]? = some v → Memory.read m (n + i) = some v)

/-- What ENC reports for the last two bytes of a frame. -/
def checksumOuts (len : Half) (ck : Ck) : List EncOut := [.emitted ck.a none, .emitted ck.b (some (wireLen len))]

/-- What ENC reports for a payload and the two bytes after it. -/
def payloadOuts (len : Half) (ck : Ck) (xs : List Byte) : List EncOut :=
  xs.map (fun b => EncOut.emitted b none) ++ checksumOuts len (ck.pushAll xs)

section Emission

variable {m : Memory} {s : State} {c : PortsIn} {cs : List PortsIn} {job : EncJob} {phase next : EncPhase} {ck ck' : Ck}
  {byte x : Byte} {xs : List Byte} {rdata : Option Byte} {outs : List EncOut}

theorem Supplied.tail {src : PayloadSrc} {n : Nat} (h : Supplied m src n (x :: xs) (c :: cs)) :
    Supplied m src (n + 1) xs cs := by
  rcases h with ⟨hsrc, h⟩ | ⟨hsrc, h⟩
  · exact .inl ⟨hsrc, fun i v hv => h (i + 1) v hv⟩
  · exact .inr ⟨hsrc, fun i v hv => by rw [Nat.add_right_comm]; exact h (i + 1) v hv⟩

/-- A run of the encoder from its first step on. -/
theorem encRun_cons {t u : State} {k : Nat} (hstep : step s = .next t) (hrun : encRun k t = .next (u, outs)) :
    encRun (k + 1) s = .next (u, t.out.enc :: outs) := by
  rw [encRun, hstep, andThen_next, hrun]
  rfl

theorem encTick_busy {d : Option Byte} (h : s.enc = .busy job) : encTick d s = tickJob d job s := by
  rw [encTick, h]

/-- One step of an emission is one output step `f` of ENC, in the state with the request taken, and the ports that show
it. -/
theorem Emitting.step_next {f : State → State} (h : Emitting m s (c :: cs) job ck) (hread : readPort c s = .next rdata)
    (htick : ∀ s', s'.encCk = ck → tickJob ((EncState.busy job).pdata c.encPdata rdata) job s' = .next (f s')) :
    ∃ rest v, (rest = cs.map HostInput.cycle ∨ (rest = [] ∧ ∀ c ∈ cs, c = PortsIn.idle)) ∧
      step s = .next ((f (taken rest s)).setPorts v) ∧ encFrame (taken rest s) (f (taken rest s)) := by
  obtain ⟨hrst, hcmd, -⟩ := h.quiet c List.mem_cons_self
  have htaken (rest : List HostInput) := htick (taken rest s) h.encCk
  have hcycle : ∀ rest, ∃ v, cycle c (taken rest s) = .next ((f (taken rest s)).setPorts v) := fun rest => by
    have hread : readPort c (taken rest s) = .next rdata := hread
    exact ⟨_, by rw [cycle_quiet hrst hcmd, hread, andThen_next, encTick_busy (s := taken rest s) h.enc,
      taken_enc, h.enc, htaken, andThen_next]⟩
  rcases h.inputs with hin | ⟨hin, hidle⟩
  · obtain ⟨v, hv⟩ := hcycle (cs.map HostInput.cycle)
    refine ⟨_, v, .inl rfl, ?_, tickJob_frame (htaken _)⟩
    rw [(stepRunsTheNextCycle.1 s c _ hin).2 (by rw [hcmd]; decide), ← taken_eq, hv]
  · obtain ⟨hc, hcs⟩ := List.forall_mem_cons.1 hidle
    obtain ⟨v, hv⟩ := hcycle []
    exact ⟨_, v, .inr ⟨rfl, hcs⟩, by rw [step_nil hin, ← hc, hv], tickJob_frame (htaken _)⟩

/-- A step that emits a byte and goes to another phase: what the cycles after it emit follows. -/
theorem Emitting.emits_cons (h : Emitting m s (c :: cs) { job with phase := phase } ck)
    (hread : readPort c s = .next rdata)
    (htick : ∀ s', s'.encCk = ck →
      tickJob ((EncState.busy { job with phase := phase }).pdata c.encPdata rdata) { job with phase := phase } s' =
        .next (emit byte { job with phase := phase } next (s'.setEncCk ck')))
    (hrest : ∀ t, Emitting m t cs { job with phase := next } ck' → Emits t cs outs) :
    Emits s (c :: cs) (.emitted byte none :: outs) := by
  obtain ⟨rest, v, hin, hstep, -, hck, hdf, -, hbuf, -⟩ := h.step_next hread htick
  generalize ht : (emit byte _ next ((taken rest s).setEncCk ck')).setPorts v = t at hstep
  have hout : t.out.enc = .emitted byte none := by rw [← ht]; rfl
  replace hck : t.ck = s.ck := by rw [← ht]; exact hck
  replace hdf : t.df = s.df := by rw [← ht]; exact hdf
  replace hbuf : t.buf = s.buf := by rw [← ht]; exact hbuf
  have hemitting : Emitting m t cs { job with phase := next } ck' :=
    ⟨by rw [← ht]; rfl, by rw [← ht]; rfl, hbuf.trans h.buf, fun c hc => h.quiet c (List.mem_cons_of_mem _ hc),
      by rw [← ht]; exact hin⟩
  obtain ⟨u, hrun, henc, hencCk, kdf, kbuf, kck⟩ := hrest t hemitting
  exact ⟨u, hout ▸ encRun_cons hstep hrun, henc, hencCk, kdf.trans hdf, kbuf.trans hbuf, kck.trans hck⟩

/-- ENC reads `MSG_BUF` in the payload phase only, so in the others the read port stays unused (R49, R60). -/
theorem Emitting.readPort_none (h : Emitting m s (c :: cs) job ck) (hphase : ∀ idx, job.phase ≠ .payload idx) :
    readPort c s = .next none := by
  obtain ⟨-, -, hraddr⟩ := h.quiet c List.mem_cons_self
  have hfetch : s.enc.fetches = none := by
    rw [h.enc]
    unfold EncState.fetches
    split
    · next heq => cases heq; exact absurd rfl (hphase _)
    · rfl
  rw [readPort, portIndex_host hfetch, hraddr]
  rfl

/-- A phase whose byte goes past the checksum (R185, phases 0 and 1). -/
theorem Emitting.emits_plain (h : Emitting m s (c :: cs) { job with phase := phase } ck)
    (hphase : ∀ idx, phase ≠ .payload idx)
    (htick : ∀ s' d, tickJob d { job with phase := phase } s' = .next (emit byte { job with phase := phase } next s'))
    (hrest : ∀ t, Emitting m t cs { job with phase := next } ck → Emits t cs outs) :
    Emits s (c :: cs) (.emitted byte none :: outs) :=
  h.emits_cons (h.readPort_none hphase) (fun s' hs => by rw [← hs]; exact htick s' _) hrest

/-- A phase whose byte is checksummed and no payload byte (R185, phases 2 to 5). -/
theorem Emitting.emits_pushed (h : Emitting m s (c :: cs) { job with phase := phase } ck)
    (hphase : ∀ idx, phase ≠ .payload idx)
    (htick : ∀ s' d, tickJob d { job with phase := phase } s' =
      .next (emitPush byte { job with phase := phase } next s'))
    (hrest : ∀ t, Emitting m t cs { job with phase := next } (ck.push byte) → Emits t cs outs) :
    Emits s (c :: cs) (.emitted byte none :: outs) :=
  h.emits_cons (h.readPort_none hphase) (fun s' hs => by rw [← hs]; exact htick s' _) hrest

/-- The last byte, with `enc_last` and `enc_n` (R185, phase 8). -/
theorem Emitting.emits_ckB {b : Byte} (h : Emitting m s [c] { job with phase := .ckB b } ck) :
    Emits s [c] [.emitted b (some (wireLen job.len))] := by
  obtain ⟨rest, v, -, hstep, -, hck, hdf, -, hbuf, -⟩ := h.step_next (h.readPort_none nofun) fun _ _ => rfl
  exact ⟨_, encRun_cons hstep rfl, rfl, rfl, hdf, hbuf, hck⟩

/-- The checksum bytes (R185, phases 7 and 8). -/
theorem Emitting.emits_ckA {c' : PortsIn} (h : Emitting m s [c, c'] { job with phase := .ckA } ck) :
    Emits s [c, c'] (checksumOuts job.len ck) :=
  h.emits_cons (h.readPort_none nofun) (fun _ hs => by rw [← hs]; rfl) fun _ ht => ht.emits_ckB

/-- The payload input holds the byte supplied for this cycle (R48, R49). -/
theorem Emitting.readPort_payload {idx : Half} (h : Emitting m s (c :: cs) { job with phase := .payload idx } ck)
    (hx : Supplied m job.src idx.toNat (x :: xs) (c :: cs)) :
    ∃ rdata, readPort c s = .next rdata ∧
      (EncState.busy { job with phase := .payload idx }).pdata c.encPdata rdata = some x := by
  obtain ⟨-, -, hraddr⟩ := h.quiet c List.mem_cons_self
  obtain ⟨cls, id, len, src, phase⟩ := job
  rcases hx with ⟨rfl, hx⟩ | ⟨rfl, hx⟩
  · obtain ⟨c', hc, hv⟩ := hx 0 x rfl
    cases hc
    have hfetch : s.enc.fetches = none := by rw [h.enc]; rfl
    exact ⟨none, by rw [readPort, portIndex_host hfetch, hraddr]; rfl, hv⟩
  · have hread : Memory.read s.buf idx.toNat = some x := by rw [h.buf]; exact hx 0 x rfl
    have hfetch : s.enc.fetches = some idx := by rw [h.enc]; rfl
    exact ⟨some x, by rw [readPort, portIndex_fetch hfetch (.inl hraddr), andThen_next, readAt_some, hread], rfl⟩

/-- A payload byte (R185, phase 6). -/
theorem Emitting.emits_payloadByte {idx : Half} (h : Emitting m s (c :: cs) { job with phase := .payload idx } ck)
    (hx : Supplied m job.src idx.toNat (x :: xs) (c :: cs))
    (hrest : ∀ t, Emitting m t cs { job with phase := afterPayload idx job.len } (ck.push x) → Emits t cs outs) :
    Emits s (c :: cs) (.emitted x none :: outs) := by
  obtain ⟨rdata, hread, hpdata⟩ := h.readPort_payload hx
  exact h.emits_cons hread (fun _ hs => by rw [hpdata, ← hs]; rfl) hrest

/-- The payload from index `idx` on, and the checksum bytes (R185, phases 6 to 8). -/
theorem Emitting.emits_payload {idx : Half} (h : Emitting m s cs { job with phase := .payload idx } ck)
    (hlen : idx.toNat + (xs.length + 1) = job.len.toNat) (hcs : cs.length = xs.length + 3)
    (hx : Supplied m job.src idx.toNat (x :: xs) cs) : Emits s cs (payloadOuts job.len ck (x :: xs)) := by
  induction xs generalizing s cs idx x ck with
  | nil =>
    obtain ⟨c, c', c'', rfl⟩ := List.length_eq_three.1 hcs
    have hlast : afterPayload idx job.len = .ckA := if_neg (by rw [← hlen]; exact lt_irrefl _)
    exact h.emits_payloadByte hx fun t ht => (hlast ▸ ht).emits_ckA
  | cons y ys ih =>
    rw [List.length_cons] at hlen hcs
    obtain ⟨c, cs, rfl⟩ := List.exists_cons_of_length_pos (show 0 < cs.length by omega)
    have hnext : afterPayload idx job.len = .payload (idx + 1#16) := if_pos (by omega)
    have hidx : (idx + 1#16).toNat = idx.toNat + 1 := cnt_succ_toNat (len := job.len) (by omega)
    refine h.emits_payloadByte hx fun t ht => ih (hnext ▸ ht) (by omega) (Nat.succ.inj hcs) ?_
    rw [hidx]
    exact hx.tail

/-- What follows the length: the payload if there is one, and the checksum bytes (R185, phases 6 to 8). -/
theorem Emitting.emits_afterLen (h : Emitting m s cs { job with phase := afterLen job.len } ck)
    (hlen : xs.length = job.len.toNat) (hcs : cs.length = xs.length + 2) (hx : Supplied m job.src 0 xs cs) :
    Emits s cs (payloadOuts job.len ck xs) := by
  unfold afterLen at h
  cases xs with
  | nil =>
    obtain ⟨c, c', rfl⟩ := List.length_eq_two.1 hcs
    rw [if_pos (half_eq_zero_iff.2 hlen.symm)] at h
    exact h.emits_ckA
  | cons x xs =>
    rw [if_neg fun hzero => by rw [half_eq_zero_iff.1 hzero] at hlen; cases hlen] at h
    exact h.emits_payload (by simpa using hlen) hcs hx

/-- What ENC reports for a whole frame, part by part (R185). -/
def frameOuts (job : EncJob) (xs : List Byte) : List EncOut :=
  [sync1, sync2, job.cls, job.id, lenLo job.len, lenHi job.len].map (fun b => EncOut.emitted b none) ++
    payloadOuts job.len (cksum [job.cls, job.id, lenLo job.len, lenHi job.len]) xs

/-- The header in six cycles, and what follows it (R185). -/
theorem Emitting.emits_frame {c0 c1 c2 c3 c4 c5 : PortsIn}
    (h : Emitting m s (c0 :: c1 :: c2 :: c3 :: c4 :: c5 :: cs) { job with phase := .sync1 } Ck.zero)
    (hlen : xs.length = job.len.toNat) (hcs : cs.length = xs.length + 2) (hx : Supplied m job.src 0 xs cs) :
    Emits s (c0 :: c1 :: c2 :: c3 :: c4 :: c5 :: cs) (frameOuts job xs) :=
  h.emits_plain nofun (fun _ _ => rfl) fun _ h =>
  h.emits_plain nofun (fun _ _ => rfl) fun _ h =>
  h.emits_pushed nofun (fun _ _ => rfl) fun _ h =>
  h.emits_pushed nofun (fun _ _ => rfl) fun _ h =>
  h.emits_pushed nofun (fun _ _ => rfl) fun _ h =>
  h.emits_pushed nofun (fun _ _ => rfl) fun _ h =>
  h.emits_afterLen hlen hcs hx

end Emission

/-- The number of bytes of a frame, in 17 bits (R128 (e)). -/
theorem wireLen_lenField {p : List Byte} (hp : p.length ≤ 65535) :
    wireLen (lenField p) = BitVec.ofNat 17 (p.length + 8) := by
  apply BitVec.eq_of_toNat_eq
  rw [wireLen_toNat, lenField_toNat hp, BitVec.toNat_ofNat]
  omega

/-- The parts of an emission are the bytes of the frame in order, the last one marked (R185). -/
theorem frameOuts_eq_emission {job : EncJob} {p : List Byte} (hp : p.length ≤ 65535) (hlen : job.len = lenField p) :
    frameOuts job p = emission (frameBytes job.cls job.id p) := by
  have hbytes : frameBytes job.cls job.id p = (sync1 :: sync2 :: frameBody job.cls job.id p ++
      [(cksum (frameBody job.cls job.id p)).a]) ++ [(cksum (frameBody job.cls job.id p)).b] := by
    simp [frameBytes, wireBytes]
  have hck :
      (cksum [job.cls, job.id, lenLo job.len, lenHi job.len]).pushAll p = cksum (frameBody job.cls job.id p) := by
    rw [hlen]
    rfl
  rw [emission, frameBytes_length, ← wireLen_lenField hp, hbytes, List.dropLast_concat, List.getLast?_concat, frameOuts,
    payloadOuts, hck, checksumOuts, hlen]
  simp [frameBody, counted16]

/-- Settles O46: the emission has six cycles for the header, one for each payload byte and two for the checksum. -/
theorem byteSerialEmissionIsTheFrame : Obligations.ByteSerialEmissionIsTheFrame := by
  intro s cls id p src cs hp hcs hquiet hin hsupply henc hencCk
  match cs, hcs with
  | c0 :: c1 :: c2 :: c3 :: c4 :: c5 :: cs, hcs =>
    have hx : Supplied s.buf src 0 p cs := by
      refine hsupply.imp (fun ⟨hsrc, h⟩ => ⟨hsrc, fun i v hv => ?_⟩) fun ⟨hsrc, h⟩ => ⟨hsrc, fun i v hv => ?_⟩
      · simpa [Nat.add_comm 6 i] using h i v hv
      · rw [(Memory.readFrom_get h).2 i (List.getElem?_eq_some_iff.1 hv).1, hv]
    have hemitting : Emitting s.buf s (c0 :: c1 :: c2 :: c3 :: c4 :: c5 :: cs)
        { cls := cls, id := id, len := lenField p, src := src, phase := .sync1 } Ck.zero :=
      ⟨henc, hencCk, rfl, hquiet, hin⟩
    have hemits := hemitting.emits_frame (job := ⟨cls, id, lenField p, src, .sync1⟩) (lenField_toNat hp).symm
      (by simpa using hcs) hx
    rw [frameOuts_eq_emission hp rfl, Emits, hcs] at hemits
    exact hemits

end Sys2Proof.Machine

/-! PROOFS. The dispatcher statement of `43_dispatcher.md`: what DISP.DISPATCH reports (R201 to R205). -/

namespace Sys2Proof.Machine

/-! ### What a dispatch reports (R201, R203 to R205) -/

section DispatchOutcome

variable {cfg : Config} {cls mid : Byte} {c n t : Nat} {r : TypeRow} {msg : List Byte}
  {dec : Nat → Option DecodedValue} {d : DecodedValue}

/-- With no type selected the decoders are not asked (R205). -/
theorem dispatchOutcome_unrecognized (h : selectType cfg cls mid n = none) :
    dispatchOutcome cfg cls mid n dec = .unrecognized := by rw [dispatchOutcome, h]

theorem dispatchOutcome_decoded (h : selectType cfg cls mid n = some (c, t)) (hdec : dec t = some d) :
    dispatchOutcome cfg cls mid n dec = .decoded c t d := by simp only [dispatchOutcome, h, hdec]

theorem dispatchOutcome_decodeFailed (h : selectType cfg cls mid n = some (c, t)) (hdec : dec t = none) :
    dispatchOutcome cfg cls mid n dec = .decodeFailed c t := by simp only [dispatchOutcome, h, hdec]

/-- The decoder of a type is the codec its row names (R206). -/
theorem registryDecode_of_row (ht : cfg.registry[t]? = some r) :
    registryDecode cfg msg t = (Config.decodeValue r.codec msg).map .value := by rw [registryDecode, ht]

end DispatchOutcome

/-- The operation on a state, as a whole: only DISP's report is written (R200). -/
theorem exec_dispDispatch (cls mid : Byte) (msg : List Byte) (s : State) :
    exec (.dispDispatch cls mid msg) s =
      .next { s with out := { s.out with
        dp := dispatchOutcome s.cfg cls mid msg.length (registryDecode s.cfg msg) } } := rfl

/-- Settles O48: a registered triple is selected, and its codec decides between the two outcomes; any other triple
selects nothing. -/
theorem dispatchSelectsTheExactTriple : Obligations.DispatchSelectsTheExactTriple := by
  intro s cls mid msg
  constructor
  · rintro t r ht rfl rfl hlen
    obtain ⟨c, hcat, hsel⟩ := selectType_self ht
    rw [hlen] at hsel
    have hdec := registryDecode_of_row (msg := msg) ht
    refine ⟨c, hcat, ?_⟩
    rw [exec_dispDispatch]
    cases hv : Config.decodeValue r.codec msg with
    | some v =>
      rw [hv] at hdec
      exact .inl ⟨v, rfl, by rw [dispatchOutcome_decoded hsel hdec]⟩
    | none =>
      rw [hv] at hdec
      exact .inr ⟨rfl, by rw [dispatchOutcome_decodeFailed hsel hdec]⟩
  · intro hnone
    rw [exec_dispDispatch, dispatchOutcome_unrecognized (selectType_eq_none hnone)]

end Sys2Proof.Machine

/-! PROOFS. The exception statements of `60_exceptions.md`: the cycle in which nothing happens (R244, R51), and the cycle
with `rst` (R229, R260). -/

namespace Sys2Proof.Machine

variable {s : State} {p : PortsIn} {rest : List HostInput}

/-- With ENC idle a cycle with no strobe writes the ports alone; they show what was reported before it (R91, R244). -/
theorem cycle_idle (hidle : s.enc = .idle) :
    cycle PortsIn.idle s = .next (s.setPorts (portsOf PortsIn.idle none s s.out)) := by
  have hread : readPort PortsIn.idle s = .next none := readPort_idle hidle
  rw [cycle_quiet rfl rfl, hread, andThen_next, encTick, hidle, andThen_next]

/-- The cycle after an idle state in which nothing is reported: the outputs of R51. -/
theorem cycle_idle_shows_nothing (hidle : s.enc = .idle) (hout : s.out = Out.idle) :
    ∃ u, cycle PortsIn.idle s = .next u ∧ u = { s with ports := u.ports } ∧ u.ports.dfKind = 0 ∧
      u.ports.encValid = false ∧ u.ports.encErr = false ∧ u.ports.encBusy = false ∧ u.ports.dpKind = 0 ∧
      u.ports.dpHit = false := by
  refine ⟨_, cycle_idle hidle, rfl, ?_⟩
  rw [hout]
  exact ⟨rfl, rfl, rfl, congrArg EncState.isBusy hidle, rfl, rfl⟩

/-- Settles O7: the step is the cycle with no strobe, in the state with nothing reported. -/
theorem idleStepKeepsAllState : Obligations.IdleStepKeepsAllState := by
  intro s hin hidle
  obtain ⟨t, hcycle, hkept, hports⟩ := cycle_idle_shows_nothing (s := taken [] s) hidle rfl
  refine ⟨t, (step_nil hin).trans hcycle, hkept.trans ?_, hports⟩
  rw [taken_eq, ← hin]

/-- A step on a cycle with `rst` is that cycle: ENC is idle after it, so no re-encoding loses its source (R185, R229). -/
theorem step_rst (hin : s.inputs = .cycle p :: rest) (hrst : p.rst = true) : step s = cycle p (taken rest s) := by
  refine (step_cycle hin).trans (guardSource_eq_self fun t ht => ?_)
  obtain ⟨rdata, -, rfl⟩ := (cycle_rst_eq_next hrst).1 ht
  exact sourceChanged_idle rfl

/-- The read of a cycle with `rst` faults where the index has no specified value, and so does the cycle (R63). -/
theorem cycle_rst_read_unspecified {k : Half} (hrst : p.rst = true) (hraddr : p.raddr = some k)
    (hnone : Memory.read s.buf k.toNat = none) : cycle p s = .fault .bufUnspecified := by
  rw [cycle, if_pos hrst, hraddr, readAt_some, hnone]
  rfl

/-- A read on `df_raddr` of no index, or of one with a value, is served with the contents before the edge (R63, R80). -/
theorem readAt_eq_next {raddr : Option Half}
    (h : ∀ k, raddr = some k → (Memory.read s.buf k.toNat).isSome = true) :
    ∃ rdata, readAt raddr s = .next rdata ∧ ∀ k, raddr = some k → rdata = Memory.read s.buf k.toNat := by
  cases raddr with
  | none => exact ⟨none, rfl, nofun⟩
  | some k =>
    obtain ⟨v, hv⟩ := Option.isSome_iff_exists.1 (h k rfl)
    refine ⟨some v, by rw [readAt_some, hv], ?_⟩
    rintro _ ⟨⟩
    exact hv.symm

/-- Settles O10: the read decides whether the cycle completes; the state after it is the reset state, in which a cycle
with no strobe shows nothing. -/
theorem rstOverridesEveryStrobe : Obligations.RstOverridesEveryStrobe := by
  intro s p rest hin hrst
  rw [step_rst hin hrst]
  refine ⟨fun k hraddr hnone => cycle_rst_read_unspecified hrst hraddr hnone, fun hvalue => ?_⟩
  obtain ⟨rdata, hread, hrdata⟩ := readAt_eq_next (s := taken rest s) hvalue
  refine ⟨_, (cycle_rst_eq_next hrst).2 ⟨rdata, hread, rfl⟩, rfl, rfl, rfl, rfl, rfl, rfl, rfl, rfl, fun _ => rfl,
    rfl, rfl, rfl, rfl, rfl, rfl, rfl, rfl, rfl, rfl, hrdata, ?_⟩
  exact cycle_idle_shows_nothing rfl rfl

end Sys2Proof.Machine

/-! PROOFS. The window statement of `70_reset_and_hazards.md`: how many pushes an Envelope stays readable (R267, R37). -/

namespace Sys2Proof.Machine

/-! ### How many bytes lead to a state (R151, R267) -/

/-- How many bytes have to be taken from the initial SYNC state to be here, at least, with the stored payload bytes. -/
def DfState.received : DfState → Nat
  | .message _ _ _ cnt => 6 + cnt.toNat
  | d => d.depth

/-- A move goes at most one byte further. -/
theorem DfMove.received_le {cfg : Config} {b : Byte} {d d' : DfState} {o : DfOutcome} (h : DfMove cfg b d d' o) :
    d'.received ≤ d.received + 1 := by
  obtain ⟨-, hdepth⟩ := h.depth_le
  cases h with
  | payload => simp [DfState.received, DfState.depth]
  | store =>
    simp only [DfState.received, BitVec.toNat_add, BitVec.toNat_ofNat]
    omega
  | lastByte =>
    simp only [DfState.received, DfState.depth]
    omega
  | _ => exact hdepth

section Window

variable {s t : State} {b : Byte} {o : DfOutcome} {xs : List Byte} {evs : List DfEvent} {i : Nat} {v : Byte}

/-- The state of MESSAGE that stores at an index comes after the header and the bytes before that index (R148). -/
theorem received_of_message {c m : Byte} {len cnt : Half} (hdf : s.df = .message c m len cnt) :
    s.df.received = 6 + cnt.toNat := by rw [hdf, DfState.received]

/-! ### What one push overwrites, and after how many bytes at the earliest (R37, R143 to R148) -/

/-- The class is overwritten by the third byte of a frame at the earliest, the id by the fourth, the length by the fifth
(R37, R143 to R145). -/
theorem pushByte_registers (h : pushByte b s = .next (t, o)) :
    (s.df.received < 2 → regCls t = regCls s) ∧ (s.df.received < 3 → regMid t = regMid s) ∧
      (s.df.received < 4 → regLen t = regLen s) := by
  cases e : s.df with
  | sync sr =>
    rw [pushByte_sync e, stepSync] at h
    split at h <;> cases h <;> simp [regCls, regMid, regLen, e]
  | cls => rw [pushByte_cls e] at h; cases h; simp [regMid, regLen, e, DfState.received, DfState.depth]
  | id c => rw [pushByte_id e] at h; cases h; simp [pushCkDf, regLen, e, DfState.received, DfState.depth]
  | message c m len cnt => simp only [DfState.received]; omega
  | _ => simp [DfState.received, DfState.depth]

/-- `MSG_BUF` stays as it is, takes the byte in MESSAGE, or loses what it holds, by the sixth byte of a frame at the
earliest and under `REPORT` with an outcome (R147 to R150, R162). -/
theorem pushByte_buf (h : pushByte b s = .next (t, o)) :
    t.buf = s.buf ∨
      (∃ c m len cnt, s.df = .message c m len cnt ∧ t.buf = Memory.write s.buf cnt.toNat b) ∨
      (5 ≤ s.df.received ∧ (s.cfg.policy = .report → o ≠ .noOutput)) := by
  cases e : s.df with
  | sync sr =>
    rw [pushByte_sync e, stepSync] at h
    split at h <;> cases h <;> exact .inl rfl
  | cls => rw [pushByte_cls e] at h; cases h; exact .inl rfl
  | id c => rw [pushByte_id e] at h; cases h; exact .inl rfl
  | lenLsb c m => rw [pushByte_lenLsb e] at h; cases h; exact .inl rfl
  | lenMsb c m lo =>
    rw [pushByte_lenMsb e, stepLenMsb] at h
    split at h
    · cases h
      refine .inr (.inr ⟨le_rfl, fun hreport => ?_⟩)
      rw [oversizeOutcome_eq, if_pos hreport]
      nofun
    · split at h <;> cases h <;> exact .inl rfl
  | message c m len cnt => exact .inr (.inl ⟨c, m, len, cnt, rfl, pushByte_message_buf e h⟩)
  | cka c m len ea eb =>
    rw [pushByte_cka e, stepCka] at h
    split at h
    · cases h; exact .inl rfl
    · cases h; exact .inr (.inr ⟨Nat.le_succ 5, nofun⟩)
  | ckb c m len ea eb =>
    rw [pushByte_ckb e] at h
    rcases stepCkb_eq_next.1 h with ⟨-, msg, -, -, rfl⟩ | ⟨-, -, rfl⟩ <;>
      exact .inr (.inr ⟨Nat.le_add_right 5 2, nofun⟩)

/-- Before the sixth byte of a frame nothing is stored and nothing lost. -/
theorem pushByte_buf_early (h : pushByte b s = .next (t, o)) (hearly : s.df.received < 5) : t.buf = s.buf := by
  rcases pushByte_buf h with hbuf | ⟨c, m, len, cnt, hdf, -⟩ | ⟨hlate, -⟩
  · exact hbuf
  · rw [received_of_message hdf] at hearly
    omega
  · omega

/-- A byte `i` of `MSG_BUF` is overwritten after `6 + i` bytes of a frame at the earliest; until then what is read there
was there before. -/
theorem pushByte_read_early (h : pushByte b s = .next (t, o)) (hearly : s.df.received < 6 + i)
    (hv : Memory.read t.buf i = some v) : Memory.read s.buf i = some v := by
  rcases pushByte_read h hv with hs | ⟨c, m, len, cnt, hdf, rfl, -⟩
  · exact hs
  · rw [received_of_message hdf] at hearly
    omega

/-- Under `REPORT` a push that reports nothing takes no byte out of `MSG_BUF`, and overwrites byte `i` after `6 + i` bytes
of a frame at the earliest. -/
theorem pushByte_keeps_read (h : pushByte b s = .next (t, .noOutput)) (hreport : s.cfg.policy = .report)
    (hearly : s.df.received < 6 + i) : Memory.read t.buf i = Memory.read s.buf i := by
  rcases pushByte_buf h with hbuf | ⟨c, m, len, cnt, hdf, hbuf⟩ | ⟨-, hout⟩
  · rw [hbuf]
  · rw [received_of_message hdf] at hearly
    rw [hbuf, Memory.read_write_other _ _ (by omega)]
  · exact absurd rfl (hout hreport)

/-! ### The windows over a byte sequence (R267) -/

/-- What every push keeps until `n` bytes of a frame are taken, given what it reports, a sequence keeps that goes no
further. -/
theorem pushAll_keeps_until {P : State → Prop} {Q : DfOutcome → Prop} {n : Nat}
    (hstep : ∀ {s t : State} {b : Byte} {o : DfOutcome}, pushByte b s = .next (t, o) → s.df.received < n → Q o → P s → P t)
    (h : pushAll xs s = .next (t, evs)) (hn : s.df.received + xs.length ≤ n) (hout : ∀ o ∈ outcomes evs, Q o)
    (hs : P s) : P t := by
  induction xs generalizing s evs with
  | nil => cases h; exact hs
  | cons x xs ih =>
    obtain ⟨u, o, rest, hx, hxs, rfl⟩ := pushAll_cons_eq_next.1 h
    rw [outcomes_cons, List.forall_mem_cons] at hout
    obtain ⟨ho, hrest⟩ := hout
    have hreceived := (pushByte_move hx).received_le
    rw [List.length_cons] at hn
    exact ih hxs (by omega) hrest (hstep hx (by omega) ho hs)

/-- What every push keeps until `n` bytes of a frame are taken, whatever it reports. -/
theorem pushAll_eq_until {α : Type} {f : State → α} {n : Nat}
    (hstep : ∀ {s t : State} {b : Byte} {o : DfOutcome}, pushByte b s = .next (t, o) → s.df.received < n → f t = f s)
    (h : pushAll xs s = .next (t, evs)) (hn : s.df.received + xs.length ≤ n) : f t = f s :=
  pushAll_keeps_until (P := fun w => f w = f s) (Q := fun _ => True)
    (fun hpush hreceived _ hw => (hstep hpush hreceived).trans hw) h hn (fun _ _ => trivial) rfl

/-- Inside its window a byte of `MSG_BUF` reads as before, or not at all. -/
theorem pushAll_read_early (h : pushAll xs s = .next (t, evs)) (hn : s.df.received + xs.length ≤ 6 + i)
    (hv : Memory.read t.buf i = some v) : Memory.read s.buf i = some v :=
  pushAll_keeps_until (P := fun w => Memory.read w.buf i = some v → Memory.read s.buf i = some v) (Q := fun _ => True)
    (fun hpush hreceived _ hw hv => hw (pushByte_read_early hpush hreceived hv)) h hn (fun _ _ => trivial) id hv

/-- Inside its window a byte of `MSG_BUF` stays, under `REPORT`, as long as nothing is reported. -/
theorem pushAll_keeps_read (h : pushAll xs s = .next (t, evs)) (hn : s.df.received + xs.length ≤ 6 + i)
    (hreport : s.cfg.policy = .report) (hout : ∀ o ∈ outcomes evs, o = .noOutput) :
    Memory.read t.buf i = Memory.read s.buf i := by
  refine (pushAll_keeps_until
    (P := fun w => w.cfg.policy = .report ∧ Memory.read w.buf i = Memory.read s.buf i) (Q := (· = .noOutput))
    ?_ h hn hout ⟨hreport, rfl⟩).2
  rintro w w' b _ hpush hreceived rfl ⟨hpolicy, hread⟩
  obtain ⟨hcfg, -⟩ := pushByte_frame hpush
  exact ⟨by rw [hcfg, hpolicy], (pushByte_keeps_read hpush hpolicy hreceived).trans hread⟩

end Window

/-- After an Envelope DF is in the initial SYNC state, and `MSG_BUF` reads as the message (R37, R150). -/
theorem exec_dfPush_envelope {s t : State} {b : Byte} {env : Envelope} (h : exec (.dfPush b) s = .next t)
    (hout : outcomes t.out.df = [.envelope env]) :
    t.cfg = s.cfg ∧ inInitialSync t ∧ ∀ i, Memory.read t.buf i = env.msg[i]? := by
  obtain ⟨u, o, hpush, rfl⟩ := execDfPush_eq_next.1 h
  obtain rfl : o = .envelope env := List.head_eq_of_cons_eq hout
  obtain ⟨len, hmsg, rfl⟩ := pushByte_envelope hpush
  exact ⟨rfl, rfl, read_below_of_readFrom hmsg⟩

/-- Settles O56: the pushes after the Envelope start from the initial SYNC state, so the `n`-th of them is the `n`-th byte
of a frame at the latest, and each register and byte is overwritten at its own place of the frame. -/
theorem envelopeStaysReadableUntilOverwritten : Obligations.EnvelopeStaysReadableUntilOverwritten := by
  intro s t u b env bytes hs hexec hout hbatch
  obtain ⟨hcls, hmid, hlen, -⟩ := envelopeIsReadableAfterItsStep s t b env hs hexec hout
  obtain ⟨hcfg, hsync, hbuf⟩ := exec_dfPush_envelope hexec hout
  obtain ⟨w, evs, hpush, rfl⟩ := exec_dfBatch_eq_next.1 hbatch
  have hstart : t.df.received = 0 := by rw [hsync]; rfl
  refine ⟨fun hn => ?_, fun hn => ?_, fun hn => ?_, fun i v hv hn => ⟨?_, ?_⟩⟩
  · exact (pushAll_eq_until (fun h => have ⟨hkept, _, _⟩ := pushByte_registers h; hkept) hpush (by omega)).trans hcls
  · exact (pushAll_eq_until (fun h => have ⟨_, hkept, _⟩ := pushByte_registers h; hkept) hpush (by omega)).trans hmid
  · exact (pushAll_eq_until (fun h => have ⟨_, _, hkept⟩ := pushByte_registers h; hkept) hpush (by omega)).trans hlen
  · cases hread : Memory.read w.buf i with
    | none => exact .inr hread
    | some x =>
      have hx := pushAll_read_early hpush (by omega) hread
      rw [hbuf, hv] at hx
      exact .inl (hread.trans hx.symm)
  · rintro (hfive | ⟨hreport, hnone⟩)
    · have hkept : w.buf = t.buf := pushAll_eq_until pushByte_buf_early hpush (by omega)
      show Memory.read w.buf i = some v
      rw [hkept, hbuf, hv]
    · have hkept := pushAll_keeps_read (i := i) hpush (by omega) (by rw [hcfg, hreport]) hnone
      exact hkept.trans ((hbuf i).trans hv)

end Sys2Proof.Machine
